-- ==== Sys2Proof/Word.lean ====
section
/-!
DEFINITION. The word types of the block (00_scope.md R7, R9, R11): every value is an unsigned bit
vector of the width the rule gives it; counts and positions that no rule stores stay `Nat`.
-/

namespace Sys2Proof

/-- A register word or a host data word: 32 bits (10_state.md section 4). -/
abbrev Word := BitVec 32

/-- One byte of a buffer (10_state.md R50). -/
abbrev Byte := BitVec 8

/-- A symbol: an 8-bit unsigned value (R7). -/
abbrev Sym := BitVec 8

/-- A node index: 9 bits (R9). -/
abbrev NodeIdx := BitVec 9

/-- A node weight: 40 bits (R9). -/
abbrev Weight := BitVec 40

end Sys2Proof
end

