-- ==== Sys2Proof/Syntax.lean ====
section
/-!
DEFINITION. The command set of the block, one constructor per row of spec/opcode_table.json
(30_encoding.md R106).
-/

namespace Sys2Proof

/-- The nine commands. The only explicit operand of any of them is LOOKUP's SYM (R104, R105). -/
inductive Instr where
  | nop
  | count
  | build
  | table
  | encode
  | decode
  | compress
  | lookup (sym : Sym)
  | clear
deriving DecidableEq, Repr

end Sys2Proof
end

