-- ==== Sys2Proof/WellFormed.lean ====
section
/-!
DEFINITION. The CMD format (30_encoding.md R100) as a record of its four fields, and the check that
tells a legal command word from an illegal one (R107, R108). A term of `Instr` needs no check of its
own: its only operand is an 8-bit symbol by its type (R104).
-/

namespace Sys2Proof

/-- The fields of a command word (R100). -/
structure CmdFields where
  /-- Bits 3:0, the opcode. -/
  op : BitVec 4
  /-- Bits 7:4, must be 0. -/
  rsv0 : BitVec 4
  /-- Bits 15:8, the symbol operand of LOOKUP. -/
  sym : Sym
  /-- Bits 31:16, must be 0. -/
  rsv1 : BitVec 16
deriving DecidableEq, Repr

/-- R107: OP values `0x9` to `0xF` are reserved. -/
def CmdFields.opDefined (f : CmdFields) : Bool := f.op ≤ 8#4

/-- R108: RSV0 and RSV1 are zero. -/
def CmdFields.reservedZero (f : CmdFields) : Bool := f.rsv0 == 0#4 && f.rsv1 == 0#16

/-- R108: SYM is zero for every OP but `0x7`. -/
def CmdFields.symAllowed (f : CmdFields) : Bool := f.op == 7#4 || f.sym == 0#8

/-- The command word is legal (R107, R108). -/
def CmdFields.wellFormed (f : CmdFields) : Bool :=
  f.opDefined && f.reservedZero && f.symAllowed

end Sys2Proof
end

