-- ==== Sys2Proof/Decode.lean ====
section
/-!
DEFINITION. The decoder of command words, total on all 2^32 of them and rejecting by name
(30_encoding.md R100, R106 to R109), and the encoder beside it.
-/

namespace Sys2Proof

/-- Why a command word is illegal (R107, R108). All of them end as ILLEGAL_CMD (R241). -/
inductive Illegal where
  /-- OP is `0x9` to `0xF` (R107). -/
  | reservedOp
  /-- RSV0 is not zero (R108). -/
  | reservedBits7to4
  /-- RSV1 is not zero (R108). -/
  | reservedBits31to16
  /-- SYM is not zero and OP is not `0x7` (R108). -/
  | strayOperand
deriving DecidableEq, Repr

/-- What the decoder answers. -/
inductive Decoded where
  | instr (i : Instr)
  | illegal (why : Illegal)
deriving DecidableEq, Repr

/-- The fields of a command word (R100). -/
def fieldsOf (w : Word) : CmdFields :=
  { op := w.extractLsb' 0 4, rsv0 := w.extractLsb' 4 4, sym := w.extractLsb' 8 8,
    rsv1 := w.extractLsb' 16 16 }

/-- The opcode map (R106); `none` for a reserved OP (R107). -/
def commandOf (op : Nat) (sym : Sym) : Option Instr :=
  match op with
  | 0 => some .nop
  | 1 => some .count
  | 2 => some .build
  | 3 => some .table
  | 4 => some .encode
  | 5 => some .decode
  | 6 => some .compress
  | 7 => some (.lookup sym)
  | 8 => some .clear
  | _ => none

/-- R106: the command is selected by OP alone; then the must-be-zero fields are checked (R108). -/
def decode (w : Word) : Decoded :=
  let f := fieldsOf w
  match commandOf f.op.toNat f.sym with
  | none => .illegal .reservedOp
  | some i =>
    if f.rsv0 ≠ 0#4 then .illegal .reservedBits7to4
    else if f.rsv1 ≠ 0#16 then .illegal .reservedBits31to16
    else if f.op ≠ 7#4 ∧ f.sym ≠ 0#8 then .illegal .strayOperand
    else .instr i

/-- The command word of a command (R106): `0x0000ss07` for LOOKUP, the opcode alone for the others. -/
def encode : Instr → Word
  | .nop => 0x00000000#32
  | .count => 0x00000001#32
  | .build => 0x00000002#32
  | .table => 0x00000003#32
  | .encode => 0x00000004#32
  | .decode => 0x00000005#32
  | .compress => 0x00000006#32
  | .lookup sym => (sym.setWidth 32 <<< 8) ||| 0x00000007#32
  | .clear => 0x00000008#32

/-- A command word of `nbits` bits, the bits above them zero. -/
def tableWord (nbits w : Nat) : Word := BitVec.ofNat 32 (w % 2 ^ nbits)

/-- The command this decoder reads from an opcode-table row's word; `none` where it refuses. Every
row is one 32-bit command word (R100), numbered as R11 numbers its bits. -/
def decodeTableWord (nbits w : Nat) : Option Instr :=
  match decode (tableWord nbits w) with
  | .instr i => some i
  | .illegal _ => none

end Sys2Proof
end

