-- ==== Sys2Proof/Config.lean ====
section
/-!
DEFINITION. What is fixed per implementation (`Params`, 00_scope.md R8, R10; 93 U22, U23), and the free
values of the spec (93_implementation_defined.md part 2, treatment "any value"), which have no body:
nothing in Lean can compute one.
-/

namespace Sys2Proof

/-- The three byte buffers (10_state.md R50). -/
inductive BufferId where
  | symIn
  | bits
  | symOut
deriving DecidableEq, Repr

/-- The named parameters of R8 and R10. `exec` has no argument for them, so a state carries the
parameters of its own block; no step changes them. -/
structure Params where
  /-- MAX_SYMS, bytes of SYM_IN (R8). -/
  maxSyms : Nat
  /-- BIT_BUF_BYTES, bytes of BITS (R8). -/
  bitBufBytes : Nat
  /-- OUT_CAP, bytes of SYM_OUT (R8). -/
  outCap : Nat
  /-- HUF_BASE divided by `0x400000`: HUF_BASE is a multiple of `0x400000` (R10). -/
  hufBaseIndex : Nat
  /-- HUF_IRQ, the platform interrupt input the IRQ output drives (R10). -/
  hufIrq : Nat
deriving DecidableEq, Repr

/-- R8: each capacity is an integer in `1 .. 2^20`. -/
def Params.legal (p : Params) : Bool :=
  (1 ≤ p.maxSyms && p.maxSyms ≤ 2 ^ 20) && (1 ≤ p.bitBufBytes && p.bitBufBytes ≤ 2 ^ 20) &&
    (1 ≤ p.outCap && p.outCap ≤ 2 ^ 20)

/-- The capacity of a buffer in bytes (R8, R50). -/
def Params.capacity (p : Params) : BufferId → Nat
  | .symIn => p.maxSyms
  | .bits => p.bitBufBytes
  | .symOut => p.outCap

/-- HUF_BASE, the address at which the host sees the block (R10). -/
def Params.hufBase (p : Params) : Nat := 0x400000 * p.hufBaseIndex

/-- DESIGN CHOICE, unsafe (notes/assumptions/1.md): the parameters `State.reset` carries. R8 and R10
leave them open; 64 is the capacity that R8 and 95_test_vectors.md assume. Every statement ranges over
states with any parameters. -/
def Config.params : Params :=
  { maxSyms := 64, bitBufBytes := 64, outCap := 64, hufBaseIndex := 0, hufIrq := 0 }

/-- Free value (log entry 4): what a host read returns where the spec says "any value" (R30, R44, R46,
R51, R73); the argument is the number of values drawn before. -/
opaque Config.freeWord : Nat → Word

/-- Free value (log entry 5): how many host events the sequencer lets pass before an accepted command
completes (R221, R290, 93 U21: any finite number, zero included). -/
opaque Config.latency : Nat → Nat

/-- Free value (log entry 3): the byte a buffer holds after the reset input fires (R272, R273: any
value, stable until written); the arguments are the draw number, the buffer and the byte's index. -/
opaque Config.resetByte : Nat → BufferId → Nat → Byte

end Sys2Proof
end

