-- ==== Sys2Proof/Machine/State.lean ====
section
/-!
DEFINITION. The architectural state of the block (10_state.md), its value after reset
(70_reset_and_hazards.md R271), and the two ways a step could fail to answer a next state.
-/

namespace Sys2Proof.Machine

/-- The error codes of STATUS.ERR_CODE (60_exceptions.md R240); `0x08 .. 0xFF` are never produced. -/
inductive ErrCode where
  | none
  | illegalCmd
  | range
  | noTree
  | noTable
  | lookupFail
  | overflow
  | truncated
deriving DecidableEq, Repr

/-- The sequencer SEQ (R21). While BUSY it holds the latched command word CMDL (R58). `hold` is the
model's own: how many more host events the running command lets pass before it completes (R290). -/
inductive Seq where
  | idle
  | busy (cmdl : Word) (hold : Nat)
deriving DecidableEq, Repr

/-- A TREE record (R47). -/
structure Node where
  weight : Weight
  leaf : Bool
  sym : Sym
  left : NodeIdx
  right : NodeIdx
deriving DecidableEq, Repr

/-- An unused TREE record: all zero (R47). -/
def Node.zero : Node := { weight := 0, leaf := false, sym := 0, left := 0, right := 0 }

/-- A CODE entry (R48): bit `i` of `bits` is code bit `c{i}`. -/
structure CodeEntry where
  valid : Bool
  len : BitVec 8
  bits : BitVec 256
deriving DecidableEq, Repr

/-- The entry of a symbol with no code: VALID, LEN and BITS all zero (R48). -/
def CodeEntry.invalid : CodeEntry := { valid := false, len := 0, bits := 0 }

/-- The bytes of one buffer: the listed cells, and `Memory.blank` everywhere else. -/
abbrev Memory := List Host.Cell

/-- DESIGN CHOICE, unsafe (log entry 2): what a byte that nothing has written reads as. R273 leaves
it any value; every statement ranges over states with any buffer contents. -/
def Memory.blank : Byte := 0

/-- The canonical form: indices strictly rising, and no cell equal to what an unlisted byte reads as. -/
def Memory.wf : Memory → Bool
  | [] => true
  | c :: m => c.2 != Memory.blank && m.all (fun d => c.1 < d.1) && Memory.wf m

/-- What the host does at its port in one access (20_memory.md R73, R80). -/
inductive AccessOp where
  | read
  | write (value : Word)
deriving DecidableEq, Repr

/-- A host access: the address in the host's address space, the width in bytes, and what it does. -/
structure Access where
  addr : Nat
  width : Nat
  op : AccessOp
deriving DecidableEq, Repr

/-- What the outside world does to the block, in the order it does it (R80). -/
inductive HostEvent where
  /-- One host access (R73, R74). -/
  | access (a : Access)
  /-- The WAIT of 30_encoding.md R113: the host reads STATUS until it reads BUSY = 0. -/
  | wait
  /-- The platform drives the reset input (R270). -/
  | resetInput
deriving DecidableEq, Repr

/-- A bus response (R59, R73). -/
inductive BusResp where
  | readOk (value : Word)
  | writeOk
  /-- A bus error on a read, with the value that comes with it (R73). -/
  | readError (value : Word)
  /-- A bus error on a write (R73). -/
  | writeError
deriving DecidableEq, Repr

/-- Everything the spec gives the block (10_state.md section 1). The last three fields are the model's
own: the response of the last host access, the host events still to come, and the number of free
values drawn so far. -/
structure State where
  /-- MAX_SYMS, BIT_BUF_BYTES, OUT_CAP (CAP_SYMS, CAP_BITBYTES, CAP_OUT, R43), HUF_BASE, HUF_IRQ. -/
  params : Params
  /-- SEQ and CMDL (R21, R58); STATUS.BUSY is SEQ = BUSY (R22). -/
  seq : Seq
  /-- CTRL.IE (R32). -/
  ie : Bool
  /-- STATUS.DONE (R23). -/
  done : Bool
  /-- STATUS.EMPTY (R25). -/
  empty : Bool
  /-- STATUS.TREE_VALID (R26). -/
  treeValid : Bool
  /-- STATUS.TABLE_VALID (R27). -/
  tableValid : Bool
  /-- STATUS.OVERRUN (R28). -/
  overrun : Bool
  /-- STATUS.ERR_CODE (R29); STATUS.ERR has no storage (R24). -/
  errCode : ErrCode
  /-- IN_LEN (R34). -/
  inLen : Word
  /-- ENC_BITS (R35). -/
  encBits : Word
  /-- ENC_BYTES (R36). -/
  encBytes : Word
  /-- DEC_BITS (R37). -/
  decBits : Word
  /-- OUT_LEN (R38). -/
  outLen : Word
  /-- ERR_INFO (R39). -/
  errInfo : Word
  /-- NSYM (R40). -/
  nsym : BitVec 9
  /-- ROOT (R41). -/
  root : NodeIdx
  /-- LK_LEN (R42). -/
  lkLen : BitVec 8
  /-- LK_BITS0 .. LK_BITS7 (R42). -/
  lkBits : Vector Word 8
  /-- FREQ (R45). -/
  freq : Vector Word 256
  /-- TREE (R47). -/
  tree : Vector Node 511
  /-- CODE (R48). -/
  code : Vector CodeEntry 256
  /-- SYM_IN (R50). -/
  symIn : Memory
  /-- BITS (R50). -/
  bits : Memory
  /-- SYM_OUT (R50). -/
  symOut : Memory
  /-- The bus response to the last host access (R59, R73). -/
  resp : Option BusResp
  /-- The host events still to come, oldest first (R80). -/
  inbox : List HostEvent
  /-- How many free values have been drawn. -/
  draws : Nat
deriving DecidableEq, Repr

/-- The block never stops with a fault: an error ends the running command, is recorded in STATUS and
ERR_INFO, and the block goes on (60_exceptions.md R255, 45_control.md R222, R223). So no fault has a
name here, and no step can answer one. -/
inductive Fault where
deriving DecidableEq, Repr

/-- The reasons a step gives no meaning to a command. -/
inductive Refusal where
  /-- Raised by an arm of `exec` that has no meaning yet; safe. No arm raises it. -/
  | notModelled (mnemonic : String)
deriving DecidableEq, Repr

/-- R271 for a block with the parameters `p`: every register and table at its reset value, SEQ idle,
no command latched, IRQ low. The buffers list nothing (log entry 2). -/
def State.resetWith (p : Params) : State :=
  { params := p
    seq := .idle
    ie := false
    done := false
    empty := false
    treeValid := false
    tableValid := false
    overrun := false
    errCode := .none
    inLen := 0
    encBits := 0
    encBytes := 0
    decBits := 0
    outLen := 0
    errInfo := 0
    nsym := 0
    root := 0
    lkLen := 0
    lkBits := Vector.replicate 8 0
    freq := Vector.replicate 256 0
    tree := Vector.replicate 511 Node.zero
    code := Vector.replicate 256 CodeEntry.invalid
    symIn := []
    bits := []
    symOut := []
    resp := none
    inbox := []
    draws := 0 }

/-- The block right after reset (R271), with the parameters of `Config.params`. -/
def State.reset : State := State.resetWith Config.params

end Sys2Proof.Machine
end

