-- ==== Sys2Proof/Machine/Ops.lean ====
section
/-!
DEFINITION. The named operations the meanings share: one byte of a buffer (20_memory.md R87), one entry
of a table (10_state.md R45 to R48), code words as bit sequences (00_scope.md R12), the acceptance of a
command (45_control.md R220), its completion (R222), and taking an error (60_exceptions.md R255).
-/

namespace Sys2Proof.Machine

/-- `MemRead(B, a, 1)` (R87). -/
def Memory.read : Memory → Nat → Byte
  | [], _ => Memory.blank
  | c :: m, a => if c.1 = a then c.2 else Memory.read m a

/-- `MemWrite(B, a, 1, v)` (R87), keeping the canonical form. -/
def Memory.write : Memory → Nat → Byte → Memory
  | [], a, v => if v = Memory.blank then [] else [(a, v)]
  | c :: m, a, v =>
    if a < c.1 then (if v = Memory.blank then c :: m else (a, v) :: c :: m)
    else if a = c.1 then (if v = Memory.blank then m else (a, v) :: m)
    else c :: Memory.write m a v

/-- The buffer whose byte `a` is `byteAt a` for every `a` below `n`, built from the top down. -/
def Memory.ofBytes (byteAt : Nat → Byte) : Nat → Memory → Memory
  | 0, above => above
  | n + 1, above =>
    Memory.ofBytes byteAt n
      (if byteAt n = Memory.blank then above else (n, byteAt n) :: above)

/-- The entry of a 256-entry table for the symbol `a` (R45, R48). -/
def entryOf {α : Type} (v : Vector α 256) (a : Sym) : α := v[a.toNat]'a.isLt

/-- The table with the entry for the symbol `a` set to `x`. -/
def setEntry {α : Type} (v : Vector α 256) (a : Sym) (x : α) : Vector α 256 :=
  v.set a.toNat x a.isLt

/-- The TREE record at a node index (R47). Index 511 names no record; its place reads as zero (R47:
offsets `0x3FF0 .. 0x3FFF`), and no tree BUILD makes names it (log entry 7). -/
def nodeAt (tree : Vector Node 511) (i : NodeIdx) : Node :=
  if h : i.toNat < 511 then tree[i.toNat] else Node.zero

/-- A bit sequence, first-emitted bit first (R12), as a number whose bit `i` is the sequence's bit `i`. -/
def bitsToNat : List Bool → Nat
  | [] => 0
  | b :: c => b.toNat + 2 * bitsToNat c

/-- The CODE entry of the code word `c` (R48, R160). -/
def CodeEntry.ofWord (c : List Bool) : CodeEntry :=
  { valid := true, len := BitVec.ofNat 8 c.length, bits := BitVec.ofNat 256 (bitsToNat c) }

/-- The code word an entry holds: bits `0 .. LEN-1` of BITS (R48). -/
def CodeEntry.word (e : CodeEntry) : List Bool :=
  (List.range e.len.toNat).map (fun j => e.bits.getLsbD j)

/-- STATUS.BUSY (R22). -/
def State.isBusy (s : State) : Bool :=
  match s.seq with
  | .idle => false
  | .busy _ _ => true

/-- Acceptance of the command word `v` (R220), with `hold` host events let pass before completion. -/
def accept (v : Word) (hold : Nat) (s : State) : State :=
  { s with seq := .busy v hold, done := false, errCode := .none, errInfo := 0 }

/-- Completion with a code, in one instant (R222). -/
def complete (e : ErrCode) (s : State) : State :=
  { s with errCode := e, seq := .idle, done := true }

/-- `finish`: completion without error (R222). -/
def finish (s : State) : State := complete .none s

/-- `raise E(info)`: ERR_INFO is written, then the command completes with the code (R255). Nothing
else is saved: the block has no saved counter, mode or mask, and no vector. -/
def raise (e : ErrCode) (info : Word) (s : State) : State :=
  complete e { s with errInfo := info }

/-- How the pseudocode of a command ends (R14): by `finish`, or by its first `raise`. -/
inductive Ended where
  | finished (s : State)
  | raised (e : ErrCode) (info : Word) (s : State)

/-- The state a command leaves, its completion included (R222, R255). -/
def Ended.conclude : Ended → State
  | .finished s => finish s
  | .raised e info s => raise e info s

/-- The next stage of COMPRESS runs on the state the stage before it left, unless that stage raised
(R226). -/
def Ended.andThen (r : Ended) (stage : State → Ended) : Ended :=
  match r with
  | .finished s => stage s
  | .raised e info s => .raised e info s

/-- The reset input (R270 to R272): the registers and tables take their reset values, a running
command is abandoned, and every buffer byte takes a free value (R273). The host's remaining events
stay to come. -/
def applyReset (s : State) : State :=
  let fresh : BufferId → Memory := fun b =>
    Memory.ofBytes (Config.resetByte s.draws b) (s.params.capacity b) []
  { State.resetWith s.params with
    symIn := fresh .symIn
    bits := fresh .bits
    symOut := fresh .symOut
    inbox := s.inbox
    draws := s.draws + 1 }

end Sys2Proof.Machine
end

