-- ==== Sys2Proof/Machine/Flags.lean ====
section
/-!
DEFINITION. The STATUS word (10_state.md section 3), the flags that commands and host writes change in
it, and the interrupt output (R59).
-/

namespace Sys2Proof.Machine

/-- The number of an error code (60_exceptions.md R240). -/
def ErrCode.code : ErrCode → BitVec 8
  | .none => 0x00#8
  | .illegalCmd => 0x01#8
  | .range => 0x02#8
  | .noTree => 0x03#8
  | .noTable => 0x04#8
  | .lookupFail => 0x05#8
  | .overflow => 0x06#8
  | .truncated => 0x07#8

/-- STATUS.ERR: ERR_CODE is not zero (R24). -/
def ErrCode.isError (e : ErrCode) : Bool := e.code != 0#8

/-- The STATUS layout (R22 to R30); bits 7 and 31:16 read 0. -/
def statusOf (busy done empty treeValid tableValid overrun : Bool) (e : ErrCode) : Word :=
  BitVec.ofNat 32
    (busy.toNat + done.toNat * 2 + e.isError.toNat * 2 ^ 2 + empty.toNat * 2 ^ 3 +
      treeValid.toNat * 2 ^ 4 + tableValid.toNat * 2 ^ 5 + overrun.toNat * 2 ^ 6 +
      e.code.toNat * 2 ^ 8)

/-- What a read of STATUS returns while idle (R30). -/
def State.statusIdle (s : State) : Word :=
  statusOf false s.done s.empty s.treeValid s.tableValid s.overrun s.errCode

/-- What a read of STATUS returns while busy: BUSY 1, DONE, ERR and ERR_CODE 0, the current OVERRUN,
and any value, here the bits of `free`, in EMPTY, TREE_VALID and TABLE_VALID (R30). -/
def State.statusBusy (s : State) (free : Word) : Word :=
  statusOf true false (free.getLsbD 3) (free.getLsbD 4) (free.getLsbD 5) s.overrun .none

/-- A host write to STATUS clears DONE and OVERRUN where the written value has a 1 and changes nothing
else (R23, R28, R30). Clearing DONE is the host's return from a completion (60_exceptions.md R257). -/
def writeStatus (v : Word) (s : State) : State :=
  { s with done := s.done && !v.getLsbD 1, overrun := s.overrun && !v.getLsbD 6 }

/-- The flags COUNT clears (R25 to R27, 40_frequency_count.md R130). -/
def clearValidFlags (s : State) : State :=
  { s with treeValid := false, tableValid := false, empty := false }

/-- The output wire IRQ (R59). -/
def State.irq (s : State) : Bool := s.ie && s.done

/-- The platform's interrupt input `n` as this block drives it (R10, 60_exceptions.md R250). -/
def State.platformIrq (s : State) (n : Nat) : Bool := n == s.params.hufIrq && s.irq

end Sys2Proof.Machine
end

