-- ==== Sys2Proof/Machine/CodeTable.lean ====
section
/-!
DEFINITION. The unit CTB: TABLE and LOOKUP (42_code_table.md).
-/

namespace Sys2Proof.Machine

/-- More levels than any tree BUILD makes has: its depth is at most 255 edges (R163). -/
def treeLevels : Nat := 256

/-- `visit(i, p)` (R160, R161), through at most `levels` levels. A walk that runs out of levels, which
R148 and R163 exclude for a tree that BUILD made, records nothing (log entry 7). -/
def visit (tree : Vector Node 511) :
    Nat → NodeIdx → List Bool → Vector CodeEntry 256 → Vector CodeEntry 256
  | 0, _, _, code => code
  | levels + 1, i, p, code =>
    let nd := nodeAt tree i
    if nd.leaf then setEntry code nd.sym (CodeEntry.ofWord p)
    else
      visit tree levels nd.right (p ++ [true]) (visit tree levels nd.left (p ++ [false]) code)

/-- The CODE table of a tree (R160); a one-leaf tree gives its symbol the code word `"0"` (R162). -/
def deriveCode (tree : Vector Node 511) (root : NodeIdx) : Vector CodeEntry 256 :=
  let nd := nodeAt tree root
  let none := Vector.replicate 256 CodeEntry.invalid
  if nd.leaf then setEntry none nd.sym (CodeEntry.ofWord [false])
  else visit tree treeLevels root [] none

/-- The pseudocode of TABLE (R160). -/
def tableBody (s : State) : Ended :=
  if s.treeValid then .finished { s with code := deriveCode s.tree s.root, tableValid := true }
  else .raised .noTree 0 s

/-- TABLE (R160). -/
def execTable (s : State) : Host.Outcome State Fault Refusal := .next (tableBody s).conclude

/-- LK_BITSk holds BITS[32k+31 : 32k] (R42, R164). -/
def lookupWords (bits : BitVec 256) : Vector Word 8 :=
  Vector.ofFn fun k => bits.extractLsb' (32 * k.val) 32

/-- LK_LEN and LK_BITS0..7 as LOOKUP writes them from an entry (R164). -/
def loadLookup (e : CodeEntry) (s : State) : State :=
  { s with lkLen := e.len, lkBits := lookupWords e.bits }

/-- The pseudocode of LOOKUP (R164). -/
def lookupBody (a : Sym) (s : State) : Ended :=
  if s.tableValid then
    let e := entryOf s.code a
    if e.valid then .finished (loadLookup e s)
    else .raised .lookupFail (a.setWidth 32)
      { s with lkLen := 0, lkBits := Vector.replicate 8 0 }
  else .raised .noTable 0 s

/-- LOOKUP (R164). -/
def execLookup (a : Sym) (s : State) : Host.Outcome State Fault Refusal :=
  .next (lookupBody a s).conclude

end Sys2Proof.Machine
end

