-- ==== Sys2Proof/Machine/Operands.lean ====
section
/-!
DEFINITION. The operands of the commands (30_encoding.md R104, R105). The explicit one, SYM, is read by
the decoder; these are the implicit ones: the input sequence SYM_IN[0 .. IN_LEN-1], the bitstream
BITS[0 .. DEC_BITS-1] (20_memory.md R71), and the range checks on their lengths (60_exceptions.md R242).
-/

namespace Sys2Proof.Machine

/-- IN_LEN is within SYM_IN (R242). -/
def State.inputFits (s : State) : Bool := s.inLen.toNat ≤ s.params.maxSyms

/-- The input symbols `0 .. IN_LEN-1`, in order (R131, R182). -/
def State.inputSymbols (s : State) : List Sym :=
  (List.range s.inLen.toNat).map (fun i => s.symIn.read i)

/-- DEC_BITS is within BITS (R242). -/
def State.streamFits (s : State) : Bool := s.decBits.toNat ≤ 8 * s.params.bitBufBytes

/-- Stream bit `k`: bit `7 - (k mod 8)` of BITS byte `k div 8` (R71, R200). -/
def streamBit (m : Memory) (k : Nat) : Bool := (m.read (k / 8)).getLsbD (7 - k % 8)

/-- The bits `readBit()` returns one after the other until it returns EOF: stream bits
`0 .. DEC_BITS-1` (R200). -/
def State.streamBits (s : State) : List Bool :=
  (List.range s.decBits.toNat).map (streamBit s.bits)

end Sys2Proof.Machine
end

