-- ==== Sys2Proof/Machine/Encoder.lean ====
section
/-!
DEFINITION. The unit ENC: the bitstream writer and ENCODE (43_encoder.md). The writer's registers are
local to an ENCODE (10_state.md R56).
-/

namespace Sys2Proof.Machine

/-- The bitstream writer (R56) over the BITS buffer. -/
structure Writer where
  /-- WACC, the bits accumulated for the byte being filled. -/
  wacc : Byte
  /-- WCNT, how many bits of WACC are filled. -/
  wcnt : Nat
  /-- WPTR, the BITS byte index the next full byte goes to. -/
  wptr : Nat
  /-- K, the number of bits written so far. -/
  k : Nat
  /-- BITS. -/
  bits : Memory
deriving DecidableEq, Repr

/-- Open the writer (R182). -/
def openWriter (bits : Memory) : Writer := { wacc := 0, wcnt := 0, wptr := 0, k := 0, bits := bits }

/-- `writeBit(b)` (R180): the new bit enters at bit 0 and earlier bits move up; a full byte is
written. -/
def Writer.writeBit (w : Writer) (b : Bool) : Writer :=
  let acc := (w.wacc <<< 1) ||| BitVec.ofNat 8 b.toNat
  if w.wcnt + 1 = 8 then
    { wacc := 0, wcnt := 0, wptr := w.wptr + 1, k := w.k + 1, bits := w.bits.write w.wptr acc }
  else { w with wacc := acc, wcnt := w.wcnt + 1, k := w.k + 1 }

/-- `closeWriter()` (R181): a partial final byte is padded with zeros and written. -/
def Writer.close (w : Writer) : Writer :=
  if 0 < w.wcnt then
    { w with
      wacc := 0
      wcnt := 0
      wptr := w.wptr + 1
      bits := w.bits.write w.wptr (w.wacc <<< (8 - w.wcnt)) }
  else { w with wacc := 0, wcnt := 0 }

/-- Write the bits of one code word while the writer holds fewer than `room` bits (R182, R184); the
answer says whether a bit did not fit. -/
def Writer.writeWord (room : Nat) : List Bool → Writer → Writer × Bool
  | [], w => (w, false)
  | b :: c, w => if w.k = room then (w, true) else Writer.writeWord room c (w.writeBit b)

/-- The loop of ENCODE from input position `i` on (R182): it stops at the first symbol with no code
word (R183) or the first bit that does not fit (R184), whichever it meets first. -/
def encodeLoop (code : Vector CodeEntry 256) (room : Nat) :
    Nat → List Sym → Writer → Writer × Option (ErrCode × Nat)
  | _, [], w => (w, none)
  | i, a :: rest, w =>
    let e := entryOf code a
    if e.valid then
      match w.writeWord room e.word with
      | (w', true) => (w', some (.overflow, i))
      | (w', false) => encodeLoop code room (i + 1) rest w'
    else (w, some (.lookupFail, i))

/-- The counts and the bitstream ENCODE leaves (R182, R185), from the closed writer. -/
def storeStream (w : Writer) (s : State) : State :=
  { s with
    bits := w.bits
    encBits := BitVec.ofNat 32 w.k
    encBytes := BitVec.ofNat 32 w.wptr
    decBits := BitVec.ofNat 32 w.k }

/-- The pseudocode of ENCODE after its checks (R182): the writer is closed on every path (R185). -/
def encodeStream (s : State) : Ended :=
  match encodeLoop s.code (8 * s.params.bitBufBytes) 0 s.inputSymbols (openWriter s.bits) with
  | (w, none) => .finished (storeStream w.close s)
  | (w, some (e, i)) => .raised e (BitVec.ofNat 32 i) (storeStream w.close s)

/-- The pseudocode of ENCODE (R182), its checks in the order of 60_exceptions.md R252. -/
def encodeBody (s : State) : Ended :=
  if s.inputFits then
    if s.inLen = 0 then .finished { s with encBits := 0, encBytes := 0, decBits := 0 }
    else if s.tableValid then encodeStream s
    else .raised .noTable 0 s
  else .raised .range 0 s

/-- ENCODE (R182). -/
def execEncode (s : State) : Host.Outcome State Fault Refusal := .next (encodeBody s).conclude

end Sys2Proof.Machine
end

