-- ==== Sys2Proof/Machine/Frequency.lean ====
section
/-!
DEFINITION. The unit FCNT: COUNT (40_frequency_count.md).
-/

namespace Sys2Proof.Machine

/-- One pass of the counting loop: `FREQ[s] <- FREQ[s] + 1` (R130). -/
def countSymbol (freq : Vector Word 256) (a : Sym) : Vector Word 256 :=
  setEntry freq a (entryOf freq a + 1)

/-- The FREQ table of an input (R130, R131). -/
def frequencies (input : List Sym) : Vector Word 256 :=
  input.foldl countSymbol (Vector.replicate 256 0)

/-- The pseudocode of COUNT (R130). -/
def countBody (s : State) : Ended :=
  if s.inputFits then .finished (clearValidFlags { s with freq := frequencies s.inputSymbols })
  else .raised .range 0 s

/-- COUNT (R130). -/
def execCount (s : State) : Host.Outcome State Fault Refusal := .next (countBody s).conclude

end Sys2Proof.Machine
end

