-- ==== Sys2Proof/Machine/Merge.lean ====
section
/-!
DEFINITION. The unit PQM: BUILD (41_priority_queue_merge.md). PQ and NEXT are local to a BUILD
(10_state.md R55); no rule reads them after it.
-/

namespace Sys2Proof.Machine

/-- The leaf of a symbol (R140, R141). -/
def leafNode (a : Sym) (count : Word) : Node :=
  { weight := count.setWidth 40, leaf := true, sym := a, left := 0, right := 0 }

/-- Step 1: one leaf per symbol with a nonzero count, in ascending order of symbol (R141). -/
def leavesOf (freq : Vector Word 256) : List Node :=
  (List.range 256).filterMap fun a =>
    let count := entryOf freq (BitVec.ofNat 8 a)
    if count = 0 then none else some (leafNode (BitVec.ofNat 8 a) count)

/-- The merge loop's state (R55): the records made so far, in index order, and the set PQ. -/
structure MergeQueue where
  made : List Node
  pq : List Nat
deriving DecidableEq, Repr

/-- NEXT: the node index the next internal node will take (R55). -/
def MergeQueue.nextIndex (q : MergeQueue) : Nat := q.made.length

/-- The WEIGHT of a record made so far. -/
def weightOf (made : List Node) (i : Nat) : Nat := (made.getD i Node.zero).weight.toNat

/-- `(WEIGHT, node index)` of `i` is less than that of `j` (R142). -/
def queuesBefore (made : List Node) (i j : Nat) : Bool :=
  weightOf made i < weightOf made j || (weightOf made i == weightOf made j && i < j)

/-- `argmin over i in PQ of (TREE[i].WEIGHT, i)` (R140, R142); 0 for an empty PQ, which no pass of the
loop asks for. -/
def leastOf (made : List Node) : List Nat → Nat
  | [] => 0
  | i :: pq => pq.foldl (fun best j => if queuesBefore made j best then j else best) i

/-- The internal node over `t1` (left, removed first) and `t2` (right, removed second) (R143). -/
def mergedNode (made : List Node) (t1 t2 : Nat) : Node :=
  { weight := (made.getD t1 Node.zero).weight + (made.getD t2 Node.zero).weight
    leaf := false
    sym := 0
    left := BitVec.ofNat 9 t1
    right := BitVec.ofNat 9 t2 }

/-- One pass of the merge loop (R140, R143). -/
def mergeOnce (q : MergeQueue) : MergeQueue :=
  let t1 := leastOf q.made q.pq
  let pq1 := q.pq.erase t1
  let t2 := leastOf q.made pq1
  let pq2 := pq1.erase t2
  { made := q.made ++ [mergedNode q.made t1 t2], pq := pq2 ++ [q.nextIndex] }

/-- `while |PQ| > 1` (R140). Each pass shrinks PQ by one (R150), so as many passes as PQ has nodes are
enough. -/
def mergeLoop : Nat → MergeQueue → MergeQueue
  | 0, q => q
  | n + 1, q => if 1 < q.pq.length then mergeLoop n (mergeOnce q) else q

/-- All 511 TREE records: those made, then zero (R146). -/
def recordsOf (made : List Node) : Vector Node 511 :=
  Vector.ofFn fun i => made.getD i.val Node.zero

/-- What BUILD computes (R140). -/
structure Built where
  tree : Vector Node 511
  nsym : Nat
  root : Nat
deriving DecidableEq, Repr

/-- The tree, NSYM and ROOT of a FREQ table, a function of the table alone (R140, R145, R149). -/
def buildTree (freq : Vector Word 256) : Built :=
  let leaves := leavesOf freq
  let q := mergeLoop leaves.length { made := leaves, pq := List.range leaves.length }
  { tree := recordsOf q.made, nsym := leaves.length, root := q.pq.headD 0 }

/-- The pseudocode of BUILD (R140): every CODE entry is invalidated, TREE, NSYM and ROOT are written,
and TREE_VALID and EMPTY say whether a symbol was found (R145). -/
def buildBody (s : State) : Ended :=
  let b := buildTree s.freq
  .finished
    { s with
      tree := b.tree
      nsym := BitVec.ofNat 9 b.nsym
      root := BitVec.ofNat 9 b.root
      code := Vector.replicate 256 CodeEntry.invalid
      treeValid := b.nsym != 0
      empty := b.nsym == 0
      tableValid := false }

/-- BUILD (R140). -/
def execBuild (s : State) : Host.Outcome State Fault Refusal := .next (buildBody s).conclude

end Sys2Proof.Machine
end

