-- ==== Sys2Proof/Machine/Control.lean ====
section
/-!
DEFINITION. The sequencer's own commands: NOP, CLEAR and COMPRESS (45_control.md).
-/

namespace Sys2Proof.Machine

/-- NOP (R224). -/
def execNop (s : State) : Host.Outcome State Fault Refusal := .next (Ended.finished s).conclude

/-- The pseudocode of CLEAR (R225). -/
def clearBody (s : State) : Ended :=
  .finished
    { s with
      freq := Vector.replicate 256 0
      code := Vector.replicate 256 CodeEntry.invalid
      tree := Vector.replicate 511 Node.zero
      inLen := 0
      decBits := 0
      encBits := 0
      encBytes := 0
      outLen := 0
      nsym := 0
      root := 0
      lkLen := 0
      lkBits := Vector.replicate 8 0
      empty := false
      treeValid := false
      tableValid := false }

/-- CLEAR (R225). -/
def execClear (s : State) : Host.Outcome State Fault Refusal := .next (clearBody s).conclude

/-- Stage 3 of COMPRESS: TABLE, if stage 2 made a tree (R226). -/
def tableStage (s : State) : Ended := if s.treeValid then tableBody s else .finished s

/-- The pseudocode of COMPRESS: COUNT, BUILD, TABLE and ENCODE, up to the first `raise` (R226). -/
def compressBody (s : State) : Ended :=
  (((countBody s).andThen buildBody).andThen tableStage).andThen encodeBody

/-- COMPRESS (R226). -/
def execCompress (s : State) : Host.Outcome State Fault Refusal := .next (compressBody s).conclude

end Sys2Proof.Machine
end

