-- ==== Sys2Proof/Machine/Decoder.lean ====
section
/-!
DEFINITION. The unit DEC: the bitstream reader and DECODE (44_decoder.md). The decoder's registers are
local to a DECODE (10_state.md R57).
-/

namespace Sys2Proof.Machine

/-- The decoder's cursor (R57) with the output it has written. -/
structure Cursor where
  /-- CUR, the traversal cursor; CUR = ROOT is AT_ROOT. -/
  cur : NodeIdx
  /-- RK, the number of stream bits read. -/
  rk : Nat
  /-- START, the stream bit at which the code word being decoded began. -/
  start : Nat
  /-- The number of symbols written. -/
  n : Nat
  /-- SYM_OUT. -/
  symOut : Memory
deriving DecidableEq, Repr

/-- Initial state AT_ROOT (R201, R202). -/
def openCursor (root : NodeIdx) (symOut : Memory) : Cursor :=
  { cur := root, rk := 0, start := 0, n := 0, symOut := symOut }

/-- What one stream bit does to the walk (R201, R202). -/
inductive Move where
  /-- The walk goes on at this internal node. -/
  | descend (i : NodeIdx)
  /-- A symbol is complete. -/
  | emit (a : Sym)
deriving DecidableEq, Repr

/-- The walk from `cur` on the bit `b`: the check for a leaf comes first, and the bit is then not
examined (R202). -/
def walk (tree : Vector Node 511) (cur : NodeIdx) (b : Bool) : Move :=
  let nd := nodeAt tree cur
  if nd.leaf then .emit nd.sym
  else
    let nx := if b then nd.right else nd.left
    if (nodeAt tree nx).leaf then .emit (nodeAt tree nx).sym else .descend nx

/-- The loop of DECODE over the stream bits still to read (R201); the answer says whether a complete
symbol found SYM_OUT full (R204). -/
def decodeLoop (tree : Vector Node 511) (root : NodeIdx) (outCap : Nat) :
    List Bool → Cursor → Cursor × Bool
  | [], c => (c, false)
  | b :: stream, c =>
    match walk tree c.cur b with
    | .descend nx => decodeLoop tree root outCap stream { c with cur := nx, rk := c.rk + 1 }
    | .emit a =>
      if c.n = outCap then ({ c with rk := c.rk + 1 }, true)
      else
        decodeLoop tree root outCap stream
          { cur := root, rk := c.rk + 1, start := c.rk + 1, n := c.n + 1,
            symOut := c.symOut.write c.n a }

/-- SYM_OUT and OUT_LEN as DECODE leaves them (R201). -/
def storeOutput (c : Cursor) (s : State) : State :=
  { s with symOut := c.symOut, outLen := BitVec.ofNat 32 c.n }

/-- The pseudocode of DECODE after its checks (R201, R203, R204). -/
def decodeStream (s : State) : Ended :=
  match decodeLoop s.tree s.root s.params.outCap s.streamBits (openCursor s.root s.symOut) with
  | (c, true) => .raised .overflow (BitVec.ofNat 32 (c.rk - 1)) (storeOutput c s)
  | (c, false) =>
    if c.cur = s.root then .finished (storeOutput c s)
    else .raised .truncated (BitVec.ofNat 32 c.start) (storeOutput c s)

/-- The pseudocode of DECODE (R201), its checks in the order of 60_exceptions.md R252. -/
def decodeBody (s : State) : Ended :=
  if s.streamFits then
    if s.decBits = 0 then .finished { s with outLen := 0 }
    else if s.treeValid then decodeStream s
    else .raised .noTree 0 s
  else .raised .range 0 s

/-- DECODE (R201). -/
def execDecode (s : State) : Host.Outcome State Fault Refusal := .next (decodeBody s).conclude

end Sys2Proof.Machine
end

