-- ==== Sys2Proof/Machine/Port.lean ====
section
/-!
DEFINITION. The host port: the address map (20_memory.md R75), host reads and writes of registers,
tables and buffers (10_state.md sections 4 and 5), and bus errors (R73).
-/

namespace Sys2Proof.Machine

/-- The registers the host can name (10_state.md section 4). -/
inductive Reg where
  | id
  | ctrl
  | status
  | cmd
  | inLen
  | encBits
  | encBytes
  | decBits
  | outLen
  | errInfo
  | nsym
  | root
  | lkLen
  | capSyms
  | capBitBytes
  | capOut
  | lkBits (k : Fin 8)
deriving DecidableEq, Repr

/-- What an aligned 32-bit offset names (R75). A buffer is named with the index of the first of the
four bytes the word covers (R77). -/
inductive Target where
  | reg (r : Reg)
  | freq (a : Sym)
  | treeWord (i : NodeIdx) (w : Fin 4)
  | codeLen (a : Sym)
  | codeBits (a : Sym) (k : Fin 8)
  | buffer (b : BufferId) (first : Nat)
  /-- A reserved offset (R76), or the place of a node 511 (R47). -/
  | reserved
deriving DecidableEq, Repr

/-- The registers by word number: offset `0x000` up to `0x03C` (10_state.md section 4). -/
def regList : List Reg :=
  [.id, .ctrl, .status, .cmd, .inLen, .encBits, .encBytes, .decBits, .outLen, .errInfo, .nsym, .root,
   .lkLen, .capSyms, .capBitBytes, .capOut]

/-- The address map (R75) below the buffer windows: registers, FREQ, TREE, CODE_LEN, CODE_BITS, and the
reserved offsets between them. -/
def tableTarget (off : Nat) : Target :=
  if off < 0x40 then .reg (regList.getD (off / 4) .id)
  else if off < 0x60 then .reg (.lkBits (Fin.ofNat 8 ((off - 0x40) / 4)))
  else if off < 0x400 then .reserved
  else if off < 0x800 then .freq (BitVec.ofNat 8 ((off - 0x400) / 4))
  else if off < 0x2000 then .reserved
  else if off < 0x3FF0 then
    .treeWord (BitVec.ofNat 9 ((off - 0x2000) / 16)) (Fin.ofNat 4 (off % 16 / 4))
  else if off < 0x4000 then .reserved
  else if off < 0x4400 then .codeLen (BitVec.ofNat 8 ((off - 0x4000) / 4))
  else if off < 0x6000 then .reserved
  else if off < 0x8000 then
    .codeBits (BitVec.ofNat 8 ((off - 0x6000) / 32)) (Fin.ofNat 8 (off % 32 / 4))
  else .reserved

/-- The offset at which a buffer's window of `0x100000` bytes begins (R75). -/
def windowBase : BufferId → Nat
  | .symIn => 0x100000
  | .bits => 0x200000
  | .symOut => 0x300000

/-- The buffer whose window an offset at or above `0x100000` lies in (R75). -/
def windowBuffer (off : Nat) : BufferId :=
  match off / 0x100000 with
  | 1 => .symIn
  | 2 => .bits
  | _ => .symOut

/-- The address map (R75) by offset. -/
def targetOf (off : Nat) : Target :=
  if off < 0x100000 then tableTarget off else .buffer (windowBuffer off) (off % 0x100000)

/-- The block decodes 22 bits of address: a 4 MiB region at HUF_BASE (R10, R75). -/
def hits (p : Params) (addr : Nat) : Bool :=
  p.hufBase ≤ addr && addr < p.hufBase + 0x400000

/-- The offset of an address in the region. -/
def offsetOf (p : Params) (addr : Nat) : Nat := addr - p.hufBase

/-- The access is 32 bits wide at an address that is a multiple of 4 (R73). -/
def Access.aligned (a : Access) : Bool := a.width == 4 && a.addr % 4 == 0

/-- The contents of a buffer. -/
def State.buffer (s : State) : BufferId → Memory
  | .symIn => s.symIn
  | .bits => s.bits
  | .symOut => s.symOut

/-- Byte `j` of a word (R70). -/
def byteOf (v : Word) (j : Nat) : Byte := v.extractLsb' (8 * j) 8

/-- The word of four bytes, byte `j` in bits `8j+7 : 8j` (R70). -/
def wordOf (byteAt : Nat → Byte) : Word :=
  BitVec.ofNat 32
    ((byteAt 0).toNat + (byteAt 1).toNat * 2 ^ 8 + (byteAt 2).toNat * 2 ^ 16 +
      (byteAt 3).toNat * 2 ^ 24)

/-- A word of a buffer window (R70, R77): a byte at or above the capacity reads 0. -/
def windowWord (cap first : Nat) (byteAt : Nat → Byte) : Word :=
  wordOf fun j => if first + j < cap then byteAt j else 0

/-- One byte of a host word write: ignored at or above the capacity (R77). -/
def writeWindowByte (cap first : Nat) (v : Word) (j : Nat) (m : Memory) : Memory :=
  if first + j < cap then m.write (first + j) (byteOf v j) else m

/-- A host word write to a buffer window (R70, R77). -/
def writeWindow (cap first : Nat) (v : Word) (m : Memory) : Memory :=
  writeWindowByte cap first v 3 (writeWindowByte cap first v 2
    (writeWindowByte cap first v 1 (writeWindowByte cap first v 0 m)))

/-- The four words of a TREE record (R47). -/
def treeRecordWord (nd : Node) (w : Fin 4) : Word :=
  match w with
  | 0 => nd.weight.extractLsb' 0 32
  | 1 => (nd.weight.extractLsb' 32 8).setWidth 32
  | 2 =>
    BitVec.ofNat 32
      (nd.left.toNat + nd.right.toNat * 2 ^ 9 + nd.sym.toNat * 2 ^ 18 + nd.leaf.toNat * 2 ^ 31)
  | 3 => 0

/-- CODE_LEN of an entry (R48). -/
def codeLenWord (e : CodeEntry) : Word := BitVec.ofNat 32 (e.len.toNat + e.valid.toNat * 2 ^ 31)

/-- CODE_BITS word `k` of an entry (R48). -/
def codeBitsWord (e : CodeEntry) (k : Fin 8) : Word := e.bits.extractLsb' (32 * k.val) 32

/-- The stored value of a register (10_state.md section 4). -/
def State.regValue (s : State) : Reg → Word
  | .id => 0x48554631#32
  | .ctrl => BitVec.ofNat 32 s.ie.toNat
  | .status => s.statusIdle
  | .cmd => 0
  | .inLen => s.inLen
  | .encBits => s.encBits
  | .encBytes => s.encBytes
  | .decBits => s.decBits
  | .outLen => s.outLen
  | .errInfo => s.errInfo
  | .nsym => s.nsym.setWidth 32
  | .root => s.root.setWidth 32
  | .lkLen => s.lkLen.setWidth 32
  | .capSyms => BitVec.ofNat 32 s.params.maxSyms
  | .capBitBytes => BitVec.ofNat 32 s.params.bitBufBytes
  | .capOut => BitVec.ofNat 32 s.params.outCap
  | .lkBits k => s.lkBits[k.val]

/-- What a register reads as while busy (R30, R33, R44): ID, CTRL, CMD and CAP_* as ever, STATUS as R30
says, any value, here `free`, for the rest. -/
def State.regBusy (s : State) (free : Word) : Reg → Word
  | .id => s.regValue .id
  | .ctrl => s.regValue .ctrl
  | .status => s.statusBusy free
  | .cmd => s.regValue .cmd
  | .inLen => free
  | .encBits => free
  | .encBytes => free
  | .decBits => free
  | .outLen => free
  | .errInfo => free
  | .nsym => free
  | .root => free
  | .lkLen => free
  | .capSyms => s.regValue .capSyms
  | .capBitBytes => s.regValue .capBitBytes
  | .capOut => s.regValue .capOut
  | .lkBits _ => free

/-- What a host read returns while idle: the stored value (R44, R46, R48, R86). -/
def readIdle (s : State) : Target → Word
  | .reg r => s.regValue r
  | .freq a => entryOf s.freq a
  | .treeWord i w => treeRecordWord (nodeAt s.tree i) w
  | .codeLen a => codeLenWord (entryOf s.code a)
  | .codeBits a k => codeBitsWord (entryOf s.code a) k
  | .buffer b first =>
    windowWord (s.params.capacity b) first fun j => (s.buffer b).read (first + j)
  | .reserved => 0

/-- What a host read returns while busy: any value for tables and buffers (R46, R51, R82), 0 for a
byte at or above a buffer's capacity and for a reserved offset (R76, R77; log entry 6). -/
def readBusy (s : State) (free : Word) : Target → Word
  | .reg r => s.regBusy free r
  | .freq _ => free
  | .treeWord _ _ => free
  | .codeLen _ => free
  | .codeBits _ _ => free
  | .buffer b first => windowWord (s.params.capacity b) first (byteOf free)
  | .reserved => 0

/-- The value of an aligned host read. -/
def readTarget (s : State) (t : Target) : Word :=
  match s.seq with
  | .idle => readIdle s t
  | .busy _ _ => readBusy s (Config.freeWord s.draws) t

/-- A write to CMD (R220): accepted while idle, OVERRUN while busy. -/
def writeCmd (v : Word) (s : State) : State :=
  match s.seq with
  | .idle => accept v (Config.latency s.draws) { s with draws := s.draws + 1 }
  | .busy _ _ => { s with overrun := true }

/-- A host write to a register (R23, R28, R30, R32 to R44). -/
def writeReg (v : Word) (s : State) : Reg → State
  | .ctrl => { s with ie := v.getLsbD 0 }
  | .status => writeStatus v s
  | .cmd => writeCmd v s
  | .inLen => if s.isBusy then s else { s with inLen := v }
  | .decBits => if s.isBusy then s else { s with decBits := v }
  | .id => s
  | .encBits => s
  | .encBytes => s
  | .outLen => s
  | .errInfo => s
  | .nsym => s
  | .root => s
  | .lkLen => s
  | .capSyms => s
  | .capBitBytes => s
  | .capOut => s
  | .lkBits _ => s

/-- A host write to a FREQ entry (R46). -/
def writeFreq (a : Sym) (v : Word) (s : State) : State :=
  if s.isBusy then s
  else { s with freq := setEntry s.freq a v, treeValid := false, tableValid := false }

/-- A host write to a buffer window (R51, R76, R77): SYM_OUT ignores it. -/
def writeBuffer (b : BufferId) (first : Nat) (v : Word) (s : State) : State :=
  if s.isBusy then s
  else
    match b with
    | .symIn => { s with symIn := writeWindow s.params.maxSyms first v s.symIn }
    | .bits => { s with bits := writeWindow s.params.bitBufBytes first v s.bits }
    | .symOut => s

/-- An aligned host write (R44, R46, R51, R76). -/
def writeTarget (v : Word) (s : State) : Target → State
  | .reg r => writeReg v s r
  | .freq a => writeFreq a v s
  | .buffer b first => writeBuffer b first v s
  | .treeWord _ _ => s
  | .codeLen _ => s
  | .codeBits _ _ => s
  | .reserved => s

/-- The state after a response that carries a value: one free value is drawn for it. -/
def respondRead (r : BusResp) (s : State) : State := { s with resp := some r, draws := s.draws + 1 }

/-- The state after a write's response. -/
def respondWrite (r : BusResp) (s : State) : State := { s with resp := some r }

/-- An aligned access to what an offset names. -/
def accessTarget (t : Target) (op : AccessOp) (s : State) : State :=
  match op with
  | .read => respondRead (.readOk (readTarget s t)) s
  | .write v => respondWrite .writeOk (writeTarget v s t)

/-- A bus error (R73): a write changes no state, and a read returns any value with the error. -/
def accessError (op : AccessOp) (s : State) : State :=
  match op with
  | .read => respondRead (.readError (Config.freeWord s.draws)) s
  | .write _ => respondWrite .writeError s

/-- One host access (R73 to R77, R80). An address outside the block's region does not reach the block,
which gives no response to it (R10, R78, R262). -/
def hostAccess (a : Access) (s : State) : State :=
  if hits s.params a.addr then
    if a.aligned then accessTarget (targetOf (offsetOf s.params a.addr)) a.op s
    else accessError a.op s
  else { s with resp := none }

end Sys2Proof.Machine
end

