-- ==== Sys2Proof/Machine/Step.lean ====
section
/-!
DEFINITION. One step: the running command completes, or one host event happens (45_control.md R221,
70_reset_and_hazards.md R290). The block fetches nothing (10_state.md R21); its next command is the one
latched in CMDL.
-/

namespace Sys2Proof.Machine

/-- Run the command that CMDL names (R221); an illegal word raises ILLEGAL_CMD and does nothing else
(60_exceptions.md R241). -/
def runCommand (cmdl : Word) (s : State) : Host.Outcome State Fault Refusal :=
  match decode cmdl with
  | .instr i => exec i s
  | .illegal _ => .next (raise .illegalCmd 0 s)

/-- While idle the block waits (70_reset_and_hazards.md R274) and serves the next host event. A WAIT
ends here, with a read of STATUS that shows BUSY = 0 (30_encoding.md R113). -/
def serveIdle (s : State) : State :=
  match s.inbox with
  | [] => s
  | .access a :: rest => hostAccess a { s with inbox := rest }
  | .wait :: rest => accessTarget (.reg .status) .read { s with inbox := rest }
  | .resetInput :: rest => applyReset { s with inbox := rest }

/-- While busy, a host event is served first if `hold` says so; otherwise the command completes. It
also completes when the host does nothing more, or waits for it (R290: it must, within finitely many
host accesses; log entry 5). -/
def stepBusy (cmdl : Word) (hold : Nat) (s : State) : Host.Outcome State Fault Refusal :=
  match hold, s.inbox with
  | left + 1, .access a :: rest =>
    .next (hostAccess a { s with inbox := rest, seq := .busy cmdl left })
  | _ + 1, .resetInput :: rest => .next (applyReset { s with inbox := rest })
  | _ + 1, .wait :: _ => runCommand cmdl s
  | _ + 1, [] => runCommand cmdl s
  | 0, _ => runCommand cmdl s

/-- One step of the block and its host port. -/
def step (s : State) : Host.Outcome State Fault Refusal :=
  match s.seq with
  | .idle => .next (serveIdle s)
  | .busy cmdl hold => stepBusy cmdl hold s

/-- The block with the command word of an opcode-table row accepted (R220), about to run: the step that
follows runs it (log entry 8). -/
def State.withFetchWord (s : State) (nbits w : Nat) : State := accept (tableWord nbits w) 0 s

end Sys2Proof.Machine
end

