-- ==== Sys2Proof/Safety.lean ====
section
/-!
DEFINITION. The terms in which claims about the block are made: the conditions every reachable state
meets (10_state.md R49 and the forms of its registers, tables and buffers), the stream and the code
words of an input, and walks in the tree, each said without running a command.
-/

namespace Sys2Proof.Machine

/-- One aligned 32-bit host read at an offset of the block (R73). -/
def hostRead (off : Nat) (s : State) : State :=
  hostAccess { addr := s.params.hufBase + off, width := 4, op := .read } s

/-- One aligned 32-bit host write at an offset of the block (R73). -/
def hostWrite (off : Nat) (v : Word) (s : State) : State :=
  hostAccess { addr := s.params.hufBase + off, width := 4, op := .write v } s

/-- The reserved offsets (20_memory.md R75, R76). -/
def reservedOffset (off : Nat) : Bool :=
  (0x60 ≤ off && off < 0x400) || (0x800 ≤ off && off < 0x2000) ||
    (0x4400 ≤ off && off < 0x6000) || (0x8000 ≤ off && off < 0x100000)

/-- The offsets of the read-only regions TREE, CODE_LEN, CODE_BITS and SYM_OUT (20_memory.md R75). -/
def readOnlyOffset (off : Nat) : Bool :=
  (0x2000 ≤ off && off < 0x4400) || (0x6000 ≤ off && off < 0x8000) ||
    (0x300000 ≤ off && off < 0x400000)

/-- Every listed cell is below the capacity. -/
def Memory.within (cap : Nat) (m : Memory) : Bool := m.all (fun c => c.1 < cap)

/-- The buffers are canonical and hold nothing at or above their capacity (R50, R77). -/
def State.BuffersOk (s : State) : Prop :=
  ∀ b : BufferId, (s.buffer b).wf = true ∧ (s.buffer b).within (s.params.capacity b) = true

/-- The invariants of 10_state.md R49, numbered as there. -/
structure State.TablesConsistent (s : State) : Prop where
  /-- (1) -/
  tableNeedsTree : s.tableValid = true → s.treeValid = true
  /-- (2) TREE, NSYM and ROOT are what BUILD makes from the current FREQ. -/
  treeCurrent : s.treeValid = true →
    s.tree = (buildTree s.freq).tree ∧
      s.nsym = BitVec.ofNat 9 (buildTree s.freq).nsym ∧
      s.root = BitVec.ofNat 9 (buildTree s.freq).root ∧
      1 ≤ s.nsym.toNat ∧ s.root.toNat = 2 * s.nsym.toNat - 2
  /-- (3) CODE is what TABLE derives from the current TREE. -/
  tableCurrent : s.tableValid = true → s.code = deriveCode s.tree s.root
  /-- (4) -/
  treeNotEmpty : ¬ (s.treeValid = true ∧ s.empty = true)

/-- The form of a TREE record (R47): a leaf names no child, an internal node names no symbol. -/
def Node.formed (nd : Node) : Bool :=
  if nd.leaf then nd.left == 0 && nd.right == 0 else nd.sym == 0

/-- The form of a CODE entry (R48, R163): an entry without a code is all zero, a valid one is at least
one bit long, and every bit at a position `≥ LEN` is 0. -/
def CodeEntry.Formed (e : CodeEntry) : Prop :=
  (e.valid = false → e = CodeEntry.invalid) ∧ (e.valid = true → 1 ≤ e.len.toNat) ∧
    ∀ j, e.len.toNat ≤ j → e.bits.getLsbD j = false

/-- The forms of the registers and tables. -/
structure State.FormsOk (s : State) : Prop where
  /-- R36: the final byte of the stream is padded. -/
  encBytes : s.encBytes.toNat = (s.encBits.toNat + 7) / 8
  /-- R35: the stream fits BITS. -/
  encBits : s.encBits.toNat ≤ 8 * s.params.bitBufBytes
  /-- R38 -/
  outLen : s.outLen.toNat ≤ s.params.outCap
  /-- R40 -/
  nsym : s.nsym.toNat ≤ 256
  /-- R42: every bit of LK_BITS at a position `≥ LK_LEN` is zero. -/
  lkBits : ∀ (k : Fin 8) (j : Nat), j < 32 → s.lkLen.toNat ≤ 32 * k.val + j →
    (s.lkBits[k.val]).getLsbD j = false
  /-- R47 -/
  tree : ∀ i : NodeIdx, (nodeAt s.tree i).formed = true
  /-- R48 -/
  code : ∀ a : Sym, (entryOf s.code a).Formed

/-- The report of the last command: cleared while one runs (R220), and ERR_INFO is 0 where there is no
error (R39, R240). -/
structure State.ReportOk (s : State) : Prop where
  busyClears : s.isBusy = true → s.done = false ∧ s.errCode = .none ∧ s.errInfo = 0
  noErrorNoInfo : s.errCode = .none → s.errInfo = 0

/-- What every state a run reaches meets. -/
structure State.Inv (s : State) : Prop where
  params : s.params.legal = true
  buffers : s.BuffersOk
  tables : s.TablesConsistent
  forms : s.FormsOk
  report : s.ReportOk

/-- Node `j` was in the queue when node `i` was made (R140, R143): it was made before, and no node made
before has it as a child. -/
def inQueueAt (tree : Vector Node 511) (i j : NodeIdx) : Prop :=
  j.toNat < i.toNat ∧ ∀ k : NodeIdx, k.toNat < i.toNat → (nodeAt tree k).leaf = false →
    (nodeAt tree k).left ≠ j ∧ (nodeAt tree k).right ≠ j

/-- `(WEIGHT, node index)` of `i` is at most that of `j` (R142). -/
def queuesNoLater (tree : Vector Node 511) (i j : NodeIdx) : Prop :=
  (nodeAt tree i).weight.toNat < (nodeAt tree j).weight.toNat ∨
    ((nodeAt tree i).weight.toNat = (nodeAt tree j).weight.toNat ∧ i.toNat ≤ j.toNat)

/-- How often a symbol occurs in the input (R131). -/
def State.occurrences (s : State) (a : Sym) : Nat := s.inputSymbols.count a

/-- The FREQ entries below a symbol that are not zero (R141). -/
def nonzeroBelow (freq : Vector Word 256) (n : Nat) : Nat :=
  ((List.range n).filter fun a => entryOf freq (BitVec.ofNat 8 a) != 0).length

/-- How many symbols have a nonzero count (R40). -/
def distinctSymbols (freq : Vector Word 256) : Nat := nonzeroBelow freq 256

/-- The sum of all 256 FREQ entries (R132, R147). -/
def freqTotal (freq : Vector Word 256) : Nat :=
  ((List.range 256).map fun a => (entryOf freq (BitVec.ofNat 8 a)).toNat).sum

/-- The code table of a frequency table (R149, R166). -/
def codeOf (freq : Vector Word 256) : Vector CodeEntry 256 :=
  deriveCode (buildTree freq).tree (BitVec.ofNat 9 (buildTree freq).root)

/-- The STREAM format (30_encoding.md R102): the code words of the input, one after the other. -/
def streamOf (code : Vector CodeEntry 256) (input : List Sym) : List Bool :=
  (input.map fun a => (entryOf code a).word).flatten

/-- Every symbol of the input has a code word. -/
def allCoded (code : Vector CodeEntry 256) (input : List Sym) : Bool :=
  input.all fun a => (entryOf code a).valid

/-- The child of a node on a bit: 0 = left, 1 = right (R101). -/
def childOf (tree : Vector Node 511) (i : NodeIdx) (b : Bool) : NodeIdx :=
  if b then (nodeAt tree i).right else (nodeAt tree i).left

/-- The bits `c` lead from node `i` over internal nodes to the leaf of `a` (R101, R161). -/
def leadsToLeaf (tree : Vector Node 511) : NodeIdx → List Bool → Sym → Bool
  | i, [], a => (nodeAt tree i).leaf && (nodeAt tree i).sym == a
  | i, b :: c, a => !(nodeAt tree i).leaf && leadsToLeaf tree (childOf tree i b) c a

/-- The bits `c` lead from node `i` over internal nodes to an internal node. -/
def staysInside (tree : Vector Node 511) : NodeIdx → List Bool → Bool
  | i, [] => !(nodeAt tree i).leaf
  | i, b :: c => !(nodeAt tree i).leaf && staysInside tree (childOf tree i b) c

/-- The bits `c` are what the decoder reads for the symbol `a`: its path, or, in a one-leaf tree, any
one bit (R202). -/
def readsAs (tree : Vector Node 511) (root : NodeIdx) (c : List Bool) (a : Sym) : Bool :=
  if (nodeAt tree root).leaf then c.length == 1 && (nodeAt tree root).sym == a
  else leadsToLeaf tree root c a

/-- `words` are, one by one, what the decoder reads for `symbols`. -/
def readAs (tree : Vector Node 511) (root : NodeIdx) (words : List (List Bool))
    (symbols : List Sym) : Bool :=
  words.length == symbols.length &&
    (words.zip symbols).all fun p => readsAs tree root p.1 p.2

end Sys2Proof.Machine
end

