-- ==== Sys2Proof/Certificates/Slice0/Obligations.lean ====
section
/-!
DEFINITION. The statements for the provers. A state reached by acceptance is any state: `exec` and
`step` are stated over every state, with the hypotheses each rule needs.
-/

open Sys2Proof Sys2Proof.Machine

/-! ## Command words -/

/-- 30_encoding.md sections 1 and 3 (R100, R104, R106): decoding the command word of a command gives the
command back, for all nine and every SYM. -/
def Obligations.DecodeOfEncodeIsTheCommand : Prop :=
  ∀ i : Instr, decode (encode i) = .instr i

/-- 30_encoding.md section 4 (R108): a word that decodes is the one command word of its command, so a
command other than LOOKUP has exactly one legal word and LOOKUP one for each symbol. -/
def Obligations.LegalWordIsItsCommandsWord : Prop :=
  ∀ (w : Word) (i : Instr), decode w = .instr i → encode i = w

/-- 30_encoding.md sections 1 and 3: the opcode map's command words, written out. -/
def Obligations.OpcodeMapWordsDecode : Prop :=
  decode 0x00000000#32 = .instr .nop ∧ decode 0x00000001#32 = .instr .count ∧
    decode 0x00000002#32 = .instr .build ∧ decode 0x00000003#32 = .instr .table ∧
    decode 0x00000004#32 = .instr .encode ∧ decode 0x00000005#32 = .instr .decode ∧
    decode 0x00000006#32 = .instr .compress ∧ decode 0x00006107#32 = .instr (.lookup 0x61#8) ∧
    decode 0x0000FF07#32 = .instr (.lookup 0xFF#8) ∧ decode 0x00000008#32 = .instr .clear

/-- 60_exceptions.md section 1 (R241): an accepted command word with a reserved OP, a nonzero RSV0 or RSV1, or a nonzero SYM with an
OP other than `0x7` completes with ILLEGAL_CMD and ERR_INFO 0, and changes nothing else. As for any other
word, it completes when no host event is let pass first, none is left, or the host waits (the model's
choice, log entry 5). -/
def Obligations.IllegalWordReportsIllegalCmd : Prop :=
  ∀ (s : State) (w : Word) (hold : Nat), s.seq = .busy w hold →
    (hold = 0 ∨ s.inbox = [] ∨ ∃ rest, s.inbox = .wait :: rest) →
    8 < (w.extractLsb' 0 4).toNat ∨ w.extractLsb' 4 4 ≠ 0#4 ∨ w.extractLsb' 16 16 ≠ 0#16 ∨
      (w.extractLsb' 8 8 ≠ 0#8 ∧ w.extractLsb' 0 4 ≠ 7#4) →
    step s = .next
      { s with errCode := .illegalCmd, errInfo := 0, seq := .idle, done := true }

/-! ## The sequencer -/

/-- 45_control.md section 1 (R221, R290): a busy block whose latched word decodes runs that command as
soon as nothing holds it: no host event is let pass first, none is left, or the host waits. While
something holds it, the step is the host's next access. What holds it is the model's choice (log entry 5);
the third clause says what the acceptance of a table word leads to (log entry 8). An idle block serves the
host's next access (20_memory.md R80); a WAIT reads STATUS, which shows BUSY = 0 (30_encoding.md R113); and
with nothing to serve the block stays as it is (70_reset_and_hazards.md R274). -/
def Obligations.StepRunsTheLatchedCommand : Prop :=
  (∀ (s : State) (w : Word) (hold : Nat) (i : Instr), s.seq = .busy w hold →
    decode w = .instr i →
    (hold = 0 ∨ s.inbox = [] ∨ ∃ rest, s.inbox = .wait :: rest) → step s = exec i s) ∧
  (∀ (s : State) (w : Word) (left : Nat) (a : Access) (rest : List HostEvent),
    s.seq = .busy w (left + 1) → s.inbox = .access a :: rest →
    step s = .next (hostAccess a { s with inbox := rest, seq := .busy w left })) ∧
  (∀ (s : State) (nbits w : Nat), step (s.withFetchWord nbits w) =
    runCommand (BitVec.ofNat 32 (w % 2 ^ nbits)) (s.withFetchWord nbits w)) ∧
  (∀ (s : State) (a : Access) (rest : List HostEvent), s.seq = .idle → s.inbox = .access a :: rest →
    step s = .next (hostAccess a { s with inbox := rest })) ∧
  (∀ (s : State) (rest : List HostEvent), s.seq = .idle → s.inbox = .wait :: rest →
    ∃ v : Word, step s = .next { s with inbox := rest, resp := some (.readOk v), draws := s.draws + 1 } ∧
      hostRead 0x008 { s with inbox := rest } =
        { s with inbox := rest, resp := some (.readOk v), draws := s.draws + 1 } ∧
      v.getLsbD 0 = false) ∧
  ∀ s : State, s.seq = .idle → s.inbox = [] → step s = .next s

/-- R220: a host write to CMD (offset `0x00C`) is accepted while the block is idle, and only sets OVERRUN
while it is busy. The number of host events the command will let pass is a free value (log
entry 5). -/
def Obligations.CmdWriteIsAcceptedOnlyWhileIdle : Prop :=
  ∀ (s : State) (v : Word),
    (s.seq = .idle → ∃ hold : Nat,
      hostWrite 0x00C v s =
        { s with
          seq := .busy v hold
          done := false
          errCode := .none
          errInfo := 0
          resp := some .writeOk
          draws := s.draws + 1 }) ∧
    (∀ (w : Word) (hold : Nat), s.seq = .busy w hold →
      hostWrite 0x00C v s =
        { s with overrun := true, resp := some .writeOk })

/-- 45_control.md section 1 (R222, R223), 60_exceptions.md section 2 (R250): every command, from every
state, completes: the sequencer is idle, DONE is set, and IRQ is the interrupt enable. No command touches
CTRL, OVERRUN, SYM_IN or what the host still has to do. -/
def Obligations.EveryCommandCompletes : Prop :=
  ∀ (i : Instr) (s : State), ∃ t, exec i s = .next t ∧ t.seq = .idle ∧ t.done = true ∧
    t.irq = s.ie ∧ t.ie = s.ie ∧ t.overrun = s.overrun ∧ t.params = s.params ∧
    t.symIn = s.symIn ∧ t.resp = s.resp ∧ t.inbox = s.inbox ∧ t.draws = s.draws

/-- 70_reset_and_hazards.md section 4 (R290): a busy block becomes idle within one step more than the
number of host events it lets pass, whatever those are. That number is the model's way to say "any number
(zero or more) of host accesses" (log entry 5). -/
def Obligations.BusyBlockCompletesInBoundedSteps : Prop :=
  ∀ (s : State) (w : Word) (hold : Nat), s.seq = .busy w hold →
    ∃ k, k ≤ hold + 1 ∧ ∃ t, Sys2Proof.core.run k s = .next t ∧ State.seq t = .idle

/-- 70_reset_and_hazards.md section 3 (R280), 20_memory.md section 5 (R81): no host access changes what a
running command reads or writes: while busy an access changes at most CTRL, DONE, OVERRUN and the
response. -/
def Obligations.BusyAccessKeepsTheCommandsState : Prop :=
  ∀ (s : State) (a : Access) (w : Word) (hold : Nat), s.seq = .busy w hold →
    ∃ (ie done overrun : Bool) (resp : Option BusResp) (draws : Nat),
      hostAccess a s =
        { s with ie := ie, done := done, overrun := overrun, resp := resp, draws := draws }

/-! ## NOP, CLEAR -/

/-- 45_control.md section 2 (R224): NOP only completes. -/
def Obligations.NopOnlyCompletes : Prop :=
  ∀ s : State,
    exec .nop s = .next { s with errCode := .none, seq := .idle, done := true }

/-- 45_control.md section 2 (R225), 70_reset_and_hazards.md section 2 (R276): CLEAR leaves the state a
reset leaves, up to CTRL, OVERRUN, DONE (1), the buffers, ERR_INFO as acceptance left it, and the model's
own fields. -/
def Obligations.ClearLeavesTheResetState : Prop :=
  ∀ s : State,
    exec .clear s = .next
      { State.resetWith s.params with
        ie := s.ie
        overrun := s.overrun
        done := true
        errInfo := s.errInfo
        symIn := s.symIn
        bits := s.bits
        symOut := s.symOut
        resp := s.resp
        inbox := s.inbox
        draws := s.draws }

/-! ## COUNT -/

/-- 40_frequency_count.md (R130, R131): where IN_LEN is in range, COUNT leaves in each FREQ entry the
number of positions of the input that hold its symbol, clears the three flags, and changes nothing
else. -/
def Obligations.CountTalliesTheInput : Prop :=
  ∀ s : State, s.inLen.toNat ≤ s.params.maxSyms →
    ∃ t, exec .count s = .next t ∧
      (∀ a : Sym, entryOf t.freq a = BitVec.ofNat 32
        ((List.range s.inLen.toNat).filter fun i => s.symIn.read i == a).length) ∧
      t = { s with
        freq := t.freq
        treeValid := false
        tableValid := false
        empty := false
        errCode := .none
        seq := .idle
        done := true }

/-- 40_frequency_count.md (R132): after COUNT no entry exceeds IN_LEN and the 256 entries sum to it. -/
def Obligations.CountedEntriesSumToInputLength : Prop :=
  ∀ s t : State, s.params.legal = true → s.inLen.toNat ≤ s.params.maxSyms →
    exec .count s = .next t →
    freqTotal t.freq = s.inLen.toNat ∧ ∀ a : Sym, (entryOf t.freq a).toNat ≤ s.inLen.toNat

/-- R242: a length operand beyond its buffer ends the command with RANGE and ERR_INFO 0 before any
write. -/
def Obligations.RangeErrorChangesNothing : Prop :=
  (∀ (s : State) (i : Instr), s.params.maxSyms < s.inLen.toNat →
    i = .count ∨ i = .encode ∨ i = .compress →
    exec i s = .next { s with errCode := .range, errInfo := 0, seq := .idle, done := true }) ∧
  ∀ s : State, 8 * s.params.bitBufBytes < s.decBits.toNat →
    exec .decode s = .next { s with errCode := .range, errInfo := 0, seq := .idle, done := true }

/-! ## BUILD -/

/-- 41_priority_queue_merge.md (R140, R146): BUILD always completes without error; NSYM is the number `n`
of nonzero FREQ entries, ROOT is `2n - 2` (0 for an empty table), every CODE entry is invalid, TREE_VALID
and EMPTY say whether a symbol was found, and nothing else changes. Records from `2n - 1` on are zero. -/
def Obligations.BuildNumbersAndFlags : Prop :=
  ∀ s : State, ∃ t, exec .build s = .next t ∧
    t = { s with
      tree := t.tree
      nsym := BitVec.ofNat 9 (distinctSymbols s.freq)
      root := BitVec.ofNat 9 (2 * distinctSymbols s.freq - 2)
      code := Vector.replicate 256 CodeEntry.invalid
      treeValid := distinctSymbols s.freq != 0
      empty := distinctSymbols s.freq == 0
      tableValid := false
      errCode := .none
      seq := .idle
      done := true } ∧
    ∀ i : NodeIdx, 2 * distinctSymbols s.freq - 1 ≤ i.toNat → nodeAt t.tree i = Node.zero

/-- R145: with every FREQ entry zero, BUILD leaves every TREE record zero, NSYM = 0, ROOT = 0,
TREE_VALID = 0 and EMPTY = 1, and completes without error. -/
def Obligations.BuildOfEmptyTableMakesNoTree : Prop :=
  ∀ s : State, (∀ a : Sym, entryOf s.freq a = 0) →
    exec .build s = .next
      { s with
        tree := Vector.replicate 511 Node.zero
        nsym := 0
        root := 0
        code := Vector.replicate 256 CodeEntry.invalid
        treeValid := false
        empty := true
        tableValid := false
        errCode := .none
        seq := .idle
        done := true }

/-- R144: with one distinct symbol the single leaf, node 0, is the root, and TABLE gives it the code word
`"0"`. -/
def Obligations.BuildOfOneSymbolMakesOneLeaf : Prop :=
  ∀ (s : State) (a : Sym), entryOf s.freq a ≠ 0 →
    (∀ b : Sym, b ≠ a → entryOf s.freq b = 0) →
    ∃ t, exec .build s = .next t ∧ t.root = 0 ∧ t.nsym = 1 ∧ t.treeValid = true ∧
      nodeAt t.tree 0 = { weight := (entryOf s.freq a).setWidth 40, leaf := true, sym := a,
                          left := 0, right := 0 } ∧
      (∀ i : NodeIdx, i ≠ 0 → nodeAt t.tree i = Node.zero) ∧
      ∃ u, exec .table t = .next u ∧ entryOf u.code a = { valid := true, len := 1, bits := 0 }

/-- R141: each symbol with a nonzero count has one leaf, whose node index is the number of smaller
symbols with a nonzero count and whose weight is the count. -/
def Obligations.BuildMakesLeavesInSymbolOrder : Prop :=
  ∀ s t : State, exec .build s = .next t →
    (∀ a : Sym, entryOf s.freq a ≠ 0 →
      nodeAt t.tree (BitVec.ofNat 9 (nonzeroBelow s.freq a.toNat)) =
        { weight := (entryOf s.freq a).setWidth 40, leaf := true, sym := a, left := 0, right := 0 }) ∧
    ∀ i : NodeIdx, distinctSymbols s.freq ≤ i.toNat → (nodeAt t.tree i).leaf = false

/-- 41_priority_queue_merge.md (R142, R143): one merge removes the node with the least (WEIGHT, node
index), then the least of the rest; the first becomes the left child and the second the right child of a
new internal node whose weight is the sum; PQ loses the two and gains the new node. So in the tree BUILD
leaves, the left child of each internal node is the least, and the right child the least of the rest, of
the nodes that were in the queue when it was made. -/
def Obligations.MergeTakesTheTwoLightest : Prop :=
  (∀ q : MergeQueue, q.pq.Nodup → (∀ i ∈ q.pq, i < q.made.length) → 1 < q.pq.length →
    ∃ t1 t2 : Nat, t1 ∈ q.pq ∧ t2 ∈ q.pq ∧ t1 ≠ t2 ∧
      (∀ j ∈ q.pq, weightOf q.made t1 < weightOf q.made j ∨
        (weightOf q.made t1 = weightOf q.made j ∧ t1 ≤ j)) ∧
      (∀ j ∈ q.pq, j ≠ t1 → weightOf q.made t2 < weightOf q.made j ∨
        (weightOf q.made t2 = weightOf q.made j ∧ t2 ≤ j)) ∧
      (mergeOnce q).made = q.made ++
        [{ weight := (q.made.getD t1 Node.zero).weight + (q.made.getD t2 Node.zero).weight
           leaf := false, sym := 0, left := BitVec.ofNat 9 t1, right := BitVec.ofNat 9 t2 }] ∧
      ∀ j, j ∈ (mergeOnce q).pq ↔ (j ∈ q.pq ∧ j ≠ t1 ∧ j ≠ t2) ∨ j = q.made.length) ∧
  ∀ s t : State, exec .build s = .next t → ∀ i : NodeIdx, i.toNat ≤ t.root.toNat →
    distinctSymbols s.freq ≤ i.toNat → 1 ≤ distinctSymbols s.freq →
    inQueueAt t.tree i (nodeAt t.tree i).left ∧ inQueueAt t.tree i (nodeAt t.tree i).right ∧
      (nodeAt t.tree i).left ≠ (nodeAt t.tree i).right ∧
      (∀ j : NodeIdx, inQueueAt t.tree i j → queuesNoLater t.tree (nodeAt t.tree i).left j) ∧
      ∀ j : NodeIdx, inQueueAt t.tree i j → j ≠ (nodeAt t.tree i).left →
        queuesNoLater t.tree (nodeAt t.tree i).right j

/-- 41_priority_queue_merge.md (R147), 00_scope.md (R9): after BUILD every internal node's weight is the
sum of its children's, every leaf's is its symbol's FREQ entry, and the root's is the sum of all FREQ
entries, as numbers: no weight wraps. -/
def Obligations.TreeWeightsAreSums : Prop :=
  ∀ s t : State, exec .build s = .next t → 1 ≤ distinctSymbols s.freq →
    (∀ i : NodeIdx, i.toNat < 2 * distinctSymbols s.freq - 1 →
      if (nodeAt t.tree i).leaf then
        (nodeAt t.tree i).weight.toNat = (entryOf s.freq (nodeAt t.tree i).sym).toNat
      else
        (nodeAt t.tree i).weight.toNat =
          (nodeAt t.tree (nodeAt t.tree i).left).weight.toNat +
            (nodeAt t.tree (nodeAt t.tree i).right).weight.toNat) ∧
    (nodeAt t.tree t.root).weight.toNat = freqTotal s.freq

/-- 41_priority_queue_merge.md (R148): the tree is a strict binary tree rooted at ROOT. Children have
smaller indices than their parent, so there is no cycle; the two children of an internal node differ;
and each node but the root is the child of exactly one node. -/
def Obligations.TreeIsAStrictBinaryTree : Prop :=
  ∀ s t : State, exec .build s = .next t → 1 ≤ distinctSymbols s.freq →
    (∀ i : NodeIdx, i.toNat ≤ t.root.toNat →
      ((nodeAt t.tree i).leaf = true ↔ i.toNat < distinctSymbols s.freq) ∧
      ((nodeAt t.tree i).leaf = false →
        (nodeAt t.tree i).left.toNat < i.toNat ∧ (nodeAt t.tree i).right.toNat < i.toNat ∧
          (nodeAt t.tree i).left ≠ (nodeAt t.tree i).right)) ∧
    ∀ j : NodeIdx, j.toNat < t.root.toNat →
      ∃ i : NodeIdx, (i.toNat ≤ t.root.toNat ∧ (nodeAt t.tree i).leaf = false ∧
        ((nodeAt t.tree i).left = j ∨ (nodeAt t.tree i).right = j)) ∧
        ∀ i' : NodeIdx, i'.toNat ≤ t.root.toNat → (nodeAt t.tree i').leaf = false →
          (nodeAt t.tree i').left = j ∨ (nodeAt t.tree i').right = j → i' = i

/-! ## TABLE, LOOKUP -/

/-- 42_code_table.md (R160 to R162): with a tree, TABLE writes CODE and TABLE_VALID and changes nothing
else. A symbol with no count gets an invalid entry. A symbol with a count gets a valid entry, whose code
word is `"0"` in a one-leaf tree and otherwise the path from the root to its leaf. -/
def Obligations.TableGivesPathsToLeaves : Prop :=
  ∀ s : State, s.treeValid = true → s.TablesConsistent →
    ∃ t, exec .table s = .next t ∧
      t = { s with code := t.code, tableValid := true, errCode := .none, seq := .idle,
                   done := true } ∧
      ∀ a : Sym,
        (entryOf s.freq a = 0 → entryOf t.code a = CodeEntry.invalid) ∧
        (entryOf s.freq a ≠ 0 →
          (entryOf t.code a).valid = true ∧
            if (nodeAt s.tree s.root).leaf then (entryOf t.code a).word = [false]
            else leadsToLeaf s.tree s.root (entryOf t.code a).word a = true)

/-- R243: TABLE with TREE_VALID = 0, and DECODE with DEC_BITS > 0 (in range) and TREE_VALID = 0, raise
NO_TREE with ERR_INFO 0 before any write. -/
def Obligations.NoTreeErrorChangesNothing : Prop :=
  (∀ s : State, s.treeValid = false →
    exec .table s = .next { s with errCode := .noTree, errInfo := 0, seq := .idle, done := true }) ∧
  ∀ s : State, s.treeValid = false → 0 < s.decBits.toNat →
    s.decBits.toNat ≤ 8 * s.params.bitBufBytes →
    exec .decode s = .next { s with errCode := .noTree, errInfo := 0, seq := .idle, done := true }

/-- 42_code_table.md (R163): after TABLE every valid code word is 1 to 255 bits long, and its entry holds
no other bit. -/
def Obligations.CodeWordsAreOneTo255Bits : Prop :=
  ∀ s t : State, exec .table s = .next t → s.treeValid = true →
    ∀ a : Sym, (entryOf t.code a).valid = true →
      1 ≤ (entryOf t.code a).len.toNat ∧ (entryOf t.code a).len.toNat ≤ 255 ∧
        ∀ j, (entryOf t.code a).len.toNat ≤ j → (entryOf t.code a).bits.getLsbD j = false

/-- 42_code_table.md (R165): no valid code word is a prefix of another symbol's. -/
def Obligations.CodeWordsArePrefixFree : Prop :=
  ∀ s : State, s.TablesConsistent → s.tableValid = true →
    ∀ a b : Sym, a ≠ b → (entryOf s.code a).valid = true → (entryOf s.code b).valid = true →
      ¬ (entryOf s.code a).word <+: (entryOf s.code b).word

/-- 42_code_table.md (R164), 10_state.md section 4 (R42): LOOKUP of a symbol with a code word writes its
length to LK_LEN and bit `32k + j` of its bits to bit `j` of LK_BITSk, and changes nothing else. -/
def Obligations.LookupReturnsTheEntry : Prop :=
  ∀ (s : State) (a : Sym), s.tableValid = true → (entryOf s.code a).valid = true →
    ∃ t, exec (.lookup a) s = .next t ∧
      t = { s with lkLen := (entryOf s.code a).len, lkBits := t.lkBits, errCode := .none,
                   seq := .idle, done := true } ∧
      ∀ (k : Fin 8) (j : Nat), j < 32 →
        (t.lkBits[k.val]).getLsbD j = (entryOf s.code a).bits.getLsbD (32 * k.val + j)

/-- R244: ENCODE with IN_LEN > 0 (in range) and TABLE_VALID = 0, and LOOKUP with TABLE_VALID = 0, raise
NO_TABLE with ERR_INFO 0 before any write. -/
def Obligations.NoTableErrorChangesNothing : Prop :=
  (∀ s : State, s.tableValid = false → 0 < s.inLen.toNat → s.inLen.toNat ≤ s.params.maxSyms →
    exec .encode s =
      .next { s with errCode := .noTable, errInfo := 0, seq := .idle, done := true }) ∧
  ∀ (s : State) (a : Sym), s.tableValid = false →
    exec (.lookup a) s =
      .next { s with errCode := .noTable, errInfo := 0, seq := .idle, done := true }

/-- 42_code_table.md (R164), 60_exceptions.md section 1 (R245): LOOKUP of a symbol with no code word
zeroes LK_LEN and LK_BITS and raises LOOKUP_FAIL with ERR_INFO the symbol. -/
def Obligations.LookupOfUnknownSymbolFails : Prop :=
  ∀ (s : State) (a : Sym), s.tableValid = true → (entryOf s.code a).valid = false →
    exec (.lookup a) s = .next
      { s with
        lkLen := 0
        lkBits := Vector.replicate 8 0
        errCode := .lookupFail
        errInfo := BitVec.ofNat 32 a.toNat
        seq := .idle
        done := true }

/-! ## ENCODE -/

/-- R186: `IN_LEN = 0` gives the empty stream, whether or not a code table is valid. -/
def Obligations.EncodeOfEmptyInput : Prop :=
  ∀ s : State, s.inLen = 0 →
    exec .encode s = .next
      { s with encBits := 0, encBytes := 0, decBits := 0, errCode := .none, seq := .idle,
               done := true }

/-- 43_encoder.md (R182, R188), 30_encoding.md (R102), 20_memory.md (R71): where every input symbol has a
code word and the stream fits BITS, ENCODE packs the concatenation of the code words into BITS from byte
0, completes the final byte with 0 bits, leaves every byte at or above ENC_BYTES alone, and changes
nothing else. -/
def Obligations.EncodeWritesTheStream : Prop :=
  ∀ s : State, s.bits.wf = true → 0 < s.inLen.toNat →
    s.inLen.toNat ≤ s.params.maxSyms → s.tableValid = true →
    allCoded s.code s.inputSymbols = true →
    (streamOf s.code s.inputSymbols).length ≤ 8 * s.params.bitBufBytes →
    ∃ t, exec .encode s = .next t ∧
      t = { s with
        bits := t.bits
        encBits := BitVec.ofNat 32 (streamOf s.code s.inputSymbols).length
        encBytes := BitVec.ofNat 32 (((streamOf s.code s.inputSymbols).length + 7) / 8)
        decBits := BitVec.ofNat 32 (streamOf s.code s.inputSymbols).length
        errCode := .none
        seq := .idle
        done := true } ∧
      (∀ k, k < 8 * (((streamOf s.code s.inputSymbols).length + 7) / 8) →
        streamBit t.bits k = (streamOf s.code s.inputSymbols).getD k false) ∧
      ∀ a, ((streamOf s.code s.inputSymbols).length + 7) / 8 ≤ a →
        t.bits.read a = s.bits.read a

/-- 43_encoder.md (R183, R185): ENCODE stops at the first input symbol with no code word, at position
`before.length`: the code words of the symbols before it are in BITS, padded, with the counts written,
and LOOKUP_FAIL reports the position. -/
def Obligations.EncodeStopsAtUnknownSymbol : Prop :=
  ∀ (s : State) (before rest : List Sym) (a : Sym), s.bits.wf = true →
    s.inLen.toNat ≤ s.params.maxSyms → s.tableValid = true →
    s.inputSymbols = before ++ a :: rest → allCoded s.code before = true →
    (entryOf s.code a).valid = false →
    (streamOf s.code before).length ≤ 8 * s.params.bitBufBytes →
    ∃ t, exec .encode s = .next t ∧
      t = { s with
        bits := t.bits
        encBits := BitVec.ofNat 32 (streamOf s.code before).length
        encBytes := BitVec.ofNat 32 (((streamOf s.code before).length + 7) / 8)
        decBits := BitVec.ofNat 32 (streamOf s.code before).length
        errCode := .lookupFail
        errInfo := BitVec.ofNat 32 before.length
        seq := .idle
        done := true } ∧
      (∀ k, k < 8 * (((streamOf s.code before).length + 7) / 8) →
        streamBit t.bits k = (streamOf s.code before).getD k false) ∧
      ∀ b, ((streamOf s.code before).length + 7) / 8 ≤ b → t.bits.read b = s.bits.read b

/-- R184: ENCODE stops before writing stream bit number `8 × BIT_BUF_BYTES`; every bit before it is
written, ENC_BITS = `8 × BIT_BUF_BYTES`, and ERR_INFO is the position of the symbol whose bit did not
fit. -/
def Obligations.EncodeStopsWhenBitsIsFull : Prop :=
  ∀ (s : State) (before rest : List Sym) (a : Sym), s.bits.wf = true →
    s.inLen.toNat ≤ s.params.maxSyms → s.tableValid = true →
    s.inputSymbols = before ++ a :: rest → allCoded s.code (before ++ [a]) = true →
    (streamOf s.code before).length ≤ 8 * s.params.bitBufBytes →
    8 * s.params.bitBufBytes < (streamOf s.code (before ++ [a])).length →
    ∃ t, exec .encode s = .next t ∧
      t = { s with
        bits := t.bits
        encBits := BitVec.ofNat 32 (8 * s.params.bitBufBytes)
        encBytes := BitVec.ofNat 32 s.params.bitBufBytes
        decBits := BitVec.ofNat 32 (8 * s.params.bitBufBytes)
        errCode := .overflow
        errInfo := BitVec.ofNat 32 before.length
        seq := .idle
        done := true } ∧
      (∀ k, k < 8 * s.params.bitBufBytes →
        streamBit t.bits k = (streamOf s.code (before ++ [a])).getD k false) ∧
      ∀ b, s.params.bitBufBytes ≤ b → t.bits.read b = s.bits.read b

/-! ## DECODE -/

/-- R205: `DEC_BITS = 0` completes without error with OUT_LEN = 0 and reads no tree; a nonempty stream
(in range) with `TREE_VALID = 0` raises NO_TREE. -/
def Obligations.DecodeOfEmptyStream : Prop :=
  (∀ s : State, s.decBits = 0 →
    exec .decode s =
      .next { s with outLen := 0, errCode := .none, seq := .idle, done := true }) ∧
  ∀ s : State, s.decBits ≠ 0 → s.decBits.toNat ≤ 8 * s.params.bitBufBytes → s.treeValid = false →
    exec .decode s = .next { s with errCode := .noTree, errInfo := 0, seq := .idle, done := true }

/-- 44_decoder.md (R201 to R203): a stream that is the words of `symbols`, one after the other, and then
the bits `cut` of a word it does not finish, decodes to `symbols`: they are in SYM_OUT from byte 0,
OUT_LEN is their number, every other byte keeps its value, and the end is TRUNCATED, with ERR_INFO the
bit where the cut word began, exactly where `cut` is not empty. -/
def Obligations.DecodeWritesTheSymbols : Prop :=
  ∀ (s : State) (words : List (List Bool)) (symbols : List Sym) (cut : List Bool),
    s.symOut.wf = true → s.TablesConsistent → s.treeValid = true →
    0 < s.decBits.toNat → s.decBits.toNat ≤ 8 * s.params.bitBufBytes →
    s.streamBits = words.flatten ++ cut → readAs s.tree s.root words symbols = true →
    (cut = [] ∨ staysInside s.tree s.root cut = true) → symbols.length ≤ s.params.outCap →
    ∃ t, exec .decode s = .next t ∧
      t = { s with
        symOut := t.symOut
        outLen := BitVec.ofNat 32 symbols.length
        errCode := if cut = [] then .none else .truncated
        errInfo := if cut = [] then s.errInfo else BitVec.ofNat 32 words.flatten.length
        seq := .idle
        done := true } ∧
      (∀ i, i < symbols.length → t.symOut.read i = symbols.getD i 0) ∧
      ∀ i, symbols.length ≤ i → t.symOut.read i = s.symOut.read i

/-- R204: DECODE stops when a code word is complete and SYM_OUT already holds OUT_CAP symbols: nothing of
that symbol is written, OUT_LEN = OUT_CAP and ERR_INFO is the stream bit that completed it. -/
def Obligations.DecodeStopsWhenOutputIsFull : Prop :=
  ∀ (s : State) (words : List (List Bool)) (symbols : List Sym) (word more : List Bool) (a : Sym),
    s.symOut.wf = true → s.treeValid = true →
    s.decBits.toNat ≤ 8 * s.params.bitBufBytes →
    s.streamBits = words.flatten ++ word ++ more → readAs s.tree s.root words symbols = true →
    readsAs s.tree s.root word a = true → symbols.length = s.params.outCap →
    ∃ t, exec .decode s = .next t ∧
      t = { s with
        symOut := t.symOut
        outLen := BitVec.ofNat 32 s.params.outCap
        errCode := .overflow
        errInfo := BitVec.ofNat 32 (words.flatten.length + word.length - 1)
        seq := .idle
        done := true } ∧
      (∀ i, i < symbols.length → t.symOut.read i = symbols.getD i 0) ∧
      ∀ i, symbols.length ≤ i → t.symOut.read i = s.symOut.read i

/-- 44_decoder.md (R202): in a one-leaf tree every stream bit, 0 or 1, emits the leaf's symbol. -/
def Obligations.OneLeafTreeEmitsASymbolPerBit : Prop :=
  ∀ s : State, s.symOut.wf = true → s.treeValid = true →
    (nodeAt s.tree s.root).leaf = true → s.decBits.toNat ≤ 8 * s.params.bitBufBytes →
    s.decBits.toNat ≤ s.params.outCap →
    ∃ t, exec .decode s = .next t ∧
      t = { s with symOut := t.symOut, outLen := s.decBits, errCode := .none, seq := .idle,
                   done := true } ∧
      (∀ i, i < s.decBits.toNat → t.symOut.read i = (nodeAt s.tree s.root).sym) ∧
      ∀ i, s.decBits.toNat ≤ i → t.symOut.read i = s.symOut.read i

/-- 44_decoder.md (R201, R203, R204), 60_exceptions.md (R256): DECODE, however it ends, changes only
SYM_OUT, OUT_LEN and its report; no byte at or above OUT_CAP changes, nor, unless it ended with RANGE or
NO_TREE, any byte at or above OUT_LEN; with RANGE or NO_TREE no byte changes at all. -/
def Obligations.DecodeChangesOnlyItsResults : Prop :=
  ∀ s : State, s.params.legal = true → s.symOut.wf = true →
    ∃ t, exec .decode s = .next t ∧
      t = { s with symOut := t.symOut, outLen := t.outLen, errCode := t.errCode,
                   errInfo := t.errInfo, seq := .idle, done := true } ∧
      (∀ i, s.params.outCap ≤ i → t.symOut.read i = s.symOut.read i) ∧
      if t.errCode = .range ∨ t.errCode = .noTree then
        t.symOut = s.symOut ∧ t.outLen = s.outLen
      else
        t.outLen.toNat ≤ s.params.outCap ∧
          ∀ i, t.outLen.toNat ≤ i → t.symOut.read i = s.symOut.read i

/-- 30_encoding.md section 5 (R110, R111): with a tree that BUILD made, every bit string splits in
exactly one way into words the decoder reads and a cut that finishes no word. -/
def Obligations.EveryStreamSplitsInOneWay : Prop :=
  ∀ s : State, s.TablesConsistent → s.treeValid = true → ∀ stream : List Bool,
    ∃ (words : List (List Bool)) (symbols : List Sym) (cut : List Bool),
      (stream = words.flatten ++ cut ∧ readAs s.tree s.root words symbols = true ∧
        (cut = [] ∨ staysInside s.tree s.root cut = true)) ∧
      ∀ (words' : List (List Bool)) (symbols' : List Sym) (cut' : List Bool),
        stream = words'.flatten ++ cut' → readAs s.tree s.root words' symbols' = true →
        (cut' = [] ∨ staysInside s.tree s.root cut' = true) →
        words' = words ∧ symbols' = symbols ∧ cut' = cut

/-! ## COMPRESS and the round trip -/

/-- 45_control.md section 2 (R226): COMPRESS of an input in range does what COUNT, BUILD, TABLE (where
BUILD made a tree) and ENCODE do one after the other. -/
def Obligations.CompressRunsTheFourStages : Prop :=
  ∀ s : State, s.inLen.toNat ≤ s.params.maxSyms →
    ∃ t1 t2, exec .count s = .next t1 ∧ exec .build t1 = .next t2 ∧
      (t2.treeValid = true →
        ∃ t3, exec .table t2 = .next t3 ∧ exec .compress s = exec .encode t3) ∧
      (t2.treeValid = false → exec .compress s = exec .encode t2)

/-- 45_control.md section 2 (R226): COMPRESS of a nonempty input whose stream fits BITS leaves the counts
of the input, the tree and the code table of those counts, both valid flags set and EMPTY clear, and the
stream in BITS; it changes nothing else. -/
def Obligations.CompressOfFittingInput : Prop :=
  ∀ s : State, s.params.legal = true → s.bits.wf = true → 0 < s.inLen.toNat →
    s.inLen.toNat ≤ s.params.maxSyms →
    (streamOf (codeOf (frequencies s.inputSymbols)) s.inputSymbols).length ≤
      8 * s.params.bitBufBytes →
    ∃ t, exec .compress s = .next t ∧
      t = { s with
        freq := t.freq
        tree := t.tree
        nsym := t.nsym
        root := t.root
        code := t.code
        bits := t.bits
        encBits := BitVec.ofNat 32 (streamOf t.code s.inputSymbols).length
        encBytes := BitVec.ofNat 32 (((streamOf t.code s.inputSymbols).length + 7) / 8)
        decBits := BitVec.ofNat 32 (streamOf t.code s.inputSymbols).length
        treeValid := true
        tableValid := true
        empty := false
        errCode := .none
        seq := .idle
        done := true } ∧
      t.TablesConsistent ∧
      (∀ a : Sym, entryOf t.freq a = BitVec.ofNat 32 (s.occurrences a)) ∧
      allCoded t.code s.inputSymbols = true ∧
      (∀ k, k < 8 * (((streamOf t.code s.inputSymbols).length + 7) / 8) →
        streamBit t.bits k = (streamOf t.code s.inputSymbols).getD k false) ∧
      ∀ a, ((streamOf t.code s.inputSymbols).length + 7) / 8 ≤ a →
        t.bits.read a = s.bits.read a

/-- 45_control.md section 2 (R226): COMPRESS of the empty input ends with EMPTY = 1, both valid flags 0,
zero counts, an empty tree and code table, no byte of BITS written, and no error. -/
def Obligations.CompressOfEmptyInput : Prop :=
  ∀ s : State, s.inLen = 0 →
    exec .compress s = .next
      { s with
        freq := Vector.replicate 256 0
        tree := Vector.replicate 511 Node.zero
        nsym := 0
        root := 0
        code := Vector.replicate 256 CodeEntry.invalid
        encBits := 0
        encBytes := 0
        decBits := 0
        treeValid := false
        tableValid := false
        empty := true
        errCode := .none
        seq := .idle
        done := true }

/-- 45_control.md section 2 (R226), 60_exceptions.md section 3 (R252): with legal parameters COMPRESS can
end only without error, with RANGE (exactly where IN_LEN is out of range), or with OVERFLOW; NO_TREE,
NO_TABLE and LOOKUP_FAIL cannot occur. -/
def Obligations.CompressEndsOnlyWithRangeOrOverflow : Prop :=
  ∀ s : State, s.params.legal = true → s.bits.wf = true →
    ∃ t, exec .compress s = .next t ∧
      (t.errCode = .range ↔ s.params.maxSyms < s.inLen.toNat) ∧
      (t.errCode = .none ∨ t.errCode = .range ∨ t.errCode = .overflow)

/-- 43_encoder.md (R187): an input of one symbol repeated `k ≥ 1` times encodes into exactly `k` bits, all
zero, and every written byte is zero. -/
def Obligations.OneSymbolInputGivesZeroBits : Prop :=
  ∀ (s : State) (a : Sym), s.params.legal = true → s.bits.wf = true → 0 < s.inLen.toNat →
    s.inLen.toNat ≤ s.params.maxSyms → (∀ i, i < s.inLen.toNat → s.symIn.read i = a) →
    s.inLen.toNat ≤ 8 * s.params.bitBufBytes →
    ∃ t, exec .compress s = .next t ∧ t.errCode = .none ∧ t.encBits = s.inLen ∧
      t.encBytes.toNat = (s.inLen.toNat + 7) / 8 ∧
      entryOf t.code a = { valid := true, len := 1, bits := 0 } ∧
      ∀ i, i < t.encBytes.toNat → t.bits.read i = 0

/-- 44_decoder.md (R207): for every input of at most MAX_SYMS symbols, COMPRESS and then DECODE leave
OUT_LEN = IN_LEN and the input in SYM_OUT, provided neither ends with OVERFLOW. -/
def Obligations.DecodeOfCompressIsTheInput : Prop :=
  ∀ s : State, s.params.legal = true → s.bits.wf = true → s.symOut.wf = true →
    s.inLen.toNat ≤ s.params.maxSyms →
    ∃ t, exec .compress s = .next t ∧ ∀ (v : Word) (hold : Nat),
      ∃ u, exec .decode (accept v hold t) = .next u ∧
        (t.errCode ≠ .overflow → u.errCode ≠ .overflow →
          t.errCode = .none ∧ u.errCode = .none ∧ u.outLen = s.inLen ∧
            ∀ i, i < s.inLen.toNat → u.symOut.read i = s.symIn.read i)

/-! ## Errors -/

/-- 60_exceptions.md section 4 (R255, R256): a command that ends with RANGE, NO_TREE or NO_TABLE leaves
every register, table and buffer as it was; only its report is written, with ERR_INFO 0. -/
def Obligations.EarlyErrorsLeaveTheState : Prop :=
  ∀ (i : Instr) (s : State), s.params.legal = true → s.bits.wf = true →
    ∃ t, exec i s = .next t ∧
      (t.errCode = .range ∨ t.errCode = .noTree ∨ t.errCode = .noTable →
        t = { s with errCode := t.errCode, errInfo := 0, seq := .idle, done := true })

/-- 70_reset_and_hazards.md section 3 (R288): every command is idempotent: issued again on the state it
left, it leaves that state again. -/
def Obligations.CommandsAreIdempotent : Prop :=
  ∀ (i : Instr) (s : State), s.BuffersOk → s.params.legal = true → s.errInfo = 0 →
    ∃ t, exec i s = .next t ∧ ∀ (v : Word) (hold : Nat), exec i (accept v hold t) = .next t

/-! ## The host port -/

/-- R31, R43, R76: ID reads `0x48554631`, CAP_SYMS, CAP_BITBYTES and CAP_OUT read the parameters, and a
reserved offset reads 0, in every state, busy or idle; writes to all of these and to the read-only regions
TREE, CODE_LEN, CODE_BITS and SYM_OUT are ignored, without a bus error. -/
def Obligations.ConstantRegistersReadTheirConstants : Prop :=
  (∀ (s : State) (off : Nat) (value v : Word),
    (off, value) ∈ [(0x000, 0x48554631#32), (0x034, BitVec.ofNat 32 s.params.maxSyms),
      (0x038, BitVec.ofNat 32 s.params.bitBufBytes), (0x03C, BitVec.ofNat 32 s.params.outCap)] →
    hostRead off s = { s with resp := some (.readOk value), draws := s.draws + 1 } ∧
      hostWrite off v s = { s with resp := some .writeOk }) ∧
  (∀ (s : State) (off : Nat) (v : Word), reservedOffset off = true → off % 4 = 0 →
    hostRead off s = { s with resp := some (.readOk 0), draws := s.draws + 1 } ∧
      hostWrite off v s = { s with resp := some .writeOk }) ∧
  ∀ (s : State) (off : Nat) (v : Word), readOnlyOffset off = true → off % 4 = 0 →
    hostWrite off v s = { s with resp := some .writeOk }

/-- 20_memory.md section 2 (R73): an access to the block that is not 32 bits wide, or not at a multiple of
4, gets a bus error: a write changes no state, and a read returns some value with the error. An access
outside the block's 4 MiB region (00_scope.md section 4, R10; 60_exceptions.md section 5, R262) changes
nothing in the block; that it leaves no response, and is placed by its first address, is the model's choice
(log entry 12). -/
def Obligations.BadAccessGetsABusError : Prop :=
  (∀ (s : State) (a : Access), s.params.hufBase ≤ a.addr →
    a.addr < s.params.hufBase + 0x400000 → a.width ≠ 4 ∨ a.addr % 4 ≠ 0 →
    (∀ v : Word, a.op = .write v → hostAccess a s = { s with resp := some .writeError }) ∧
      (a.op = .read → ∃ v : Word,
        hostAccess a s = { s with resp := some (.readError v), draws := s.draws + 1 })) ∧
  ∀ (s : State) (a : Access),
    a.addr < s.params.hufBase ∨ s.params.hufBase + 0x400000 ≤ a.addr →
    hostAccess a s = { s with resp := none }

/-- 10_state.md section 3 (R23, R28, R30): a write to STATUS, busy or idle, clears DONE and OVERRUN where
the written value has a 1 in their bit, and changes nothing else. -/
def Obligations.StatusWriteClearsDoneAndOverrun : Prop :=
  ∀ (s : State) (v : Word),
    hostWrite 0x008 v s =
      { s with
        done := if v.getLsbD 1 then false else s.done
        overrun := if v.getLsbD 6 then false else s.overrun
        resp := some .writeOk }

/-- 10_state.md section 3 (R22 to R30), 60_exceptions.md section 1 (R240): the STATUS word bit by bit, read
while idle and while busy, with the number of each error code. While busy EMPTY, TREE_VALID and TABLE_VALID
may read as anything. -/
def Obligations.StatusReadsBitByBit : Prop :=
  (∀ s : State, s.seq = .idle →
    ∃ v : Word, hostRead 0x008 s = { s with resp := some (.readOk v), draws := s.draws + 1 } ∧
      v.getLsbD 0 = false ∧ v.getLsbD 1 = s.done ∧ v.getLsbD 2 = (s.errCode != .none) ∧
      v.getLsbD 3 = s.empty ∧ v.getLsbD 4 = s.treeValid ∧ v.getLsbD 5 = s.tableValid ∧
      v.getLsbD 6 = s.overrun ∧ v.getLsbD 7 = false ∧ v.extractLsb' 16 16 = 0#16 ∧
      (s.errCode = .none → v.extractLsb' 8 8 = 0x00#8) ∧
      (s.errCode = .illegalCmd → v.extractLsb' 8 8 = 0x01#8) ∧
      (s.errCode = .range → v.extractLsb' 8 8 = 0x02#8) ∧
      (s.errCode = .noTree → v.extractLsb' 8 8 = 0x03#8) ∧
      (s.errCode = .noTable → v.extractLsb' 8 8 = 0x04#8) ∧
      (s.errCode = .lookupFail → v.extractLsb' 8 8 = 0x05#8) ∧
      (s.errCode = .overflow → v.extractLsb' 8 8 = 0x06#8) ∧
      (s.errCode = .truncated → v.extractLsb' 8 8 = 0x07#8)) ∧
  ∀ (s : State) (w : Word) (hold : Nat), s.seq = .busy w hold →
    ∃ v : Word, hostRead 0x008 s = { s with resp := some (.readOk v), draws := s.draws + 1 } ∧
      v.getLsbD 0 = true ∧ v.getLsbD 1 = false ∧ v.getLsbD 2 = false ∧
      v.getLsbD 6 = s.overrun ∧ v.getLsbD 7 = false ∧ v.extractLsb' 8 24 = 0#24

/-- 10_state.md section 5 (R46): a write to a FREQ entry stores the value, clears TREE_VALID and TABLE_VALID and changes nothing
else while idle, and is dropped while busy; a read returns the stored value while idle, and some value
while busy. Beside FREQ, the host's view of the other two tables (10_state.md section 5, R47, R48) while
idle, field by field: the four words of a TREE record, CODE_LEN and CODE_BITS. While busy a read of a
read-only region returns some value, as a whole word (log entry 6), and the place of a node 511 reads 0,
busy or idle. -/
def Obligations.FreqWriteStoresAndInvalidates : Prop :=
  (∀ (s : State) (a : Sym) (v : Word),
    (s.seq = .idle →
      hostWrite (0x400 + 4 * a.toNat) v s =
        { s with freq := setEntry s.freq a v, treeValid := false, tableValid := false,
                 resp := some .writeOk } ∧
      hostRead (0x400 + 4 * a.toNat) s =
        { s with resp := some (.readOk (entryOf s.freq a)), draws := s.draws + 1 } ∧
      ∀ b : Sym, entryOf (setEntry s.freq a v) b = if b = a then v else entryOf s.freq b) ∧
    (∀ (w : Word) (hold : Nat), s.seq = .busy w hold →
      hostWrite (0x400 + 4 * a.toNat) v s = { s with resp := some .writeOk } ∧
      ∃ u : Word, hostRead (0x400 + 4 * a.toNat) s =
        { s with resp := some (.readOk u), draws := s.draws + 1 })) ∧
  (∀ (s : State) (i : NodeIdx), s.seq = .idle → i.toNat < 511 →
    ∃ w0 w1 w2 : Word,
      hostRead (0x2000 + 16 * i.toNat) s =
        { s with resp := some (.readOk w0), draws := s.draws + 1 } ∧
      hostRead (0x2004 + 16 * i.toNat) s =
        { s with resp := some (.readOk w1), draws := s.draws + 1 } ∧
      hostRead (0x2008 + 16 * i.toNat) s =
        { s with resp := some (.readOk w2), draws := s.draws + 1 } ∧
      hostRead (0x200C + 16 * i.toNat) s =
        { s with resp := some (.readOk 0), draws := s.draws + 1 } ∧
      w0 = (nodeAt s.tree i).weight.extractLsb' 0 32 ∧
      w1.extractLsb' 0 8 = (nodeAt s.tree i).weight.extractLsb' 32 8 ∧ w1.extractLsb' 8 24 = 0#24 ∧
      w2.extractLsb' 0 9 = (nodeAt s.tree i).left ∧ w2.extractLsb' 9 9 = (nodeAt s.tree i).right ∧
      w2.extractLsb' 18 8 = (nodeAt s.tree i).sym ∧ w2.extractLsb' 26 5 = 0#5 ∧
      w2.getLsbD 31 = (nodeAt s.tree i).leaf) ∧
  (∀ (s : State) (a : Sym), s.seq = .idle →
    ∃ v : Word, hostRead (0x4000 + 4 * a.toNat) s =
        { s with resp := some (.readOk v), draws := s.draws + 1 } ∧
      v.extractLsb' 0 8 = (entryOf s.code a).len ∧ v.extractLsb' 8 23 = 0#23 ∧
      v.getLsbD 31 = (entryOf s.code a).valid) ∧
  (∀ (s : State) (a : Sym) (k : Fin 8), s.seq = .idle →
    ∃ v : Word, hostRead (0x6000 + 32 * a.toNat + 4 * k.val) s =
        { s with resp := some (.readOk v), draws := s.draws + 1 } ∧
      ∀ j, j < 32 → v.getLsbD j = (entryOf s.code a).bits.getLsbD (32 * k.val + j)) ∧
  (∀ (s : State) (off : Nat) (w : Word) (hold : Nat), s.seq = .busy w hold → off % 4 = 0 →
    readOnlyOffset off = true →
    ∃ u : Word, hostRead off s = { s with resp := some (.readOk u), draws := s.draws + 1 }) ∧
  ∀ (s : State) (off : Nat), 0x3FF0 ≤ off → off < 0x4000 → off % 4 = 0 →
    hostRead off s = { s with resp := some (.readOk 0), draws := s.draws + 1 }

/-- 20_memory.md sections 1 and 3 (R70, R75, R76, R77), 10_state.md section 5 (R51): an idle host write of
a word to the SYM_IN or the BITS window puts the word's byte `j` in buffer byte `4w + j`, little-endian,
ignores the bytes at or above the capacity, and changes no other byte and nothing else. A write to the
SYM_OUT window is ignored, and so is a write to any of the three while busy. -/
def Obligations.SymInWordWriteIsLittleEndian : Prop :=
  (∀ (s : State) (b : BufferId) (w : Nat) (v : Word), s.seq = .idle → b ≠ .symOut →
    (s.buffer b).wf = true → w < 2 ^ 18 →
    ∃ t, hostWrite (windowBase b + 4 * w) v s = t ∧
      t = { s with symIn := t.symIn, bits := t.bits, resp := some .writeOk } ∧
      (∀ b' : BufferId, b' ≠ b → t.buffer b' = s.buffer b') ∧
      (∀ j, j < 4 → 4 * w + j < s.params.capacity b →
        (t.buffer b).read (4 * w + j) = v.extractLsb' (8 * j) 8) ∧
      ∀ a, a < 4 * w ∨ 4 * w + 4 ≤ a ∨ s.params.capacity b ≤ a →
        (t.buffer b).read a = (s.buffer b).read a) ∧
  (∀ (s : State) (w : Nat) (v : Word), w < 2 ^ 18 →
    hostWrite (windowBase .symOut + 4 * w) v s = { s with resp := some .writeOk }) ∧
  ∀ (s : State) (b : BufferId) (w : Nat) (v cmdl : Word) (hold : Nat), s.seq = .busy cmdl hold →
    w < 2 ^ 18 → hostWrite (windowBase b + 4 * w) v s = { s with resp := some .writeOk }

/-- 20_memory.md sections 1 and 3 (R70, R71, R77): an idle host read of a word of a buffer window shows
buffer byte `4w + j` in bits `8j+7 : 8j`, and 0 for a byte at or above the capacity. So in the BITS window
stream bit `k` is bit `8 × ((k div 8) mod 4) + 7 - (k mod 8)` of word `k div 32`. While busy a read returns
some value (10_state.md section 5, R51), in which the bytes at or above the capacity are still 0, as the
model takes R77 (log entry 6). -/
def Obligations.BitsWordReadShowsTheStream : Prop :=
  (∀ (s : State) (b : BufferId) (w : Nat), s.seq = .idle → w < 2 ^ 18 →
    ∃ v : Word, hostRead (windowBase b + 4 * w) s =
        { s with resp := some (.readOk v), draws := s.draws + 1 } ∧
      ∀ j, j < 4 → v.extractLsb' (8 * j) 8 =
        if 4 * w + j < s.params.capacity b then (s.buffer b).read (4 * w + j) else 0#8) ∧
  (∀ (s : State) (w : Nat), s.seq = .idle → w < 2 ^ 18 →
    ∃ v : Word, hostRead (windowBase .bits + 4 * w) s =
        { s with resp := some (.readOk v), draws := s.draws + 1 } ∧
      ∀ k, k / 32 = w → v.getLsbD (8 * (k / 8 % 4) + 7 - k % 8) =
        if k / 8 < s.params.bitBufBytes then streamBit s.bits k else false) ∧
  ∀ (s : State) (b : BufferId) (w : Nat) (cmdl : Word) (hold : Nat), s.seq = .busy cmdl hold →
    w < 2 ^ 18 →
    ∃ v : Word, hostRead (windowBase b + 4 * w) s =
        { s with resp := some (.readOk v), draws := s.draws + 1 } ∧
      ∀ j, j < 4 → s.params.capacity b ≤ 4 * w + j → v.extractLsb' (8 * j) 8 = 0#8

/-- 10_state.md section 6 (R59): IRQ is CTRL.IE and STATUS.DONE; it is 0 after reset, whatever the
parameters. Shown here by its readers: CTRL bit 0 and STATUS bit 1, as the host reads them, idle or busy;
while busy IRQ is 0 in every state whose report is as acceptance left it (R220). -/
def Obligations.IrqIsEnableAndDone : Prop :=
  (∀ p : Params, (State.resetWith p).irq = false) ∧
  (∀ s : State, s.seq = .idle ∨ s.ReportOk →
    ∃ c v : Word,
      hostRead 0x004 s = { s with resp := some (.readOk c), draws := s.draws + 1 } ∧
      hostRead 0x008 s = { s with resp := some (.readOk v), draws := s.draws + 1 } ∧
      s.irq = (c.getLsbD 0 && v.getLsbD 1)) ∧
  (∀ (s : State) (w : Word) (hold : Nat), s.seq = .busy w hold → s.ReportOk → s.irq = false) ∧
  ∀ s : State, s.irq = (s.ie && s.done)

/-! ## Reset and invariants -/

/-- 70_reset_and_hazards.md section 1 (R270 to R273): the reset input, idle or while a command runs, puts
every register and table at its reset value and the sequencer in IDLE; a running command is abandoned. A
buffer byte within its capacity is some value of its own, the free value of log entry 3. Where the running
command lets no event pass any more (`hold` 0), it completes first and the reset comes next: the model's
choice between two orders that R290 both allows (log entry 15). -/
def Obligations.ResetInputAbandonsAndClears : Prop :=
  (∀ (s : State) (rest : List HostEvent), s.inbox = .resetInput :: rest →
    (s.seq = .idle ∨ ∃ w left, s.seq = .busy w (left + 1)) →
    ∃ t, step s = .next t ∧
      t = { State.resetWith s.params with
        symIn := t.symIn
        bits := t.bits
        symOut := t.symOut
        inbox := rest
        draws := s.draws + 1 } ∧
      t.irq = false ∧ t.BuffersOk ∧
      ∀ (b : BufferId) (i : Nat), i < s.params.capacity b →
        (t.buffer b).read i = Config.resetByte s.draws b i) ∧
  ∀ (s : State) (rest : List HostEvent) (w : Word), s.inbox = .resetInput :: rest →
    s.seq = .busy w 0 →
    ∃ t, step s = .next t ∧ step s = runCommand w s ∧ t.seq = .idle ∧ t.inbox = .resetInput :: rest

/-- 70_reset_and_hazards.md section 1 (R271): the state right after reset meets every invariant, with any
legal parameters and any contents of the buffers (R273), and so does `State.reset`, whose empty buffers
and parameters are the model's choice (log entries 1 and 2). -/
def Obligations.ResetMeetsTheInvariants : Prop :=
  State.reset.Inv ∧
    ∀ (p : Params) (symIn bits symOut : Memory), p.legal = true →
      ({ State.resetWith p with symIn := symIn, bits := bits, symOut := symOut } :
        State).BuffersOk →
      ({ State.resetWith p with symIn := symIn, bits := bits, symOut := symOut } : State).Inv

/-- 10_state.md section 5 (R49): every command, every host write and reset keep the four invariants of the
flags and tables. -/
def Obligations.StepKeepsTablesConsistent : Prop :=
  ∀ s t : State, s.TablesConsistent → step s = .next t → t.TablesConsistent

/-- 10_state.md section 5 (R50), 20_memory.md sections 3 and 6 (R77, R87): every step keeps the buffers in
canonical form and within their capacities. -/
def Obligations.StepKeepsBuffersCanonical : Prop :=
  ∀ s t : State, s.BuffersOk → step s = .next t → t.BuffersOk

/-- 10_state.md sections 3 to 5 (R29, R35 to R42, R47, R48): every step keeps the parameters, the forms of
the registers and tables, and the report of the last command. -/
def Obligations.StepKeepsTheInvariants : Prop :=
  ∀ s t : State, s.Inv → step s = .next t → t.Inv ∧ t.params = s.params

/-! ## The operand and result registers -/

/-- 10_state.md section 4 (R32 to R42, R44): the registers that hold operands and results, and CTRL; ID and
CAP_* are in `ConstantRegistersReadTheirConstants`, STATUS in `StatusReadsBitByBit` and
`StatusWriteClearsDoneAndOverrun`, a write of CMD in `CmdWriteIsAcceptedOnlyWhileIdle`. CTRL bit 0 is IE,
written and read busy or idle. CMD reads 0. IN_LEN and DEC_BITS store all 32 bits of a write while idle and
drop it while busy. The operand and result registers read their stored value while idle and some value
while busy, as a whole word (log entry 6). Writes to the result registers are ignored. -/
def Obligations.RegistersReadAndWriteByTheirRules : Prop :=
  (∀ (s : State) (v : Word),
    hostWrite 0x004 v s = { s with ie := v.getLsbD 0, resp := some .writeOk } ∧
      hostRead 0x004 s =
        { s with resp := some (.readOk (if s.ie then 1#32 else 0#32)), draws := s.draws + 1 } ∧
      hostRead 0x00C s = { s with resp := some (.readOk 0), draws := s.draws + 1 }) ∧
  (∀ (s : State) (v : Word), s.seq = .idle →
    hostWrite 0x010 v s = { s with inLen := v, resp := some .writeOk } ∧
      hostWrite 0x01C v s = { s with decBits := v, resp := some .writeOk }) ∧
  (∀ (s : State) (v w : Word) (hold : Nat), s.seq = .busy w hold →
    hostWrite 0x010 v s = { s with resp := some .writeOk } ∧
      hostWrite 0x01C v s = { s with resp := some .writeOk }) ∧
  (∀ (s : State) (off : Nat) (value : Word), s.seq = .idle →
    (off, value) ∈ [(0x010, s.inLen), (0x014, s.encBits), (0x018, s.encBytes), (0x01C, s.decBits),
      (0x020, s.outLen), (0x024, s.errInfo), (0x028, s.nsym.setWidth 32), (0x02C, s.root.setWidth 32),
      (0x030, s.lkLen.setWidth 32)] →
    hostRead off s = { s with resp := some (.readOk value), draws := s.draws + 1 }) ∧
  (∀ (s : State) (k : Fin 8), s.seq = .idle →
    hostRead (0x040 + 4 * k.val) s =
      { s with resp := some (.readOk s.lkBits[k.val]), draws := s.draws + 1 }) ∧
  (∀ (s : State) (off : Nat) (w : Word) (hold : Nat), s.seq = .busy w hold → off % 4 = 0 →
    (0x010 ≤ off ∧ off < 0x034) ∨ (0x040 ≤ off ∧ off < 0x060) →
    ∃ u : Word, hostRead off s = { s with resp := some (.readOk u), draws := s.draws + 1 }) ∧
  ∀ (s : State) (off : Nat) (v : Word), off % 4 = 0 →
    off = 0x014 ∨ off = 0x018 ∨ (0x020 ≤ off ∧ off < 0x034) ∨ (0x040 ≤ off ∧ off < 0x060) →
    hostWrite off v s = { s with resp := some .writeOk }
end

