-- ==== Sys2Proof/Laws/Tables.lean ====
section
/-!
SUPPORT. The laws of the table accessors (10_state.md R45 to R48) and of code words as bit sequences
(00_scope.md R12).
-/

namespace Sys2Proof.Machine

theorem sym_ext {a b : Sym} (h : a.toNat = b.toNat) : a = b := BitVec.eq_of_toNat_eq h

/-- What a table reads after an entry is set. -/
theorem entryOf_setEntry {α : Type} (v : Vector α 256) (a : Sym) (x : α) (b : Sym) :
    entryOf (setEntry v a x) b = if b = a then x else entryOf v b := by
  unfold entryOf setEntry
  rw [Vector.getElem_set]
  by_cases h : b = a
  · subst h; simp
  · have hne : a.toNat ≠ b.toNat := fun e => h (sym_ext e.symm)
    simp [h, hne]

@[simp] theorem entryOf_replicate {α : Type} (x : α) (a : Sym) :
    entryOf (Vector.replicate 256 x) a = x := by
  unfold entryOf
  exact Vector.getElem_replicate _

/-- Two 256-entry tables with the same entries are the same. -/
theorem table_ext {α : Type} {u v : Vector α 256} (h : ∀ a : Sym, entryOf u a = entryOf v a) :
    u = v := by
  apply Vector.ext
  intro i hi
  have := h (BitVec.ofNat 8 i)
  have hm : i % 2 ^ 8 = i := Nat.mod_eq_of_lt hi
  simp only [entryOf, BitVec.toNat_ofNat] at this
  simpa only [hm] using this

@[simp] theorem nodeAt_replicate (i : NodeIdx) :
    nodeAt (Vector.replicate 511 Node.zero) i = Node.zero := by
  unfold nodeAt
  split
  · exact Vector.getElem_replicate _
  · rfl

/-- The TREE record at an index is the one made there, or zero (R146). -/
theorem nodeAt_recordsOf (made : List Node) (h : made.length ≤ 511) (i : NodeIdx) :
    nodeAt (recordsOf made) i = made.getD i.toNat Node.zero := by
  unfold nodeAt recordsOf
  split
  · simp
  · rw [List.getD_eq_default _ _ (by omega)]

/-- The bits of a number built from a bit sequence (R12). -/
theorem testBit_bitsToNat (c : List Bool) (j : Nat) :
    (bitsToNat c).testBit j = c.getD j false := by
  induction c generalizing j with
  | nil => simp [bitsToNat]
  | cons b c ih =>
    cases j with
    | zero => cases b <;> simp [bitsToNat, Nat.testBit_zero, Nat.add_mod]
    | succ j =>
      rw [List.getD_cons_succ, ← ih j, bitsToNat, Nat.testBit_succ]
      congr 1
      cases b <;> simp only [Bool.toNat_true, Bool.toNat_false] <;> omega

/-- The bits of an entry made from a code word of fewer than 256 bits. -/
theorem CodeEntry.getLsbD_ofWord (c : List Bool) (h : c.length < 256) (j : Nat) :
    (CodeEntry.ofWord c).bits.getLsbD j = c.getD j false := by
  unfold CodeEntry.ofWord
  simp only [BitVec.getLsbD_ofNat, testBit_bitsToNat]
  by_cases hj : j < 256
  · simp [hj]
  · rw [List.getD_eq_default _ _ (by omega)]; simp

/-- The code word of an entry made from it (R48, R163). -/
@[simp] theorem CodeEntry.word_ofWord (c : List Bool) (h : c.length < 256) :
    (CodeEntry.ofWord c).word = c := by
  have hl : (CodeEntry.ofWord c).len.toNat = c.length := by
    simp only [CodeEntry.ofWord, BitVec.toNat_ofNat]; omega
  unfold CodeEntry.word
  rw [hl]
  apply List.ext_getElem
  · simp
  · intro i h1 h2
    rw [List.getElem_map, List.getElem_range, CodeEntry.getLsbD_ofWord c h,
      List.getD_eq_getElem _ _ h2]

/-- An entry made from a code word of 1 to 255 bits has the form of a CODE entry. -/
theorem CodeEntry.formed_ofWord (c : List Bool) (h : c.length < 256) (hpos : c ≠ []) :
    (CodeEntry.ofWord c).Formed := by
  have hl : (CodeEntry.ofWord c).len.toNat = c.length := by
    simp only [CodeEntry.ofWord, BitVec.toNat_ofNat]; omega
  refine ⟨by simp [CodeEntry.ofWord], fun _ => ?_, fun j hj => ?_⟩
  · rw [hl]; exact List.length_pos_iff.2 hpos
  · rw [CodeEntry.getLsbD_ofWord c h, List.getD_eq_default _ _ (by omega)]

theorem CodeEntry.formed_invalid : CodeEntry.invalid.Formed :=
  ⟨fun _ => rfl, by simp [CodeEntry.invalid], by simp [CodeEntry.invalid]⟩

@[simp] theorem CodeEntry.length_word (e : CodeEntry) : e.word.length = e.len.toNat := by
  simp [CodeEntry.word]

/-- The counting loop adds to each entry how often its symbol occurs (R130, R131). -/
theorem entryOf_foldl_countSymbol (input : List Sym) (freq : Vector Word 256) (a : Sym) :
    entryOf (input.foldl countSymbol freq) a =
      entryOf freq a + BitVec.ofNat 32 (input.count a) := by
  induction input generalizing freq with
  | nil => simp
  | cons b input ih =>
    rw [List.foldl_cons, ih, countSymbol, entryOf_setEntry, List.count_cons]
    by_cases h : a = b
    · subst h
      simp only [if_true, beq_self_eq_true, BitVec.ofNat_add]
      rw [show BitVec.ofNat 32 1 = (1 : Word) from rfl]
      ac_rfl
    · have hb : ¬ b = a := fun e => h e.symm
      simp [h, hb]

end Sys2Proof.Machine
end

