-- ==== Sys2Proof/Laws/CodeTable.lean ====
section
/-!
SUPPORT. The walk of TABLE (42_code_table.md R160, R161): every entry it writes is the path to a leaf of
its symbol, and every symbol whose leaf a path reaches gets one.
-/

namespace Sys2Proof.Machine

theorem visit_leaf {tree : Vector Node 511} {i : NodeIdx} (h : (nodeAt tree i).leaf = true)
    (levels : Nat) (p : List Bool) (code : Vector CodeEntry 256) :
    visit tree (levels + 1) i p code = setEntry code (nodeAt tree i).sym (CodeEntry.ofWord p) := by
  simp only [visit, h, if_true]

theorem visit_internal {tree : Vector Node 511} {i : NodeIdx} (h : (nodeAt tree i).leaf = false)
    (levels : Nat) (p : List Bool) (code : Vector CodeEntry 256) :
    visit tree (levels + 1) i p code =
      visit tree levels (childOf tree i true) (p ++ [true])
        (visit tree levels (childOf tree i false) (p ++ [false]) code) := by
  simp [visit, h, childOf]

/-- An entry after the walk is the entry before it, or the path from `i` to a leaf of its symbol,
after the bits `p` that led to `i`. -/
theorem visit_entry (tree : Vector Node 511) (levels : Nat) (i : NodeIdx) (p : List Bool)
    (code : Vector CodeEntry 256) (a : Sym) :
    entryOf (visit tree levels i p code) a = entryOf code a ∨
      ∃ c, c.length < levels ∧ leadsToLeaf tree i c a = true ∧
        entryOf (visit tree levels i p code) a = CodeEntry.ofWord (p ++ c) := by
  induction levels generalizing i p code with
  | zero => exact .inl rfl
  | succ levels ih =>
    by_cases hl : (nodeAt tree i).leaf = true
    · rw [visit_leaf hl, entryOf_setEntry]
      by_cases ha : a = (nodeAt tree i).sym
      · exact .inr ⟨[], by simp, by simp [leadsToLeaf, hl, ha], by simp [ha]⟩
      · exact .inl (by rw [if_neg ha])
    · have hl : (nodeAt tree i).leaf = false := by simpa using hl
      rw [visit_internal hl]
      rcases ih (childOf tree i true) (p ++ [true])
        (visit tree levels (childOf tree i false) (p ++ [false]) code) with h | ⟨c, hc, hw, he⟩
      · rw [h]
        rcases ih (childOf tree i false) (p ++ [false]) code with h2 | ⟨c, hc, hw, he⟩
        · exact .inl h2
        · exact .inr ⟨false :: c, by simpa using hc, by simp [leadsToLeaf, hl, hw], by
            rw [he]; simp⟩
      · exact .inr ⟨true :: c, by simpa using hc, by simp [leadsToLeaf, hl, hw], by rw [he]; simp⟩

/-- A symbol that a path of fewer than `levels` bits reaches has its path as its entry. -/
theorem visit_reaches (tree : Vector Node 511) (levels : Nat) (i : NodeIdx) (p c : List Bool)
    (code : Vector CodeEntry 256) (a : Sym) (hc : c.length < levels)
    (hw : leadsToLeaf tree i c a = true) :
    ∃ c', c'.length < levels ∧ leadsToLeaf tree i c' a = true ∧
      entryOf (visit tree levels i p code) a = CodeEntry.ofWord (p ++ c') := by
  induction levels generalizing i p c code with
  | zero => omega
  | succ levels ih =>
    cases c with
    | nil =>
      simp only [leadsToLeaf, Bool.and_eq_true, beq_iff_eq] at hw
      exact ⟨[], by simp, by simp [leadsToLeaf, hw.1, hw.2], by
        rw [visit_leaf hw.1, entryOf_setEntry, if_pos hw.2.symm, List.append_nil]⟩
    | cons b c =>
      simp only [leadsToLeaf, Bool.and_eq_true, Bool.not_eq_true'] at hw
      obtain ⟨hl, hw⟩ := hw
      have hc' : c.length < levels := by simpa using hc
      rw [visit_internal hl]
      cases b with
      | true =>
        obtain ⟨c', h1, h2, h3⟩ := ih (childOf tree i true) (p ++ [true]) c
          (visit tree levels (childOf tree i false) (p ++ [false]) code) hc' hw
        exact ⟨true :: c', by simpa using h1, by simp [leadsToLeaf, hl, h2], by rw [h3]; simp⟩
      | false =>
        obtain ⟨c', h1, h2, h3⟩ := ih (childOf tree i false) (p ++ [false]) c code hc' hw
        rcases visit_entry tree levels (childOf tree i true) (p ++ [true])
          (visit tree levels (childOf tree i false) (p ++ [false]) code) a with h | ⟨d, h4, h5, h6⟩
        · exact ⟨false :: c', by simpa using h1, by simp [leadsToLeaf, hl, h2], by
            rw [h, h3]; simp⟩
        · exact ⟨true :: d, by simpa using h4, by simp [leadsToLeaf, hl, h5], by rw [h6]; simp⟩

end Sys2Proof.Machine
end

