-- ==== Sys2Proof/Laws/Memory.lean ====
section
/-!
SUPPORT. The laws of a buffer's bytes: a read after a write, that every operation keeps the canonical
form and the capacity, and that canonical buffers with the same bytes are the same data.
-/

namespace Sys2Proof.Machine

@[simp] theorem Memory.read_nil (a : Nat) : Memory.read [] a = Memory.blank := rfl

theorem Memory.read_cons (c : Host.Cell) (m : Memory) (a : Nat) :
    Memory.read (c :: m) a = if c.1 = a then c.2 else Memory.read m a := rfl

/-- The canonical form of a nonempty buffer, as propositions. -/
theorem Memory.wf_cons (c : Host.Cell) (m : Memory) :
    Memory.wf (c :: m) = true ↔
      c.2 ≠ Memory.blank ∧ (∀ d ∈ m, c.1 < d.1) ∧ Memory.wf m = true := by
  simp [Memory.wf, and_assoc]

/-- A byte below every listed cell is not listed. -/
theorem Memory.read_eq_blank_of_lt (m : Memory) (a : Nat) (h : ∀ d ∈ m, a < d.1) :
    Memory.read m a = Memory.blank := by
  induction m with
  | nil => rfl
  | cons c m ih =>
    have hc := h c (by simp)
    rw [Memory.read_cons, if_neg (by omega)]
    exact ih fun d hd => h d (by simp [hd])

/-- A write to an address keeps every cell that is not at that address and adds at most one. -/
theorem Memory.mem_write {m : Memory} {a : Nat} {v : Byte} {d : Host.Cell}
    (h : d ∈ Memory.write m a v) : d = (a, v) ∨ d ∈ m := by
  induction m with
  | nil => unfold Memory.write at h; split at h <;> simp_all
  | cons c m ih =>
    unfold Memory.write at h
    split at h
    · split at h <;> simp_all
    · split at h
      · split at h <;> simp_all
        rcases h with h | h <;> simp [h]
      · rcases List.mem_cons.1 h with h | h
        · simp [h]
        · rcases ih h with h | h <;> simp [h]

/-- A write keeps the canonical form. -/
theorem Memory.wf_write {m : Memory} (h : m.wf = true) (a : Nat) (v : Byte) :
    (m.write a v).wf = true := by
  induction m with
  | nil =>
    unfold Memory.write
    split
    · rfl
    · simpa [Memory.wf] using ‹_›
  | cons c m ih =>
    obtain ⟨hc, hlt, hm⟩ := (Memory.wf_cons c m).1 h
    unfold Memory.write
    split
    · split
      · exact h
      · refine (Memory.wf_cons _ _).2 ⟨‹_›, ?_, h⟩
        rintro d (_ | ⟨_, hd⟩)
        · assumption
        · have := hlt d hd; omega
    · split
      · split
        · exact hm
        · refine (Memory.wf_cons _ _).2 ⟨‹_›, ?_, hm⟩
          intro d hd
          have := hlt d hd
          simp_all
      · refine (Memory.wf_cons _ _).2 ⟨hc, ?_, ih hm⟩
        intro d hd
        rcases Memory.mem_write hd with rfl | hd
        · simp only; omega
        · exact hlt d hd

/-- What a canonical buffer reads after a write. -/
theorem Memory.read_write {m : Memory} (h : m.wf = true) (a : Nat) (v : Byte) (x : Nat) :
    (m.write a v).read x = if x = a then v else m.read x := by
  induction m with
  | nil =>
    unfold Memory.write
    by_cases hx : x = a
    · by_cases hv : v = Memory.blank <;> simp [hv, hx, Memory.read_cons]
    · by_cases hv : v = Memory.blank <;> simp [hv, hx, Ne.symm hx, Memory.read_cons]
  | cons c m ih =>
    obtain ⟨hc, hlt, hm⟩ := (Memory.wf_cons c m).1 h
    unfold Memory.write
    by_cases h1 : a < c.1
    · rw [if_pos h1]
      have hb : Memory.read (c :: m) a = Memory.blank :=
        Memory.read_eq_blank_of_lt _ _ fun d hd => by
          rcases List.mem_cons.1 hd with rfl | hd
          · exact h1
          · have := hlt d hd; omega
      by_cases hv : v = Memory.blank
      · rw [if_pos hv]
        by_cases hx : x = a
        · rw [if_pos hx, hx, hb, hv]
        · rw [if_neg hx]
      · rw [if_neg hv, Memory.read_cons]
        simp only [eq_comm]
    · rw [if_neg h1]
      by_cases h2 : a = c.1
      · rw [if_pos h2]
        subst h2
        have hb : Memory.read m c.1 = Memory.blank := Memory.read_eq_blank_of_lt _ _ hlt
        by_cases hv : v = Memory.blank
        · rw [if_pos hv, Memory.read_cons]
          by_cases hx : x = c.1
          · rw [if_pos hx, hx, hb, hv]
          · rw [if_neg hx, if_neg (Ne.symm hx)]
        · rw [if_neg hv, Memory.read_cons, Memory.read_cons]
          by_cases hx : x = c.1
          · simp [hx]
          · simp [hx, Ne.symm hx]
      · rw [if_neg h2, Memory.read_cons, ih hm, Memory.read_cons]
        by_cases hx : x = a
        · rw [if_neg (by omega), if_pos hx, if_pos hx]
        · rw [if_neg hx, if_neg hx]

/-- The byte just written is read back. -/
theorem Memory.read_write_same {m : Memory} (h : m.wf = true) (a : Nat) (v : Byte) :
    (m.write a v).read a = v := by rw [Memory.read_write h, if_pos rfl]

/-- A write leaves every other byte alone. -/
theorem Memory.read_write_other {m : Memory} (h : m.wf = true) {a x : Nat} (v : Byte)
    (hx : x ≠ a) : (m.write a v).read x = m.read x := by rw [Memory.read_write h, if_neg hx]

/-- A write below the capacity stays within it. -/
theorem Memory.within_write {cap : Nat} {m : Memory} (h : m.within cap = true) {a : Nat}
    (ha : a < cap) (v : Byte) : (m.write a v).within cap = true := by
  simp only [Memory.within, List.all_eq_true, decide_eq_true_eq] at h ⊢
  intro d hd
  rcases Memory.mem_write hd with rfl | hd
  · exact ha
  · exact h d hd

/-- Canonical buffers that read the same are the same data. -/
theorem Memory.ext_of_read {m m' : Memory} (h : m.wf = true) (h' : m'.wf = true)
    (heq : ∀ a, m.read a = m'.read a) : m = m' := by
  induction m generalizing m' with
  | nil =>
    cases m' with
    | nil => rfl
    | cons c m' =>
      have := heq c.1
      obtain ⟨hc, -, -⟩ := (Memory.wf_cons c m').1 h'
      simp [Memory.read_cons] at this
      exact absurd this.symm hc
  | cons c m ih =>
    obtain ⟨hc, hlt, hm⟩ := (Memory.wf_cons c m).1 h
    cases m' with
    | nil =>
      have := heq c.1
      simp [Memory.read_cons] at this
      exact absurd this hc
    | cons d m' =>
      obtain ⟨hd, hlt', hm'⟩ := (Memory.wf_cons d m').1 h'
      have hb : Memory.read m c.1 = Memory.blank := Memory.read_eq_blank_of_lt _ _ hlt
      have hb' : Memory.read m' d.1 = Memory.blank := Memory.read_eq_blank_of_lt _ _ hlt'
      have h1 : c.1 = d.1 := by
        rcases Nat.lt_trichotomy c.1 d.1 with hl | he | hg
        · have := heq c.1
          rw [Memory.read_cons, if_pos rfl, Memory.read_eq_blank_of_lt (d :: m') c.1] at this
          · exact absurd this hc
          · intro e he
            rcases List.mem_cons.1 he with rfl | he
            · exact hl
            · have := hlt' e he; omega
        · exact he
        · have := heq d.1
          rw [Memory.read_cons d, if_pos rfl, Memory.read_eq_blank_of_lt (c :: m) d.1] at this
          · exact absurd this.symm hd
          · intro e he
            rcases List.mem_cons.1 he with rfl | he
            · exact hg
            · have := hlt e he; omega
      have h2 : c.2 = d.2 := by
        have := heq c.1
        rwa [Memory.read_cons, if_pos rfl, Memory.read_cons, if_pos h1.symm] at this
      have hcd : c = d := Prod.ext h1 h2
      subst hcd
      congr 1
      refine ih hm hm' fun a => ?_
      by_cases ha : c.1 = a
      · rw [← ha, hb, hb']
      · have := heq a
        rwa [Memory.read_cons, if_neg ha, Memory.read_cons, if_neg ha] at this

/-- The buffer `ofBytes` builds over a canonical one that starts at `n` or above is canonical and stays
within the capacity. -/
theorem Memory.ofBytes_ok (byteAt : Nat → Byte) (n : Nat) (above : Memory) {cap : Nat}
    (hn : n ≤ cap) (hwf : above.wf = true) (hin : above.within cap = true)
    (hge : ∀ d ∈ above, n ≤ d.1) :
    (Memory.ofBytes byteAt n above).wf = true ∧
      (Memory.ofBytes byteAt n above).within cap = true := by
  induction n generalizing above with
  | zero => exact ⟨hwf, hin⟩
  | succ n ih =>
    unfold Memory.ofBytes
    split
    · exact ih above (by omega) hwf hin fun d hd => by have := hge d hd; omega
    · refine ih _ (by omega) ?_ ?_ ?_
      · exact (Memory.wf_cons _ _).2 ⟨‹_›, fun d hd => by have := hge d hd; simp only; omega, hwf⟩
      · simp only [Memory.within, List.all_cons, Bool.and_eq_true, decide_eq_true_eq]
        exact ⟨by omega, hin⟩
      · intro d hd
        rcases List.mem_cons.1 hd with rfl | hd
        · exact Nat.le_refl _
        · have := hge d hd; omega

/-- What the buffer `ofBytes` builds reads. -/
theorem Memory.read_ofBytes (byteAt : Nat → Byte) (n : Nat) (above : Memory)
    (hge : ∀ d ∈ above, n ≤ d.1) (a : Nat) :
    (Memory.ofBytes byteAt n above).read a = if a < n then byteAt a else above.read a := by
  induction n generalizing above with
  | zero => simp [Memory.ofBytes]
  | succ n ih =>
    have hout : Memory.read above n = Memory.blank :=
      Memory.read_eq_blank_of_lt _ _ fun d hd => by have := hge d hd; omega
    unfold Memory.ofBytes
    by_cases hb : byteAt n = Memory.blank
    · rw [if_pos hb, ih above fun d hd => by have := hge d hd; omega]
      rcases Nat.lt_trichotomy a n with h | h | h
      · rw [if_pos h, if_pos (by omega)]
      · rw [h, if_neg (Nat.lt_irrefl n), if_pos (Nat.lt_succ_self n), hout, hb]
      · rw [if_neg (by omega), if_neg (by omega)]
    · rw [if_neg hb, ih]
      · rcases Nat.lt_trichotomy a n with h | h | h
        · rw [if_pos h, if_pos (by omega)]
        · rw [h, if_neg (Nat.lt_irrefl n), if_pos (Nat.lt_succ_self n), Memory.read_cons, if_pos rfl]
        · rw [if_neg (by omega), if_neg (by omega), Memory.read_cons, if_neg (by simp only; omega)]
      · intro d hd
        rcases List.mem_cons.1 hd with rfl | hd
        · exact Nat.le_refl _
        · have := hge d hd; omega

end Sys2Proof.Machine
end

