-- ==== Sys2Proof/Laws/Decoder.lean ====
section
/-!
SUPPORT. The loop of DECODE (44_decoder.md R201): what it does with the bits of one code word, with the
bits of a word that the stream cuts off, and with the bits of a one-leaf tree.
-/

namespace Sys2Proof.Machine

/-- A bit that leads to an internal node moves the cursor there (R201). -/
theorem decodeLoop_descend {tree : Vector Node 511} {b : Bool} {c : Cursor} {nx : NodeIdx}
    (h : walk tree c.cur b = .descend nx) (root : NodeIdx) (cap : Nat) (stream : List Bool) :
    decodeLoop tree root cap (b :: stream) c =
      decodeLoop tree root cap stream { c with cur := nx, rk := c.rk + 1 } := by
  simp only [decodeLoop, h]

/-- A bit that completes a symbol writes it, or stops the loop where SYM_OUT is full (R201, R204). -/
theorem decodeLoop_emit {tree : Vector Node 511} {b : Bool} {c : Cursor} {a : Sym}
    (h : walk tree c.cur b = .emit a) (root : NodeIdx) (cap : Nat) (stream : List Bool) :
    decodeLoop tree root cap (b :: stream) c =
      if c.n = cap then ({ c with rk := c.rk + 1 }, true)
      else
        decodeLoop tree root cap stream
          { cur := root, rk := c.rk + 1, start := c.rk + 1, n := c.n + 1,
            symOut := c.symOut.write c.n a } := by
  simp only [decodeLoop, h]

/-- The walk from an internal node to an internal node. -/
theorem walk_descend {tree : Vector Node 511} {i : NodeIdx} {b : Bool}
    (hi : (nodeAt tree i).leaf = false) (hn : (nodeAt tree (childOf tree i b)).leaf = false) :
    walk tree i b = .descend (childOf tree i b) := by
  cases b <;> simp_all [walk, childOf]

/-- The walk from an internal node to a leaf. -/
theorem walk_emit {tree : Vector Node 511} {i : NodeIdx} {b : Bool}
    (hi : (nodeAt tree i).leaf = false) (hn : (nodeAt tree (childOf tree i b)).leaf = true) :
    walk tree i b = .emit (nodeAt tree (childOf tree i b)).sym := by
  cases b <;> simp_all [walk, childOf]

/-- The bits of a word that leads from the cursor to the leaf of `a` complete that symbol (R202). -/
theorem decodeLoop_word (tree : Vector Node 511) (root : NodeIdx) (cap : Nat) (b : Bool)
    (w : List Bool) (rest : List Bool) (c : Cursor) (a : Sym)
    (h : leadsToLeaf tree c.cur (b :: w) a = true) :
    decodeLoop tree root cap (b :: w ++ rest) c =
      if c.n = cap then
        ({ c with cur := (decodeLoop tree root cap (b :: w ++ rest) c).1.cur,
                  rk := c.rk + (w.length + 1) }, true)
      else
        decodeLoop tree root cap rest
          { cur := root, rk := c.rk + (w.length + 1), start := c.rk + (w.length + 1), n := c.n + 1,
            symOut := c.symOut.write c.n a } := by
  induction w generalizing b c with
  | nil =>
    simp only [leadsToLeaf, Bool.and_eq_true, Bool.not_eq_true', beq_iff_eq] at h
    obtain ⟨hc, hl, hs⟩ := h
    have hw := decodeLoop_emit (hs ▸ walk_emit hc hl) root cap rest
    rw [List.singleton_append, hw]
    simp only [List.length_nil, Nat.zero_add]
    split <;> rfl
  | cons b2 w ih =>
    simp only [leadsToLeaf, Bool.and_eq_true, Bool.not_eq_true'] at h
    obtain ⟨hc, hn, hrest⟩ := h
    have := ih b2 { c with cur := childOf tree c.cur b, rk := c.rk + 1 }
      (by simp [leadsToLeaf, hn, hrest])
    have hstep : decodeLoop tree root cap (b :: b2 :: w ++ rest) c =
        decodeLoop tree root cap (b2 :: w ++ rest)
          { c with cur := childOf tree c.cur b, rk := c.rk + 1 } := by
      rw [List.cons_append, decodeLoop_descend (walk_descend hc hn)]
    rw [hstep]
    simp only [List.length_cons] at this ⊢
    rw [show c.rk + (w.length + 1 + 1) = c.rk + 1 + (w.length + 1) by omega]
    exact this

/-- The bits of a word that the stream cuts off move the cursor and write nothing (R203). -/
theorem decodeLoop_inside (tree : Vector Node 511) (root : NodeIdx) (cap : Nat) (p : List Bool)
    (c : Cursor) (h : staysInside tree c.cur p = true) :
    ∃ i, decodeLoop tree root cap p c = ({ c with cur := i, rk := c.rk + p.length }, false) ∧
      i = p.foldl (childOf tree) c.cur := by
  induction p generalizing c with
  | nil => exact ⟨c.cur, rfl, rfl⟩
  | cons b p ih =>
    simp only [staysInside, Bool.and_eq_true, Bool.not_eq_true'] at h
    obtain ⟨hc, hp⟩ := h
    have hn : (nodeAt tree (childOf tree c.cur b)).leaf = false := by
      cases p <;> simp_all [staysInside]
    obtain ⟨i, he, hi⟩ := ih { c with cur := childOf tree c.cur b, rk := c.rk + 1 } hp
    refine ⟨i, ?_, hi⟩
    rw [decodeLoop_descend (walk_descend hc hn), he]
    simp only [List.length_cons]
    rw [ show c.rk + (p.length + 1) = c.rk + 1 + p.length by omega]

end Sys2Proof.Machine
end

