-- ==== Sys2Proof/Laws/Writer.lean ====
section
/-!
SUPPORT. The bitstream writer (43_encoder.md R180, R181): what it holds after it has written a bit
sequence, what closing it leaves in BITS, and what the loop of ENCODE does to it.
-/

namespace Sys2Proof.Machine

/-- `w` is the writer opened over the buffer `m` after it has written the bits `l`. -/
structure Writer.Holds (w : Writer) (m : Memory) (l : List Bool) : Prop where
  k : w.k = l.length
  wptr : w.wptr = l.length / 8
  wcnt : w.wcnt = l.length % 8
  wacc : ∀ j, j < 8 → w.wacc.getLsbD j = (decide (j < w.wcnt) && l.getD (l.length - 1 - j) false)
  wf : w.bits.wf = true
  full : ∀ i, i < 8 * w.wptr → streamBit w.bits i = l.getD i false
  rest : ∀ a, w.wptr ≤ a → w.bits.read a = m.read a

/-- An opened writer holds nothing (R182). -/
theorem openWriter_holds {m : Memory} (h : m.wf = true) : (openWriter m).Holds m [] where
  k := rfl
  wptr := rfl
  wcnt := rfl
  wacc := by simp [openWriter]
  wf := h
  full := by simp [openWriter]
  rest := fun _ _ => rfl

/-- The new bit enters WACC at bit 0 and earlier bits move up (R180). -/
theorem getLsbD_shiftIn (x : Byte) (b : Bool) (j : Nat) (hj : j < 8) :
    ((x <<< 1) ||| BitVec.ofNat 8 b.toNat).getLsbD j =
      if j = 0 then b else x.getLsbD (j - 1) := by
  rcases Nat.eq_zero_or_pos j with rfl | h
  · cases b <;> simp
  · obtain ⟨i, rfl⟩ : ∃ i, j = i + 1 := ⟨j - 1, by omega⟩
    have : (BitVec.ofNat 8 b.toNat).getLsbD (i + 1) = false := by
      cases b <;> simp
    rw [BitVec.getLsbD_or, this]
    simp [hj, Nat.lt_of_succ_lt hj]

theorem getD_append_left' (l : List Bool) (b : Bool) {i : Nat} (h : i < l.length) :
    (l ++ [b]).getD i false = l.getD i false := by
  simp [List.getD_eq_getElem?_getD, List.getElem?_append_left h]

theorem getD_append_length (l : List Bool) (b : Bool) : (l ++ [b]).getD l.length false = b := by
  simp

/-- `writeBit(b)` appends one bit (R180). -/
theorem Writer.Holds.writeBit {w : Writer} {m : Memory} {l : List Bool} (h : w.Holds m l)
    (b : Bool) : (w.writeBit b).Holds m (l ++ [b]) := by
  obtain ⟨hk, hp, hc, ha, hwf, hf, hr⟩ := h
  have hacc : ∀ j, j < 8 → j ≤ w.wcnt →
      ((w.wacc <<< 1) ||| BitVec.ofNat 8 b.toNat).getLsbD j =
        (l ++ [b]).getD (l.length - j) false := by
    intro j hj hle
    rw [getLsbD_shiftIn _ _ _ hj]
    split
    · subst j; simp
    · rw [ha (j - 1) (by omega), decide_eq_true (by omega), Bool.true_and,
        getD_append_left' l b (by omega)]
      congr 1; omega
  unfold Writer.writeBit
  split
  · rename_i hfull
    refine ⟨by simp [hk], by simp; omega, by simp; omega, by simp, Memory.wf_write hwf _ _, ?_, ?_⟩
    · intro i hi
      simp only at hi ⊢
      simp only [streamBit, Memory.read_write hwf]
      split
      · rw [hacc (7 - i % 8) (by omega) (by omega)]
        congr 1; omega
      · have : i < 8 * w.wptr := by omega
        rw [getD_append_left' l b (by omega)]
        exact hf i this
    · intro a hle
      simp only at hle
      rw [Memory.read_write_other hwf _ (by omega)]
      exact hr a (by omega)
  · rename_i hpart
    refine ⟨by simp [hk], by simp; omega, by simp; omega, ?_, hwf, ?_, fun a hle => hr a hle⟩
    · intro j hj
      simp only [List.length_append, List.length_singleton, Nat.add_sub_cancel]
      by_cases hle : j ≤ w.wcnt
      · rw [hacc j hj hle, decide_eq_true (by omega), Bool.true_and]
      · rw [getLsbD_shiftIn _ _ _ hj, if_neg (by omega), ha _ (by omega),
          decide_eq_false (by omega), decide_eq_false (by omega)]
        simp
    · intro i hi
      simp only at hi ⊢
      rw [getD_append_left' l b (by omega)]
      exact hf i hi

/-- What `closeWriter()` leaves (R181): the bits written, zero padding up to the byte, and every byte
from WPTR on untouched. -/
theorem Writer.Holds.close {w : Writer} {m : Memory} {l : List Bool} (h : w.Holds m l) :
    w.close.k = l.length ∧ w.close.wptr = (l.length + 7) / 8 ∧ w.close.bits.wf = true ∧
      (∀ i, i < 8 * ((l.length + 7) / 8) → streamBit w.close.bits i = l.getD i false) ∧
      ∀ a, (l.length + 7) / 8 ≤ a → w.close.bits.read a = m.read a := by
  obtain ⟨hk, hp, hc, ha, hwf, hf, hr⟩ := h
  unfold Writer.close
  split
  · rename_i hpos
    refine ⟨hk, by simp only; omega, Memory.wf_write hwf _ _, ?_, ?_⟩
    · intro i hi
      simp only [streamBit, Memory.read_write hwf]
      split
      · simp only [BitVec.getLsbD_shiftLeft]
        rw [ha _ (by omega)]
        by_cases hlt : i < l.length
        · have h1 : ¬ 7 - i % 8 < 8 - w.wcnt := by omega
          have h2 : 7 - i % 8 - (8 - w.wcnt) < w.wcnt := by omega
          have h3 : l.length - 1 - (7 - i % 8 - (8 - w.wcnt)) = i := by omega
          simp only [h1, h2, h3, decide_true, decide_false, Bool.not_false, Bool.true_and]
          rw [decide_eq_true (by omega)]
          simp only [Bool.true_and]
        · have h1 : 7 - i % 8 < 8 - w.wcnt := by omega
          have h2 : l.getD i false = false := List.getD_eq_default _ _ (by omega)
          rw [h2]
          simp [h1]
      · have := hf i (by omega)
        simpa only [streamBit] using this
    · intro a hle
      rw [Memory.read_write_other hwf _ (by omega)]
      exact hr a (by omega)
  · refine ⟨hk, by simp only; omega, hwf, fun i hi => hf i (by omega), fun a hle => hr a (by omega)⟩

/-- `writeWord` writes the whole code word where it fits in `room` bits, and otherwise the bits that
fit (R182, R184). -/
theorem Writer.Holds.writeWord {w : Writer} {m : Memory} {l : List Bool} (h : w.Holds m l)
    {room : Nat} (hroom : l.length ≤ room) (c : List Bool) :
    if l.length + c.length ≤ room then
      ∃ w', w.writeWord room c = (w', false) ∧ w'.Holds m (l ++ c)
    else ∃ w', w.writeWord room c = (w', true) ∧ w'.Holds m ((l ++ c).take room) := by
  induction c generalizing w l with
  | nil => simpa [Writer.writeWord, hroom] using h
  | cons b c ih =>
    unfold Writer.writeWord
    by_cases hk : w.k = room
    · rw [if_pos hk, if_neg (by simp only [List.length_cons]; have := h.k; omega)]
      refine ⟨w, rfl, ?_⟩
      rwa [List.take_left' (by rw [← h.k, hk])]
    · rw [if_neg hk]
      have hk' := h.k
      have := ih (h.writeBit b) (by simp; omega)
      simp only [List.length_append, List.length_singleton, List.append_assoc,
        List.singleton_append] at this
      simpa only [List.length_cons, Nat.add_assoc, Nat.add_comm 1] using this

end Sys2Proof.Machine
end

