-- ==== Sys2Proof/Laws/Encoder.lean ====
section
/-!
SUPPORT. The loop of ENCODE (43_encoder.md R182): where it stops and what it has written by then.
-/

namespace Sys2Proof.Machine

@[simp] theorem streamOf_nil (code : Vector CodeEntry 256) : streamOf code [] = [] := rfl

@[simp] theorem streamOf_cons (code : Vector CodeEntry 256) (a : Sym) (input : List Sym) :
    streamOf code (a :: input) = (entryOf code a).word ++ streamOf code input := rfl

theorem streamOf_append (code : Vector CodeEntry 256) (u v : List Sym) :
    streamOf code (u ++ v) = streamOf code u ++ streamOf code v := by
  simp [streamOf]

/-- The loop from position `i` on with a writer that holds `l`, by the three ways it ends: the whole
stream is written; it stops at the first symbol without a code word (R183); it stops at the first bit
that does not fit (R184). -/
inductive EncodeEnds (code : Vector CodeEntry 256) (room : Nat) (m : Memory) (l : List Bool)
    (i : Nat) (input : List Sym) (r : Writer × Option (ErrCode × Nat)) : Prop
  | whole (w : Writer) (hr : r = (w, none)) (hcoded : allCoded code input = true)
      (hfit : l.length + (streamOf code input).length ≤ room)
      (hw : w.Holds m (l ++ streamOf code input))
  | unknown (w : Writer) (done : List Sym) (a : Sym) (rest : List Sym)
      (hr : r = (w, some (.lookupFail, i + done.length))) (hsplit : input = done ++ a :: rest)
      (hcoded : allCoded code done = true) (hbad : (entryOf code a).valid = false)
      (hfit : l.length + (streamOf code done).length ≤ room)
      (hw : w.Holds m (l ++ streamOf code done))
  | full (w : Writer) (done : List Sym) (a : Sym) (rest : List Sym)
      (hr : r = (w, some (.overflow, i + done.length))) (hsplit : input = done ++ a :: rest)
      (hcoded : allCoded code (done ++ [a]) = true)
      (hfit : l.length + (streamOf code done).length ≤ room)
      (hover : room < l.length + (streamOf code (done ++ [a])).length)
      (hw : w.Holds m ((l ++ streamOf code (done ++ [a])).take room))

/-- Every run of the loop ends in one of the three ways. -/
theorem encodeLoop_ends (code : Vector CodeEntry 256) (room : Nat) (m : Memory) (l : List Bool)
    (i : Nat) (input : List Sym) (w : Writer) (hw : w.Holds m l) (hroom : l.length ≤ room) :
    EncodeEnds code room m l i input (encodeLoop code room i input w) := by
  induction input generalizing i w l with
  | nil => exact .whole w rfl rfl (by simpa using hroom) (by simpa using hw)
  | cons a input ih =>
    unfold encodeLoop
    by_cases hv : (entryOf code a).valid = true
    · have h := hw.writeWord hroom (entryOf code a).word
      simp only [hv, if_true]
      by_cases hf : l.length + (entryOf code a).word.length ≤ room
      · rw [if_pos hf] at h
        obtain ⟨w', he, hw'⟩ := h
        rw [he]
        simp only
        have := ih (l ++ (entryOf code a).word) (i + 1) w' hw' (by simpa using hf)
        cases this with
        | whole w2 hr hcoded hfit hw2 =>
          refine .whole w2 hr ?_ ?_ ?_
          · simpa [allCoded, hv] using hcoded
          · simpa [Nat.add_assoc] using hfit
          · simpa using hw2
        | unknown w2 done b rest hr hsplit hcoded hbad hfit hw2 =>
          refine .unknown w2 (a :: done) b rest ?_ ?_ ?_ hbad ?_ ?_
          · rw [hr, List.length_cons, Nat.add_right_comm, Nat.add_assoc]
          · rw [hsplit, List.cons_append]
          · simpa [allCoded, hv] using hcoded
          · simpa [Nat.add_assoc] using hfit
          · simpa using hw2
        | full w2 done b rest hr hsplit hcoded hfit hover hw2 =>
          refine .full w2 (a :: done) b rest ?_ ?_ ?_ ?_ ?_ ?_
          · rw [hr, List.length_cons, Nat.add_right_comm, Nat.add_assoc]
          · rw [hsplit, List.cons_append]
          · simpa [allCoded, hv] using hcoded
          · simpa [Nat.add_assoc] using hfit
          · simpa [Nat.add_assoc] using hover
          · simpa using hw2
      · rw [if_neg hf] at h
        obtain ⟨w', he, hw'⟩ := h
        rw [he]
        refine .full w' [] a input rfl rfl (by simpa [allCoded] using hv) (by simpa using hroom)
          ?_ (by simpa using hw')
        simp only [List.nil_append, streamOf_cons, streamOf_nil, List.append_nil]
        omega
    · rw [if_neg hv]
      exact .unknown w [] a input rfl rfl rfl (by simpa using hv) (by simpa using hroom)
        (by simpa using hw)

end Sys2Proof.Machine
end

