-- ==== Sys2Proof/Laws/Merge.lean ====
section
/-!
SUPPORT. The merge queue of BUILD (41_priority_queue_merge.md R140 to R143, R150): which node a removal
takes, what one pass does, and the induction over the passes.
-/

namespace Sys2Proof.Machine

/-- The pass over PQ keeps the less of the best so far and the next node. -/
theorem foldl_best (made : List Node) (pq : List Nat) (i : Nat) :
    let r := pq.foldl (fun best j => if queuesBefore made j best then j else best) i
    (r = i ∨ r ∈ pq) ∧ queuesBefore made i r = false ∧ ∀ j ∈ pq, queuesBefore made j r = false := by
  induction pq generalizing i with
  | nil => simp [queuesBefore]
  | cons k pq ih =>
    simp only [List.foldl_cons]
    have htrans : ∀ x y z, queuesBefore made x y = false → queuesBefore made y z = false →
        queuesBefore made x z = false := by
      intro x y z hxy hyz
      simp only [queuesBefore, Bool.or_eq_false_iff, Bool.and_eq_false_iff, decide_eq_false_iff_not,
        beq_eq_false_iff_ne] at *
      omega
    by_cases hk : queuesBefore made k i = true
    · rw [if_pos hk]
      obtain ⟨h1, h2, h3⟩ := ih k
      have hik : queuesBefore made i k = false := by
        simp only [queuesBefore, Bool.or_eq_true, Bool.and_eq_true, decide_eq_true_eq, beq_iff_eq,
          Bool.or_eq_false_iff, Bool.and_eq_false_iff, decide_eq_false_iff_not,
          beq_eq_false_iff_ne] at *
        omega
      refine ⟨?_, htrans _ _ _ hik h2, ?_⟩
      · rcases h1 with h1 | h1
        · exact .inr (by simp [h1])
        · exact .inr (by simp [h1])
      · intro j hj
        rcases List.mem_cons.1 hj with rfl | hj
        · exact h2
        · exact h3 j hj
    · rw [if_neg hk]
      obtain ⟨h1, h2, h3⟩ := ih i
      refine ⟨?_, h2, ?_⟩
      · rcases h1 with h1 | h1
        · exact .inl h1
        · exact .inr (by simp [h1])
      · intro j hj
        rcases List.mem_cons.1 hj with rfl | hj
        · exact htrans _ _ _ (by simpa using hk) h2
        · exact h3 j hj

/-- A removal takes a node of PQ. -/
theorem leastOf_mem (made : List Node) {pq : List Nat} (h : pq ≠ []) : leastOf made pq ∈ pq := by
  cases pq with
  | nil => exact absurd rfl h
  | cons i pq =>
    rcases (foldl_best made pq i).1 with h | h
    · simp [leastOf, h]
    · simp only [leastOf, List.mem_cons]; exact .inr h

/-- No node of PQ comes before the one a removal takes (R142). -/
theorem leastOf_least (made : List Node) {pq : List Nat} {j : Nat} (h : j ∈ pq) :
    queuesBefore made j (leastOf made pq) = false := by
  cases pq with
  | nil => simp at h
  | cons i pq =>
    obtain ⟨-, h2, h3⟩ := foldl_best made pq i
    rcases List.mem_cons.1 h with rfl | h
    · exact h2
    · exact h3 j h

/-- PQ names records made so far, each at most once. -/
structure MergeQueue.Ok (q : MergeQueue) : Prop where
  nodup : q.pq.Nodup
  below : ∀ i ∈ q.pq, i < q.made.length

theorem mergeOnce_made (q : MergeQueue) :
    (mergeOnce q).made = q.made ++
      [mergedNode q.made (leastOf q.made q.pq)
        (leastOf q.made (q.pq.erase (leastOf q.made q.pq)))] := rfl

/-- One pass adds one record. -/
@[simp] theorem mergeOnce_length (q : MergeQueue) :
    (mergeOnce q).made.length = q.made.length + 1 := by simp [mergeOnce_made]

/-- One pass shrinks PQ by one (R150). -/
theorem mergeOnce_pq_length {q : MergeQueue} (h : 1 < q.pq.length) :
    (mergeOnce q).pq.length + 1 = q.pq.length := by
  have hne : q.pq ≠ [] := by rintro e; simp [e] at h
  have h1 := List.length_erase_of_mem (leastOf_mem q.made hne)
  have hne2 : q.pq.erase (leastOf q.made q.pq) ≠ [] := by
    intro e; rw [e] at h1; simp at h1; omega
  have h2 := List.length_erase_of_mem (leastOf_mem q.made hne2)
  simp only [mergeOnce, List.length_append, List.length_singleton]
  omega

/-- One pass keeps PQ in order. -/
theorem MergeQueue.Ok.mergeOnce {q : MergeQueue} (h : q.Ok) : (mergeOnce q).Ok where
  nodup := by
    refine List.Nodup.append ((h.nodup.erase _).erase _) (List.nodup_singleton _) ?_
    intro i hi hj
    have := h.below i (List.mem_of_mem_erase (List.mem_of_mem_erase hi))
    simp only [nextIndex, List.mem_singleton] at hj
    omega
  below := by
    intro i hi
    rw [mergeOnce_length]
    rcases List.mem_append.1 hi with hi | hi
    · have := h.below i (List.mem_of_mem_erase (List.mem_of_mem_erase hi)); omega
    · simp only [nextIndex, List.mem_singleton] at hi; omega

/-- What holds before the loop and is kept by every pass holds after it. -/
theorem mergeLoop_induct {P : MergeQueue → Prop}
    (hstep : ∀ q, P q → 1 < q.pq.length → P (mergeOnce q)) (n : Nat) {q : MergeQueue} (h : P q) :
    P (mergeLoop n q) := by
  induction n generalizing q with
  | zero => exact h
  | succ n ih =>
    unfold mergeLoop
    split
    · exact ih (hstep q h ‹_›)
    · exact h

/-- Given enough passes, the loop ends with one node in PQ (R150) and one record more for each pass. -/
theorem mergeLoop_ends (n : Nat) {q : MergeQueue} (h : 1 ≤ q.pq.length) (hn : q.pq.length ≤ n + 1) :
    (mergeLoop n q).pq.length = 1 ∧
      (mergeLoop n q).made.length + 1 = q.made.length + q.pq.length := by
  induction n generalizing q with
  | zero => simp only [mergeLoop]; omega
  | succ n ih =>
    unfold mergeLoop
    split
    · have h1 := mergeOnce_pq_length ‹1 < q.pq.length›
      obtain ⟨h2, h3⟩ := ih (q := mergeOnce q) (by omega) (by omega)
      refine ⟨h2, ?_⟩
      rw [h3, mergeOnce_length]; omega
    · omega

end Sys2Proof.Machine
end

