-- ==== Sys2Proof/Laws/PerInstr.lean ====
section
/-!
SUPPORT. Statements about every command as syntax, one lemma per constructor (30_encoding.md R106).
-/

namespace Sys2Proof.Laws.LegalWord

/-- The command word of a command is legal: its OP is defined and its must-be-zero fields are zero
(R107, R108). -/
def Statement (i : Instr) : Prop := (fieldsOf (encode i)).wellFormed = true

theorem nop : Statement .nop := rfl
theorem count : Statement .count := rfl
theorem build : Statement .build := rfl
theorem table : Statement .table := rfl
theorem encode : Statement .encode := rfl
theorem decode : Statement .decode := rfl
theorem compress : Statement .compress := rfl

theorem lookup (sym : Sym) : Statement (.lookup sym) := by
  have h : fieldsOf (Sys2Proof.encode (.lookup sym)) =
      { op := 7, rsv0 := 0, sym := sym, rsv1 := 0 } := by
    simp only [fieldsOf, Sys2Proof.encode, CmdFields.mk.injEq]
    refine ⟨?_, ?_, ?_, ?_⟩ <;>
    · apply BitVec.eq_of_getLsbD_eq
      intro j hj
      simp only [BitVec.getLsbD_extractLsb', BitVec.getLsbD_or, BitVec.getLsbD_shiftLeft,
        BitVec.getLsbD_setWidth]
      interval_cases j <;> simp
  unfold Statement
  rw [h]
  simp [CmdFields.wellFormed, CmdFields.opDefined, CmdFields.reservedZero, CmdFields.symAllowed]

theorem clear : Statement .clear := rfl

end Sys2Proof.Laws.LegalWord
end

