-- ==== Sys2Proof/Laws/Port.lean ====
section
/-!
SUPPORT. The host port (20_memory.md R73 to R77): an aligned access by its offset, the offsets of the
windows, and what an access can change.
-/

namespace Sys2Proof.Machine

/-- An aligned 32-bit access to an offset of the region reaches what the offset names (R73, R75). -/
theorem hostAccess_offset (s : State) {off : Nat} (h : off < 0x400000) (h4 : off % 4 = 0)
    (op : AccessOp) :
    hostAccess { addr := s.params.hufBase + off, width := 4, op := op } s =
      accessTarget (targetOf off) op s := by
  unfold hostAccess
  rw [if_pos (by simp [hits, h]), if_pos (by simp [Access.aligned, Params.hufBase]; omega)]
  simp [offsetOf]

/-- A host read at an offset of the region (R73, R75). -/
theorem hostRead_eq (s : State) {off : Nat} (h : off < 0x400000) (h4 : off % 4 = 0) :
    hostRead off s = respondRead (.readOk (readTarget s (targetOf off))) s :=
  hostAccess_offset s h h4 .read

/-- A host write at an offset of the region (R73, R75). -/
theorem hostWrite_eq (s : State) {off : Nat} (h : off < 0x400000) (h4 : off % 4 = 0) (v : Word) :
    hostWrite off v s = respondWrite .writeOk (writeTarget v s (targetOf off)) :=
  hostAccess_offset s h h4 (.write v)

/-- A number below `2 ^ n` is the number of its bit vector. -/
theorem ofNat_eq_of_toNat {n k : Nat} {x : BitVec n} (h : k = x.toNat) : BitVec.ofNat n k = x := by
  rw [h]; exact BitVec.ofNat_toNat n x |>.trans (BitVec.setWidth_eq x)

/-- Below the buffer windows the map is that of the registers and tables (R75). -/
theorem targetOf_low {off : Nat} (h : off < 0x100000) : targetOf off = tableTarget off := if_pos h

/-- The offset of a register below LK_BITS0 (10_state.md section 4). -/
theorem targetOf_reg {off : Nat} (h : off < 0x40) :
    targetOf off = .reg (regList.getD (off / 4) .id) := by
  rw [targetOf_low (by omega)]
  exact if_pos h

/-- The offset of a LK_BITS register (R42). -/
theorem targetOf_lkBits (k : Fin 8) : targetOf (0x40 + 4 * k.val) = .reg (.lkBits k) := by
  revert k; decide

/-- The offset of a FREQ entry (R45). -/
theorem targetOf_freq (a : Sym) : targetOf (0x400 + 4 * a.toNat) = .freq a := by
  have h : a.toNat < 256 := a.isLt
  rw [targetOf_low (by omega)]
  unfold tableTarget
  repeat rw [if_neg (by omega)]
  rw [if_pos (by omega), ofNat_eq_of_toNat (x := a) (by omega)]

/-- The offset of a word of a TREE record (R47). -/
theorem targetOf_tree {i : NodeIdx} (h : i.toNat < 511) (w : Fin 4) :
    targetOf (0x2000 + 16 * i.toNat + 4 * w.val) = .treeWord i w := by
  have hw : w.val < 4 := w.isLt
  have e : Fin.ofNat 4 ((0x2000 + 16 * i.toNat + 4 * w.val) % 16 / 4) = w :=
    Fin.ext (by simp only [Fin.ofNat]; omega)
  rw [targetOf_low (by omega)]
  unfold tableTarget
  repeat rw [if_neg (by omega)]
  rw [if_pos (by omega), e, ofNat_eq_of_toNat (x := i) (by omega)]

/-- The offset of a CODE_LEN word (R48). -/
theorem targetOf_codeLen (a : Sym) : targetOf (0x4000 + 4 * a.toNat) = .codeLen a := by
  have h : a.toNat < 256 := a.isLt
  rw [targetOf_low (by omega)]
  unfold tableTarget
  repeat rw [if_neg (by omega)]
  rw [if_pos (by omega), ofNat_eq_of_toNat (x := a) (by omega)]

/-- The offset of a CODE_BITS word (R48). -/
theorem targetOf_codeBits (a : Sym) (k : Fin 8) :
    targetOf (0x6000 + 32 * a.toNat + 4 * k.val) = .codeBits a k := by
  have h : a.toNat < 256 := a.isLt
  have hk : k.val < 8 := k.isLt
  have e : Fin.ofNat 8 ((0x6000 + 32 * a.toNat + 4 * k.val) % 32 / 4) = k :=
    Fin.ext (by simp only [Fin.ofNat]; omega)
  rw [targetOf_low (by omega)]
  unfold tableTarget
  repeat rw [if_neg (by omega)]
  rw [if_pos (by omega), e, ofNat_eq_of_toNat (x := a) (by omega)]

/-- The offset of a word of a buffer window (R75). -/
theorem targetOf_window (b : BufferId) {w : Nat} (h : w < 2 ^ 18) :
    targetOf (windowBase b + 4 * w) = .buffer b (4 * w) := by
  have hd : (windowBase b + 4 * w) / 0x100000 = windowBase b / 0x100000 := by
    cases b <;> simp only [windowBase] <;> omega
  have hm : (windowBase b + 4 * w) % 0x100000 = 4 * w := by
    cases b <;> simp only [windowBase] <;> omega
  have hb : windowBuffer (windowBase b + 4 * w) = b := by
    unfold windowBuffer; rw [hd]; cases b <;> rfl
  unfold targetOf
  rw [if_neg (by cases b <;> simp only [windowBase] <;> omega), hb, hm]

/-- A reserved offset names nothing (R76). -/
theorem targetOf_reserved {off : Nat} (h : reservedOffset off = true) : targetOf off = .reserved := by
  simp only [reservedOffset, Bool.or_eq_true, Bool.and_eq_true, decide_eq_true_eq] at h
  rw [targetOf_low (by omega)]
  unfold tableTarget
  split_ifs <;> first | rfl | omega

/-- The fields of a STATUS word (R22 to R30). -/
theorem statusOf_fields (busy done empty treeValid tableValid overrun : Bool) (e : ErrCode) :
    let v := statusOf busy done empty treeValid tableValid overrun e
    v.getLsbD 0 = busy ∧ v.getLsbD 1 = done ∧ v.getLsbD 2 = e.isError ∧ v.getLsbD 3 = empty ∧
      v.getLsbD 4 = treeValid ∧ v.getLsbD 5 = tableValid ∧ v.getLsbD 6 = overrun ∧
      v.getLsbD 7 = false ∧ v.extractLsb' 8 8 = e.code ∧ v.extractLsb' 16 16 = 0#16 := by
  cases e <;> revert busy done empty treeValid tableValid overrun <;> decide

/-- The fields of a number made of a node's link, symbol and leaf fields (R47). -/
theorem fields_of_record {l r a f : Nat} (hl : l < 2 ^ 9) (hr : r < 2 ^ 9) (ha : a < 2 ^ 8)
    (hf : f < 2) :
    let n := (l + r * 2 ^ 9 + a * 2 ^ 18 + f * 2 ^ 31) % 2 ^ 32
    n / 2 ^ 0 % 2 ^ 9 = l ∧ n / 2 ^ 9 % 2 ^ 9 = r ∧ n / 2 ^ 18 % 2 ^ 8 = a ∧
      n / 2 ^ 26 % 2 ^ 5 = 0 ∧ n / 2 ^ 31 % 2 = f := by
  have h : l + r * 2 ^ 9 + a * 2 ^ 18 + f * 2 ^ 31 < 2 ^ 32 := by omega
  simp only [Nat.mod_eq_of_lt h]
  refine ⟨by omega, by omega, by omega, by omega, by omega⟩

/-- The fields of the word W2 of a TREE record (R47). -/
theorem treeRecordWord_two (nd : Node) :
    let v := treeRecordWord nd 2
    v.extractLsb' 0 9 = nd.left ∧ v.extractLsb' 9 9 = nd.right ∧ v.extractLsb' 18 8 = nd.sym ∧
      v.extractLsb' 26 5 = 0#5 ∧ v.getLsbD 31 = nd.leaf := by
  obtain ⟨e0, e1, e2, e3, e4⟩ :=
    fields_of_record nd.left.isLt nd.right.isLt nd.sym.isLt (Bool.toNat_lt nd.leaf)
  have e : (treeRecordWord nd 2).toNat = (nd.left.toNat + nd.right.toNat * 2 ^ 9 +
      nd.sym.toNat * 2 ^ 18 + nd.leaf.toNat * 2 ^ 31) % 2 ^ 32 := by
    simp only [treeRecordWord, BitVec.toNat_ofNat]
  refine ⟨BitVec.eq_of_toNat_eq ?_, BitVec.eq_of_toNat_eq ?_, BitVec.eq_of_toNat_eq ?_,
    BitVec.eq_of_toNat_eq ?_, ?_⟩
  · rw [BitVec.extractLsb'_toNat, Nat.shiftRight_eq_div_pow, e, e0]
  · rw [BitVec.extractLsb'_toNat, Nat.shiftRight_eq_div_pow, e, e1]
  · rw [BitVec.extractLsb'_toNat, Nat.shiftRight_eq_div_pow, e, e2]
  · rw [BitVec.extractLsb'_toNat, Nat.shiftRight_eq_div_pow, e, e3, BitVec.toNat_ofNat,
      Nat.zero_mod]
  · rw [BitVec.getLsbD, Nat.testBit_eq_decide_div_mod_eq, e, e4]
    cases nd.leaf <;> rfl

/-- The fields of the word W1 of a TREE record (R47). -/
theorem treeRecordWord_one (nd : Node) :
    let v := treeRecordWord nd 1
    v.extractLsb' 0 8 = nd.weight.extractLsb' 32 8 ∧ v.extractLsb' 8 24 = 0#24 := by
  constructor <;>
  · apply BitVec.eq_of_getLsbD_eq
    intro j hj
    interval_cases j <;> simp [treeRecordWord]

/-- The fields of a CODE_LEN word (R48). -/
theorem codeLenWord_fields (e : CodeEntry) :
    let v := codeLenWord e
    v.extractLsb' 0 8 = e.len ∧ v.extractLsb' 8 23 = 0#23 ∧ v.getLsbD 31 = e.valid := by
  obtain ⟨h0, h1, h2⟩ : let n := (e.len.toNat + e.valid.toNat * 2 ^ 31) % 2 ^ 32
      n / 2 ^ 0 % 2 ^ 8 = e.len.toNat ∧ n / 2 ^ 8 % 2 ^ 23 = 0 ∧ n / 2 ^ 31 % 2 = e.valid.toNat := by
    have hl : e.len.toNat < 2 ^ 8 := e.len.isLt
    have hv := Bool.toNat_lt e.valid
    refine ⟨by omega, by omega, by omega⟩
  have h : (codeLenWord e).toNat = (e.len.toNat + e.valid.toNat * 2 ^ 31) % 2 ^ 32 := by
    simp only [codeLenWord, BitVec.toNat_ofNat]
  refine ⟨BitVec.eq_of_toNat_eq ?_, BitVec.eq_of_toNat_eq ?_, ?_⟩
  · rw [BitVec.extractLsb'_toNat, Nat.shiftRight_eq_div_pow, h, h0]
  · rw [BitVec.extractLsb'_toNat, Nat.shiftRight_eq_div_pow, h, h1, BitVec.toNat_ofNat, Nat.zero_mod]
  · rw [BitVec.getLsbD, Nat.testBit_eq_decide_div_mod_eq, h, h2]
    cases e.valid <;> rfl

theorem readTarget_idle {s : State} (h : s.seq = .idle) (t : Target) :
    readTarget s t = readIdle s t := by
  rw [readTarget, h]

theorem readTarget_busy {s : State} {w : Word} {hold : Nat} (h : s.seq = .busy w hold) (t : Target) :
    readTarget s t = readBusy s (Config.freeWord s.draws) t := by
  rw [readTarget, h]

/-- A read that returns the same value while idle and while busy. -/
theorem readTarget_always {s : State} {t : Target} {v : Word} (hi : readIdle s t = v)
    (hb : ∀ free, readBusy s free t = v) : readTarget s t = v := by
  unfold readTarget
  split
  · exact hi
  · exact hb _

/-- Byte `j` of a number of four bytes. -/
theorem byte_of_sum {x0 x1 x2 x3 : Nat} (h0 : x0 < 256) (h1 : x1 < 256) (h2 : x2 < 256)
    (h3 : x3 < 256) :
    let n := (x0 + x1 * 256 + x2 * 65536 + x3 * 16777216) % 4294967296
    n % 256 = x0 ∧ n / 256 % 256 = x1 ∧ n / 65536 % 256 = x2 ∧ n / 16777216 % 256 = x3 := by
  omega

/-- Byte `j` of the word of four bytes (R70). -/
theorem extractLsb'_wordOf (byteAt : Nat → Byte) {j : Nat} (h : j < 4) :
    (wordOf byteAt).extractLsb' (8 * j) 8 = byteAt j := by
  obtain ⟨e0, e1, e2, e3⟩ :=
    byte_of_sum (byteAt 0).isLt (byteAt 1).isLt (byteAt 2).isLt (byteAt 3).isLt
  apply BitVec.eq_of_toNat_eq
  rw [BitVec.extractLsb'_toNat, wordOf, BitVec.toNat_ofNat, Nat.shiftRight_eq_div_pow]
  match j, h with
  | 0, _ => simpa using e0
  | 1, _ => exact e1
  | 2, _ => exact e2
  | 3, _ => exact e3

/-- One byte of a host word write keeps the canonical form, and writes that byte alone (R77). -/
theorem writeWindowByte_spec {m : Memory} (h : m.wf = true) (cap first : Nat) (v : Word) (j : Nat) :
    (writeWindowByte cap first v j m).wf = true ∧
      ∀ a, (writeWindowByte cap first v j m).read a =
        if a = first + j ∧ first + j < cap then byteOf v j else m.read a := by
  unfold writeWindowByte
  by_cases hc : first + j < cap
  · rw [if_pos hc]
    refine ⟨Memory.wf_write h _ _, fun a => ?_⟩
    rw [Memory.read_write h]
    simp only [hc, and_true]
  · rw [if_neg hc]
    exact ⟨h, fun a => by rw [if_neg (fun h' => hc h'.2)]⟩

/-- What a byte reads as after a host word write to a window (R70, R77). -/
theorem read_writeWindow {m : Memory} (h : m.wf = true) (cap first : Nat) (v : Word) (a : Nat) :
    (writeWindow cap first v m).read a =
      if first ≤ a ∧ a < first + 4 ∧ a < cap then byteOf v (a - first) else m.read a := by
  have h0 := writeWindowByte_spec h cap first v 0
  have h1 := writeWindowByte_spec h0.1 cap first v 1
  have h2 := writeWindowByte_spec h1.1 cap first v 2
  have h3 := writeWindowByte_spec h2.1 cap first v 3
  unfold writeWindow
  rw [h3.2, h2.2, h1.2, h0.2]
  by_cases hc : first ≤ a ∧ a < first + 4 ∧ a < cap
  · obtain ⟨k, rfl⟩ : ∃ k, a = first + k := ⟨a - first, by omega⟩
    have hk : k < 4 := by omega
    have h4 := hc.2.2
    rw [if_pos hc]
    interval_cases k <;> simp_all
  · rw [if_neg hc]
    repeat rw [if_neg (by omega)]

/-- A host write while busy reaches only CTRL, STATUS and OVERRUN (R44, R46, R51, R220). -/
theorem writeTarget_busy {s : State} {w : Word} {hold : Nat} (h : s.seq = .busy w hold) (v : Word)
    (t : Target) :
    writeTarget v s t = s ∨ writeTarget v s t = { s with ie := v.getLsbD 0 } ∨
      writeTarget v s t = writeStatus v s ∨ writeTarget v s t = { s with overrun := true } := by
  have hb : s.isBusy = true := by simp only [State.isBusy, h]
  cases t with
  | reg r => cases r <;> simp [writeTarget, writeReg, writeCmd, h, hb]
  | freq a => exact .inl (by simp only [writeTarget, writeFreq, hb, if_true])
  | buffer b first => exact .inl (by simp only [writeTarget, writeBuffer, hb, if_true])
  | treeWord => exact .inl rfl
  | codeLen => exact .inl rfl
  | codeBits => exact .inl rfl
  | reserved => exact .inl rfl

/-- A host write while idle (R32 to R46, R51, R220): it is ignored, it sets one register, it clears
STATUS bits, it is accepted as a command, it sets a FREQ entry and clears the valid flags, or it writes
a word of SYM_IN or BITS. -/
theorem writeTarget_idle {s : State} (h : s.seq = .idle) (v : Word) (t : Target) :
    writeTarget v s t = s ∨ writeTarget v s t = { s with ie := v.getLsbD 0 } ∨
      writeTarget v s t = writeStatus v s ∨
      writeTarget v s t = accept v (Config.latency s.draws) { s with draws := s.draws + 1 } ∨
      writeTarget v s t = { s with inLen := v } ∨ writeTarget v s t = { s with decBits := v } ∨
      (∃ a, writeTarget v s t =
        { s with freq := setEntry s.freq a v, treeValid := false, tableValid := false }) ∨
      (∃ first, writeTarget v s t =
        { s with symIn := writeWindow s.params.maxSyms first v s.symIn }) ∨
      ∃ first, writeTarget v s t =
        { s with bits := writeWindow s.params.bitBufBytes first v s.bits } := by
  have hb : s.isBusy = false := by simp only [State.isBusy, h]
  cases t with
  | reg r =>
    cases r with
    | ctrl => exact .inr (.inl rfl)
    | status => exact .inr (.inr (.inl rfl))
    | cmd => exact .inr (.inr (.inr (.inl (by simp only [writeTarget, writeReg, writeCmd, h]))))
    | inLen =>
      exact .inr (.inr (.inr (.inr (.inl (by simp [writeTarget, writeReg, hb])))))
    | decBits =>
      exact .inr (.inr (.inr (.inr (.inr (.inl (by simp [writeTarget, writeReg, hb]))))))
    | _ => exact .inl rfl
  | freq a =>
    exact .inr (.inr (.inr (.inr (.inr (.inr (.inl ⟨a, by simp [writeTarget, writeFreq, hb]⟩))))))
  | buffer b first =>
    cases b with
    | symIn =>
      exact .inr (.inr (.inr (.inr (.inr (.inr (.inr (.inl
        ⟨first, by simp [writeTarget, writeBuffer, hb]⟩)))))))
    | bits =>
      exact .inr (.inr (.inr (.inr (.inr (.inr (.inr (.inr
        ⟨first, by simp [writeTarget, writeBuffer, hb]⟩)))))))
    | symOut => exact .inl (by simp [writeTarget, writeBuffer])
  | treeWord => exact .inl rfl
  | codeLen => exact .inl rfl
  | codeBits => exact .inl rfl
  | reserved => exact .inl rfl

/-- Everything a host access can do: it writes, in which case only the response is added to what the
write does, or it changes only the response and the draw counter. -/
theorem hostAccess_cases (a : Access) (s : State) :
    (∃ v t, hostAccess a s = respondWrite .writeOk (writeTarget v s t)) ∨
      ∃ resp draws, hostAccess a s = { s with resp := resp, draws := draws } := by
  unfold hostAccess
  split
  · split
    · cases a.op with
      | read => exact .inr ⟨_, _, rfl⟩
      | write v => exact .inl ⟨v, _, rfl⟩
    · cases a.op with
      | read => exact .inr ⟨_, _, rfl⟩
      | write v => exact .inr ⟨_, s.draws, rfl⟩
  · exact .inr ⟨none, s.draws, rfl⟩

end Sys2Proof.Machine
end

