-- ==== Sys2Proof/Laws/State.lean ====
section
/-!
SUPPORT. One lemma per field per shared update of the state: what the update does to the field.
-/

namespace Sys2Proof.Machine

/-! Acceptance (45_control.md R220). -/

section
variable (v : Word) (hold : Nat) (s : State)

@[simp] theorem accept_params : (accept v hold s).params = s.params := rfl
@[simp] theorem accept_seq : (accept v hold s).seq = .busy v hold := rfl
@[simp] theorem accept_ie : (accept v hold s).ie = s.ie := rfl
@[simp] theorem accept_done : (accept v hold s).done = false := rfl
@[simp] theorem accept_empty : (accept v hold s).empty = s.empty := rfl
@[simp] theorem accept_treeValid : (accept v hold s).treeValid = s.treeValid := rfl
@[simp] theorem accept_tableValid : (accept v hold s).tableValid = s.tableValid := rfl
@[simp] theorem accept_overrun : (accept v hold s).overrun = s.overrun := rfl
@[simp] theorem accept_errCode : (accept v hold s).errCode = .none := rfl
@[simp] theorem accept_inLen : (accept v hold s).inLen = s.inLen := rfl
@[simp] theorem accept_encBits : (accept v hold s).encBits = s.encBits := rfl
@[simp] theorem accept_encBytes : (accept v hold s).encBytes = s.encBytes := rfl
@[simp] theorem accept_decBits : (accept v hold s).decBits = s.decBits := rfl
@[simp] theorem accept_outLen : (accept v hold s).outLen = s.outLen := rfl
@[simp] theorem accept_errInfo : (accept v hold s).errInfo = 0 := rfl
@[simp] theorem accept_nsym : (accept v hold s).nsym = s.nsym := rfl
@[simp] theorem accept_root : (accept v hold s).root = s.root := rfl
@[simp] theorem accept_lkLen : (accept v hold s).lkLen = s.lkLen := rfl
@[simp] theorem accept_lkBits : (accept v hold s).lkBits = s.lkBits := rfl
@[simp] theorem accept_freq : (accept v hold s).freq = s.freq := rfl
@[simp] theorem accept_tree : (accept v hold s).tree = s.tree := rfl
@[simp] theorem accept_code : (accept v hold s).code = s.code := rfl
@[simp] theorem accept_symIn : (accept v hold s).symIn = s.symIn := rfl
@[simp] theorem accept_bits : (accept v hold s).bits = s.bits := rfl
@[simp] theorem accept_symOut : (accept v hold s).symOut = s.symOut := rfl
@[simp] theorem accept_resp : (accept v hold s).resp = s.resp := rfl
@[simp] theorem accept_inbox : (accept v hold s).inbox = s.inbox := rfl
@[simp] theorem accept_draws : (accept v hold s).draws = s.draws := rfl

end

/-! Completion (45_control.md R222). -/

section
variable (e : ErrCode) (s : State)

@[simp] theorem complete_params : (complete e s).params = s.params := rfl
@[simp] theorem complete_seq : (complete e s).seq = .idle := rfl
@[simp] theorem complete_ie : (complete e s).ie = s.ie := rfl
@[simp] theorem complete_done : (complete e s).done = true := rfl
@[simp] theorem complete_empty : (complete e s).empty = s.empty := rfl
@[simp] theorem complete_treeValid : (complete e s).treeValid = s.treeValid := rfl
@[simp] theorem complete_tableValid : (complete e s).tableValid = s.tableValid := rfl
@[simp] theorem complete_overrun : (complete e s).overrun = s.overrun := rfl
@[simp] theorem complete_errCode : (complete e s).errCode = e := rfl
@[simp] theorem complete_inLen : (complete e s).inLen = s.inLen := rfl
@[simp] theorem complete_encBits : (complete e s).encBits = s.encBits := rfl
@[simp] theorem complete_encBytes : (complete e s).encBytes = s.encBytes := rfl
@[simp] theorem complete_decBits : (complete e s).decBits = s.decBits := rfl
@[simp] theorem complete_outLen : (complete e s).outLen = s.outLen := rfl
@[simp] theorem complete_errInfo : (complete e s).errInfo = s.errInfo := rfl
@[simp] theorem complete_nsym : (complete e s).nsym = s.nsym := rfl
@[simp] theorem complete_root : (complete e s).root = s.root := rfl
@[simp] theorem complete_lkLen : (complete e s).lkLen = s.lkLen := rfl
@[simp] theorem complete_lkBits : (complete e s).lkBits = s.lkBits := rfl
@[simp] theorem complete_freq : (complete e s).freq = s.freq := rfl
@[simp] theorem complete_tree : (complete e s).tree = s.tree := rfl
@[simp] theorem complete_code : (complete e s).code = s.code := rfl
@[simp] theorem complete_symIn : (complete e s).symIn = s.symIn := rfl
@[simp] theorem complete_bits : (complete e s).bits = s.bits := rfl
@[simp] theorem complete_symOut : (complete e s).symOut = s.symOut := rfl
@[simp] theorem complete_resp : (complete e s).resp = s.resp := rfl
@[simp] theorem complete_inbox : (complete e s).inbox = s.inbox := rfl
@[simp] theorem complete_draws : (complete e s).draws = s.draws := rfl

end

/-! Taking an error (60_exceptions.md R255). -/

section
variable (e : ErrCode) (info : Word) (s : State)

@[simp] theorem raise_params : (raise e info s).params = s.params := rfl
@[simp] theorem raise_seq : (raise e info s).seq = .idle := rfl
@[simp] theorem raise_ie : (raise e info s).ie = s.ie := rfl
@[simp] theorem raise_done : (raise e info s).done = true := rfl
@[simp] theorem raise_empty : (raise e info s).empty = s.empty := rfl
@[simp] theorem raise_treeValid : (raise e info s).treeValid = s.treeValid := rfl
@[simp] theorem raise_tableValid : (raise e info s).tableValid = s.tableValid := rfl
@[simp] theorem raise_overrun : (raise e info s).overrun = s.overrun := rfl
@[simp] theorem raise_errCode : (raise e info s).errCode = e := rfl
@[simp] theorem raise_inLen : (raise e info s).inLen = s.inLen := rfl
@[simp] theorem raise_encBits : (raise e info s).encBits = s.encBits := rfl
@[simp] theorem raise_encBytes : (raise e info s).encBytes = s.encBytes := rfl
@[simp] theorem raise_decBits : (raise e info s).decBits = s.decBits := rfl
@[simp] theorem raise_outLen : (raise e info s).outLen = s.outLen := rfl
@[simp] theorem raise_errInfo : (raise e info s).errInfo = info := rfl
@[simp] theorem raise_nsym : (raise e info s).nsym = s.nsym := rfl
@[simp] theorem raise_root : (raise e info s).root = s.root := rfl
@[simp] theorem raise_lkLen : (raise e info s).lkLen = s.lkLen := rfl
@[simp] theorem raise_lkBits : (raise e info s).lkBits = s.lkBits := rfl
@[simp] theorem raise_freq : (raise e info s).freq = s.freq := rfl
@[simp] theorem raise_tree : (raise e info s).tree = s.tree := rfl
@[simp] theorem raise_code : (raise e info s).code = s.code := rfl
@[simp] theorem raise_symIn : (raise e info s).symIn = s.symIn := rfl
@[simp] theorem raise_bits : (raise e info s).bits = s.bits := rfl
@[simp] theorem raise_symOut : (raise e info s).symOut = s.symOut := rfl
@[simp] theorem raise_resp : (raise e info s).resp = s.resp := rfl
@[simp] theorem raise_inbox : (raise e info s).inbox = s.inbox := rfl
@[simp] theorem raise_draws : (raise e info s).draws = s.draws := rfl

end

/-! A host write to STATUS (10_state.md R30). -/

section
variable (v : Word) (s : State)

@[simp] theorem writeStatus_params : (writeStatus v s).params = s.params := rfl
@[simp] theorem writeStatus_seq : (writeStatus v s).seq = s.seq := rfl
@[simp] theorem writeStatus_ie : (writeStatus v s).ie = s.ie := rfl
@[simp] theorem writeStatus_done : (writeStatus v s).done = (s.done && !v.getLsbD 1) := rfl
@[simp] theorem writeStatus_empty : (writeStatus v s).empty = s.empty := rfl
@[simp] theorem writeStatus_treeValid : (writeStatus v s).treeValid = s.treeValid := rfl
@[simp] theorem writeStatus_tableValid : (writeStatus v s).tableValid = s.tableValid := rfl
@[simp] theorem writeStatus_overrun : (writeStatus v s).overrun = (s.overrun && !v.getLsbD 6) := rfl
@[simp] theorem writeStatus_errCode : (writeStatus v s).errCode = s.errCode := rfl
@[simp] theorem writeStatus_inLen : (writeStatus v s).inLen = s.inLen := rfl
@[simp] theorem writeStatus_encBits : (writeStatus v s).encBits = s.encBits := rfl
@[simp] theorem writeStatus_encBytes : (writeStatus v s).encBytes = s.encBytes := rfl
@[simp] theorem writeStatus_decBits : (writeStatus v s).decBits = s.decBits := rfl
@[simp] theorem writeStatus_outLen : (writeStatus v s).outLen = s.outLen := rfl
@[simp] theorem writeStatus_errInfo : (writeStatus v s).errInfo = s.errInfo := rfl
@[simp] theorem writeStatus_nsym : (writeStatus v s).nsym = s.nsym := rfl
@[simp] theorem writeStatus_root : (writeStatus v s).root = s.root := rfl
@[simp] theorem writeStatus_lkLen : (writeStatus v s).lkLen = s.lkLen := rfl
@[simp] theorem writeStatus_lkBits : (writeStatus v s).lkBits = s.lkBits := rfl
@[simp] theorem writeStatus_freq : (writeStatus v s).freq = s.freq := rfl
@[simp] theorem writeStatus_tree : (writeStatus v s).tree = s.tree := rfl
@[simp] theorem writeStatus_code : (writeStatus v s).code = s.code := rfl
@[simp] theorem writeStatus_symIn : (writeStatus v s).symIn = s.symIn := rfl
@[simp] theorem writeStatus_bits : (writeStatus v s).bits = s.bits := rfl
@[simp] theorem writeStatus_symOut : (writeStatus v s).symOut = s.symOut := rfl
@[simp] theorem writeStatus_resp : (writeStatus v s).resp = s.resp := rfl
@[simp] theorem writeStatus_inbox : (writeStatus v s).inbox = s.inbox := rfl
@[simp] theorem writeStatus_draws : (writeStatus v s).draws = s.draws := rfl

end

/-! The flags COUNT clears (40_frequency_count.md R130). -/

section
variable (s : State)

@[simp] theorem clearValidFlags_params : (clearValidFlags s).params = s.params := rfl
@[simp] theorem clearValidFlags_seq : (clearValidFlags s).seq = s.seq := rfl
@[simp] theorem clearValidFlags_ie : (clearValidFlags s).ie = s.ie := rfl
@[simp] theorem clearValidFlags_done : (clearValidFlags s).done = s.done := rfl
@[simp] theorem clearValidFlags_empty : (clearValidFlags s).empty = false := rfl
@[simp] theorem clearValidFlags_treeValid : (clearValidFlags s).treeValid = false := rfl
@[simp] theorem clearValidFlags_tableValid : (clearValidFlags s).tableValid = false := rfl
@[simp] theorem clearValidFlags_overrun : (clearValidFlags s).overrun = s.overrun := rfl
@[simp] theorem clearValidFlags_errCode : (clearValidFlags s).errCode = s.errCode := rfl
@[simp] theorem clearValidFlags_inLen : (clearValidFlags s).inLen = s.inLen := rfl
@[simp] theorem clearValidFlags_encBits : (clearValidFlags s).encBits = s.encBits := rfl
@[simp] theorem clearValidFlags_encBytes : (clearValidFlags s).encBytes = s.encBytes := rfl
@[simp] theorem clearValidFlags_decBits : (clearValidFlags s).decBits = s.decBits := rfl
@[simp] theorem clearValidFlags_outLen : (clearValidFlags s).outLen = s.outLen := rfl
@[simp] theorem clearValidFlags_errInfo : (clearValidFlags s).errInfo = s.errInfo := rfl
@[simp] theorem clearValidFlags_nsym : (clearValidFlags s).nsym = s.nsym := rfl
@[simp] theorem clearValidFlags_root : (clearValidFlags s).root = s.root := rfl
@[simp] theorem clearValidFlags_lkLen : (clearValidFlags s).lkLen = s.lkLen := rfl
@[simp] theorem clearValidFlags_lkBits : (clearValidFlags s).lkBits = s.lkBits := rfl
@[simp] theorem clearValidFlags_freq : (clearValidFlags s).freq = s.freq := rfl
@[simp] theorem clearValidFlags_tree : (clearValidFlags s).tree = s.tree := rfl
@[simp] theorem clearValidFlags_code : (clearValidFlags s).code = s.code := rfl
@[simp] theorem clearValidFlags_symIn : (clearValidFlags s).symIn = s.symIn := rfl
@[simp] theorem clearValidFlags_bits : (clearValidFlags s).bits = s.bits := rfl
@[simp] theorem clearValidFlags_symOut : (clearValidFlags s).symOut = s.symOut := rfl
@[simp] theorem clearValidFlags_resp : (clearValidFlags s).resp = s.resp := rfl
@[simp] theorem clearValidFlags_inbox : (clearValidFlags s).inbox = s.inbox := rfl
@[simp] theorem clearValidFlags_draws : (clearValidFlags s).draws = s.draws := rfl

end

/-! The result of LOOKUP (42_code_table.md R164). -/

section
variable (e : CodeEntry) (s : State)

@[simp] theorem loadLookup_params : (loadLookup e s).params = s.params := rfl
@[simp] theorem loadLookup_seq : (loadLookup e s).seq = s.seq := rfl
@[simp] theorem loadLookup_ie : (loadLookup e s).ie = s.ie := rfl
@[simp] theorem loadLookup_done : (loadLookup e s).done = s.done := rfl
@[simp] theorem loadLookup_empty : (loadLookup e s).empty = s.empty := rfl
@[simp] theorem loadLookup_treeValid : (loadLookup e s).treeValid = s.treeValid := rfl
@[simp] theorem loadLookup_tableValid : (loadLookup e s).tableValid = s.tableValid := rfl
@[simp] theorem loadLookup_overrun : (loadLookup e s).overrun = s.overrun := rfl
@[simp] theorem loadLookup_errCode : (loadLookup e s).errCode = s.errCode := rfl
@[simp] theorem loadLookup_inLen : (loadLookup e s).inLen = s.inLen := rfl
@[simp] theorem loadLookup_encBits : (loadLookup e s).encBits = s.encBits := rfl
@[simp] theorem loadLookup_encBytes : (loadLookup e s).encBytes = s.encBytes := rfl
@[simp] theorem loadLookup_decBits : (loadLookup e s).decBits = s.decBits := rfl
@[simp] theorem loadLookup_outLen : (loadLookup e s).outLen = s.outLen := rfl
@[simp] theorem loadLookup_errInfo : (loadLookup e s).errInfo = s.errInfo := rfl
@[simp] theorem loadLookup_nsym : (loadLookup e s).nsym = s.nsym := rfl
@[simp] theorem loadLookup_root : (loadLookup e s).root = s.root := rfl
@[simp] theorem loadLookup_lkLen : (loadLookup e s).lkLen = e.len := rfl
@[simp] theorem loadLookup_lkBits : (loadLookup e s).lkBits = lookupWords e.bits := rfl
@[simp] theorem loadLookup_freq : (loadLookup e s).freq = s.freq := rfl
@[simp] theorem loadLookup_tree : (loadLookup e s).tree = s.tree := rfl
@[simp] theorem loadLookup_code : (loadLookup e s).code = s.code := rfl
@[simp] theorem loadLookup_symIn : (loadLookup e s).symIn = s.symIn := rfl
@[simp] theorem loadLookup_bits : (loadLookup e s).bits = s.bits := rfl
@[simp] theorem loadLookup_symOut : (loadLookup e s).symOut = s.symOut := rfl
@[simp] theorem loadLookup_resp : (loadLookup e s).resp = s.resp := rfl
@[simp] theorem loadLookup_inbox : (loadLookup e s).inbox = s.inbox := rfl
@[simp] theorem loadLookup_draws : (loadLookup e s).draws = s.draws := rfl

end

/-! The results of ENCODE (43_encoder.md R182). -/

section
variable (w : Writer) (s : State)

@[simp] theorem storeStream_params : (storeStream w s).params = s.params := rfl
@[simp] theorem storeStream_seq : (storeStream w s).seq = s.seq := rfl
@[simp] theorem storeStream_ie : (storeStream w s).ie = s.ie := rfl
@[simp] theorem storeStream_done : (storeStream w s).done = s.done := rfl
@[simp] theorem storeStream_empty : (storeStream w s).empty = s.empty := rfl
@[simp] theorem storeStream_treeValid : (storeStream w s).treeValid = s.treeValid := rfl
@[simp] theorem storeStream_tableValid : (storeStream w s).tableValid = s.tableValid := rfl
@[simp] theorem storeStream_overrun : (storeStream w s).overrun = s.overrun := rfl
@[simp] theorem storeStream_errCode : (storeStream w s).errCode = s.errCode := rfl
@[simp] theorem storeStream_inLen : (storeStream w s).inLen = s.inLen := rfl
@[simp] theorem storeStream_encBits : (storeStream w s).encBits = BitVec.ofNat 32 w.k := rfl
@[simp] theorem storeStream_encBytes : (storeStream w s).encBytes = BitVec.ofNat 32 w.wptr := rfl
@[simp] theorem storeStream_decBits : (storeStream w s).decBits = BitVec.ofNat 32 w.k := rfl
@[simp] theorem storeStream_outLen : (storeStream w s).outLen = s.outLen := rfl
@[simp] theorem storeStream_errInfo : (storeStream w s).errInfo = s.errInfo := rfl
@[simp] theorem storeStream_nsym : (storeStream w s).nsym = s.nsym := rfl
@[simp] theorem storeStream_root : (storeStream w s).root = s.root := rfl
@[simp] theorem storeStream_lkLen : (storeStream w s).lkLen = s.lkLen := rfl
@[simp] theorem storeStream_lkBits : (storeStream w s).lkBits = s.lkBits := rfl
@[simp] theorem storeStream_freq : (storeStream w s).freq = s.freq := rfl
@[simp] theorem storeStream_tree : (storeStream w s).tree = s.tree := rfl
@[simp] theorem storeStream_code : (storeStream w s).code = s.code := rfl
@[simp] theorem storeStream_symIn : (storeStream w s).symIn = s.symIn := rfl
@[simp] theorem storeStream_bits : (storeStream w s).bits = w.bits := rfl
@[simp] theorem storeStream_symOut : (storeStream w s).symOut = s.symOut := rfl
@[simp] theorem storeStream_resp : (storeStream w s).resp = s.resp := rfl
@[simp] theorem storeStream_inbox : (storeStream w s).inbox = s.inbox := rfl
@[simp] theorem storeStream_draws : (storeStream w s).draws = s.draws := rfl

end

/-! The results of DECODE (44_decoder.md R201). -/

section
variable (c : Cursor) (s : State)

@[simp] theorem storeOutput_params : (storeOutput c s).params = s.params := rfl
@[simp] theorem storeOutput_seq : (storeOutput c s).seq = s.seq := rfl
@[simp] theorem storeOutput_ie : (storeOutput c s).ie = s.ie := rfl
@[simp] theorem storeOutput_done : (storeOutput c s).done = s.done := rfl
@[simp] theorem storeOutput_empty : (storeOutput c s).empty = s.empty := rfl
@[simp] theorem storeOutput_treeValid : (storeOutput c s).treeValid = s.treeValid := rfl
@[simp] theorem storeOutput_tableValid : (storeOutput c s).tableValid = s.tableValid := rfl
@[simp] theorem storeOutput_overrun : (storeOutput c s).overrun = s.overrun := rfl
@[simp] theorem storeOutput_errCode : (storeOutput c s).errCode = s.errCode := rfl
@[simp] theorem storeOutput_inLen : (storeOutput c s).inLen = s.inLen := rfl
@[simp] theorem storeOutput_encBits : (storeOutput c s).encBits = s.encBits := rfl
@[simp] theorem storeOutput_encBytes : (storeOutput c s).encBytes = s.encBytes := rfl
@[simp] theorem storeOutput_decBits : (storeOutput c s).decBits = s.decBits := rfl
@[simp] theorem storeOutput_outLen : (storeOutput c s).outLen = BitVec.ofNat 32 c.n := rfl
@[simp] theorem storeOutput_errInfo : (storeOutput c s).errInfo = s.errInfo := rfl
@[simp] theorem storeOutput_nsym : (storeOutput c s).nsym = s.nsym := rfl
@[simp] theorem storeOutput_root : (storeOutput c s).root = s.root := rfl
@[simp] theorem storeOutput_lkLen : (storeOutput c s).lkLen = s.lkLen := rfl
@[simp] theorem storeOutput_lkBits : (storeOutput c s).lkBits = s.lkBits := rfl
@[simp] theorem storeOutput_freq : (storeOutput c s).freq = s.freq := rfl
@[simp] theorem storeOutput_tree : (storeOutput c s).tree = s.tree := rfl
@[simp] theorem storeOutput_code : (storeOutput c s).code = s.code := rfl
@[simp] theorem storeOutput_symIn : (storeOutput c s).symIn = s.symIn := rfl
@[simp] theorem storeOutput_bits : (storeOutput c s).bits = s.bits := rfl
@[simp] theorem storeOutput_symOut : (storeOutput c s).symOut = c.symOut := rfl
@[simp] theorem storeOutput_resp : (storeOutput c s).resp = s.resp := rfl
@[simp] theorem storeOutput_inbox : (storeOutput c s).inbox = s.inbox := rfl
@[simp] theorem storeOutput_draws : (storeOutput c s).draws = s.draws := rfl

end

/-! A read's response. -/

section
variable (r : BusResp) (s : State)

@[simp] theorem respondRead_params : (respondRead r s).params = s.params := rfl
@[simp] theorem respondRead_seq : (respondRead r s).seq = s.seq := rfl
@[simp] theorem respondRead_ie : (respondRead r s).ie = s.ie := rfl
@[simp] theorem respondRead_done : (respondRead r s).done = s.done := rfl
@[simp] theorem respondRead_empty : (respondRead r s).empty = s.empty := rfl
@[simp] theorem respondRead_treeValid : (respondRead r s).treeValid = s.treeValid := rfl
@[simp] theorem respondRead_tableValid : (respondRead r s).tableValid = s.tableValid := rfl
@[simp] theorem respondRead_overrun : (respondRead r s).overrun = s.overrun := rfl
@[simp] theorem respondRead_errCode : (respondRead r s).errCode = s.errCode := rfl
@[simp] theorem respondRead_inLen : (respondRead r s).inLen = s.inLen := rfl
@[simp] theorem respondRead_encBits : (respondRead r s).encBits = s.encBits := rfl
@[simp] theorem respondRead_encBytes : (respondRead r s).encBytes = s.encBytes := rfl
@[simp] theorem respondRead_decBits : (respondRead r s).decBits = s.decBits := rfl
@[simp] theorem respondRead_outLen : (respondRead r s).outLen = s.outLen := rfl
@[simp] theorem respondRead_errInfo : (respondRead r s).errInfo = s.errInfo := rfl
@[simp] theorem respondRead_nsym : (respondRead r s).nsym = s.nsym := rfl
@[simp] theorem respondRead_root : (respondRead r s).root = s.root := rfl
@[simp] theorem respondRead_lkLen : (respondRead r s).lkLen = s.lkLen := rfl
@[simp] theorem respondRead_lkBits : (respondRead r s).lkBits = s.lkBits := rfl
@[simp] theorem respondRead_freq : (respondRead r s).freq = s.freq := rfl
@[simp] theorem respondRead_tree : (respondRead r s).tree = s.tree := rfl
@[simp] theorem respondRead_code : (respondRead r s).code = s.code := rfl
@[simp] theorem respondRead_symIn : (respondRead r s).symIn = s.symIn := rfl
@[simp] theorem respondRead_bits : (respondRead r s).bits = s.bits := rfl
@[simp] theorem respondRead_symOut : (respondRead r s).symOut = s.symOut := rfl
@[simp] theorem respondRead_resp : (respondRead r s).resp = some r := rfl
@[simp] theorem respondRead_inbox : (respondRead r s).inbox = s.inbox := rfl
@[simp] theorem respondRead_draws : (respondRead r s).draws = s.draws + 1 := rfl

end

/-! A write's response. -/

section
variable (r : BusResp) (s : State)

@[simp] theorem respondWrite_params : (respondWrite r s).params = s.params := rfl
@[simp] theorem respondWrite_seq : (respondWrite r s).seq = s.seq := rfl
@[simp] theorem respondWrite_ie : (respondWrite r s).ie = s.ie := rfl
@[simp] theorem respondWrite_done : (respondWrite r s).done = s.done := rfl
@[simp] theorem respondWrite_empty : (respondWrite r s).empty = s.empty := rfl
@[simp] theorem respondWrite_treeValid : (respondWrite r s).treeValid = s.treeValid := rfl
@[simp] theorem respondWrite_tableValid : (respondWrite r s).tableValid = s.tableValid := rfl
@[simp] theorem respondWrite_overrun : (respondWrite r s).overrun = s.overrun := rfl
@[simp] theorem respondWrite_errCode : (respondWrite r s).errCode = s.errCode := rfl
@[simp] theorem respondWrite_inLen : (respondWrite r s).inLen = s.inLen := rfl
@[simp] theorem respondWrite_encBits : (respondWrite r s).encBits = s.encBits := rfl
@[simp] theorem respondWrite_encBytes : (respondWrite r s).encBytes = s.encBytes := rfl
@[simp] theorem respondWrite_decBits : (respondWrite r s).decBits = s.decBits := rfl
@[simp] theorem respondWrite_outLen : (respondWrite r s).outLen = s.outLen := rfl
@[simp] theorem respondWrite_errInfo : (respondWrite r s).errInfo = s.errInfo := rfl
@[simp] theorem respondWrite_nsym : (respondWrite r s).nsym = s.nsym := rfl
@[simp] theorem respondWrite_root : (respondWrite r s).root = s.root := rfl
@[simp] theorem respondWrite_lkLen : (respondWrite r s).lkLen = s.lkLen := rfl
@[simp] theorem respondWrite_lkBits : (respondWrite r s).lkBits = s.lkBits := rfl
@[simp] theorem respondWrite_freq : (respondWrite r s).freq = s.freq := rfl
@[simp] theorem respondWrite_tree : (respondWrite r s).tree = s.tree := rfl
@[simp] theorem respondWrite_code : (respondWrite r s).code = s.code := rfl
@[simp] theorem respondWrite_symIn : (respondWrite r s).symIn = s.symIn := rfl
@[simp] theorem respondWrite_bits : (respondWrite r s).bits = s.bits := rfl
@[simp] theorem respondWrite_symOut : (respondWrite r s).symOut = s.symOut := rfl
@[simp] theorem respondWrite_resp : (respondWrite r s).resp = some r := rfl
@[simp] theorem respondWrite_inbox : (respondWrite r s).inbox = s.inbox := rfl
@[simp] theorem respondWrite_draws : (respondWrite r s).draws = s.draws := rfl

end

end Sys2Proof.Machine
end

