-- ==== Sys2Proof/Laws/Step.lean ====
section
/-!
SUPPORT. What a step can do (45_control.md R221, 70_reset_and_hazards.md R290), and how a command
ends.
-/

namespace Sys2Proof.Machine

/-- An idle block serves the host. -/
theorem step_idle {s : State} (h : s.seq = .idle) : step s = .next (serveIdle s) := by
  simp [step, h]

/-- A busy block with nothing left to let pass runs its command. -/
theorem step_busy_ready {s : State} {w : Word} (h : s.seq = .busy w 0) :
    step s = runCommand w s := by simp [step, h, stepBusy]

/-- A busy block with nothing more from the host runs its command. -/
theorem step_busy_alone {s : State} {w : Word} {hold : Nat} (h : s.seq = .busy w hold)
    (hi : s.inbox = []) : step s = runCommand w s := by
  cases hold <;> simp [step, h, stepBusy, hi]

/-- A busy block whose host waits runs its command. -/
theorem step_busy_wait {s : State} {w : Word} {hold : Nat} {rest : List HostEvent}
    (h : s.seq = .busy w hold) (hi : s.inbox = .wait :: rest) : step s = runCommand w s := by
  cases hold <;> simp [step, h, stepBusy, hi]

/-- A busy block lets a host access pass while `hold` says so. -/
theorem step_busy_access {s : State} {w : Word} {left : Nat} {a : Access} {rest : List HostEvent}
    (h : s.seq = .busy w (left + 1)) (hi : s.inbox = .access a :: rest) :
    step s = .next (hostAccess a { s with inbox := rest, seq := .busy w left }) := by
  simp [step, h, stepBusy, hi]

/-- A reset that finds the block busy abandons the command (R272). -/
theorem step_busy_reset {s : State} {w : Word} {left : Nat} {rest : List HostEvent}
    (h : s.seq = .busy w (left + 1)) (hi : s.inbox = .resetInput :: rest) :
    step s = .next (applyReset { s with inbox := rest }) := by simp [step, h, stepBusy, hi]

/-- Everything a step can do: run the latched command, serve the host while idle, let a host access
pass while busy, or take a reset while busy. -/
theorem step_cases (s : State) :
    (∃ w hold, s.seq = .busy w hold ∧ step s = runCommand w s) ∨
      (s.seq = .idle ∧ step s = .next (serveIdle s)) ∨
      (∃ w left a rest, s.seq = .busy w (left + 1) ∧ s.inbox = .access a :: rest ∧
        step s = .next (hostAccess a { s with inbox := rest, seq := .busy w left })) ∨
      (∃ w left rest, s.seq = .busy w (left + 1) ∧ s.inbox = .resetInput :: rest ∧
        step s = .next (applyReset { s with inbox := rest })) := by
  cases h : s.seq with
  | idle => exact .inr (.inl ⟨rfl, step_idle h⟩)
  | busy w hold =>
    cases hold with
    | zero => exact .inl ⟨w, 0, rfl, step_busy_ready h⟩
    | succ left =>
      cases hi : s.inbox with
      | nil => exact .inl ⟨w, left + 1, rfl, step_busy_alone h hi⟩
      | cons e rest =>
        cases e with
        | access a => exact .inr (.inr (.inl ⟨w, left, a, rest, rfl, rfl, step_busy_access h hi⟩))
        | wait => exact .inl ⟨w, left + 1, rfl, step_busy_wait h hi⟩
        | resetInput => exact .inr (.inr (.inr ⟨w, left, rest, rfl, rfl, step_busy_reset h hi⟩))

/-- The state a command leaves after `finish` (R222). -/
@[simp] theorem conclude_finished (s : State) :
    (Ended.finished s).conclude = { s with errCode := .none, seq := .idle, done := true } := rfl

/-- The state a command leaves after `raise E(info)` (R255). -/
@[simp] theorem conclude_raised (e : ErrCode) (info : Word) (s : State) :
    (Ended.raised e info s).conclude =
      { s with errInfo := info, errCode := e, seq := .idle, done := true } := rfl

@[simp] theorem andThen_finished (s : State) (f : State → Ended) :
    (Ended.finished s).andThen f = f s := rfl

@[simp] theorem andThen_raised (e : ErrCode) (info : Word) (s : State) (f : State → Ended) :
    (Ended.raised e info s).andThen f = .raised e info s := rfl

/-- A command word that decodes runs as its command (R221). -/
theorem runCommand_instr {w : Word} {i : Instr} (h : decode w = .instr i) (s : State) :
    runCommand w s = exec i s := by simp [runCommand, h]

/-- An illegal command word raises ILLEGAL_CMD (R241). -/
theorem runCommand_illegal {w : Word} {why : Illegal} (h : decode w = .illegal why) (s : State) :
    runCommand w s = .next (raise .illegalCmd 0 s) := by simp [runCommand, h]

end Sys2Proof.Machine
end

