-- ==== Sys2Proof/Tests/Slice0.lean ====
section
/-!
SUPPORT. The model's own tests. The expected values are those of spec/95_test_vectors.md (the vector is
named in each comment) or are worked out by hand from the rule named. Then the witnesses: for each
statement with hypotheses, a concrete state and operands that meet all of them.
-/

namespace Sys2Proof.Tests

open Sys2Proof Sys2Proof.Machine

-- One theorem after the other: the checks that make a tree take memory and a thread each.
set_option Elab.async false

/-! ## Helpers -/

/-- The state a step leads to. -/
def stepped (s : State) : State :=
  match step s with
  | .next t => t
  | _ => s

/-- The state a command leads to. -/
def after (i : Instr) (s : State) : State :=
  match exec i s with
  | .next t => t
  | _ => s

theorem exec_after (i : Instr) (s : State) : exec i s = .next (after i s) := by cases i <;> rfl

/-- The state after the command word `w` has been accepted and run. -/
def issued (w : Nat) (s : State) : State := stepped (s.withFetchWord 32 w)

/-- A buffer that holds `bytes` from byte 0. -/
def memoryOf (bytes : List Byte) : Memory := Memory.ofBytes (fun i => bytes.getD i 0) bytes.length []

/-- A FREQ table with the given entries, every other entry 0. -/
def freqOf (entries : List (Sym × Word)) : Vector Word 256 :=
  entries.foldl (fun v e => setEntry v e.1 e.2) (Vector.replicate 256 0)

/-- The block with an input loaded. -/
def loaded (bytes : List Byte) : State :=
  { State.reset with symIn := memoryOf bytes, inLen := BitVec.ofNat 32 bytes.length }

/-- The block with the tree of a FREQ table, as BUILD leaves it. -/
def withTree (entries : List (Sym × Word)) : State :=
  after .build { State.reset with freq := freqOf entries }

/-- The block with the tree and the code table of a FREQ table. -/
def withTable (entries : List (Sym × Word)) : State := after .table (withTree entries)

/-- A TREE table with these records from node 0 on. -/
def treeOf (nodes : List Node) : Vector Node 511 :=
  (nodes.zipIdx).foldl (fun v e => v.setIfInBounds e.2 e.1) (Vector.replicate 511 Node.zero)

/-- An internal node. -/
def innerNode (weight : Weight) (left right : NodeIdx) : Node :=
  { weight := weight, leaf := false, sym := 0, left := left, right := right }

/-- A block with a tree of these records, rooted at `root`, as BUILD would leave it. -/
def rooted (nodes : List Node) (root : NodeIdx) : State :=
  { State.reset with treeValid := true, tree := treeOf nodes, root := root }

/-- A loaded block with a code table, as TABLE would leave it. -/
def codedBy (entries : List (Sym × List Bool)) (bytes : List Byte) : State :=
  { loaded bytes with
    treeValid := true
    tableValid := true
    code := entries.foldl (fun v e => setEntry v e.1 (CodeEntry.ofWord e.2))
      (Vector.replicate 256 CodeEntry.invalid) }

/-- A code table `0x61` = "0", `0x62` = "10". -/
def coded (bytes : List Byte) : State := codedBy [(0x61, [false]), (0x62, [true, false])] bytes

/-- The TREE words W0, W1, W2 of a node. -/
def nodeWords (s : State) (i : NodeIdx) : Word × Word × Word :=
  (treeRecordWord (nodeAt s.tree i) 0, treeRecordWord (nodeAt s.tree i) 1,
    treeRecordWord (nodeAt s.tree i) 2)

/-- CODE_LEN and CODE_BITS word 0 of a symbol. -/
def codeWords (s : State) (a : Sym) : Word × Word :=
  (codeLenWord (entryOf s.code a), codeBitsWord (entryOf s.code a) 0)

/-- The first `n` bytes of a buffer. -/
def bytesOf (m : Memory) (n : Nat) : List Byte := (List.range n).map m.read

/-! ## Decoding: each word bit by bit from the fields RSV1, SYM, RSV0, OP (30_encoding.md R100, R106) -/

theorem test_decode_nop : decode 0b00000000000000000000000000000000#32 = .instr .nop := by decide
theorem test_decode_count : decode 0b00000000000000000000000000000001#32 = .instr .count := by decide
theorem test_decode_build : decode 0b00000000000000000000000000000010#32 = .instr .build := by decide
theorem test_decode_table : decode 0b00000000000000000000000000000011#32 = .instr .table := by decide
theorem test_decode_encode : decode 0b00000000000000000000000000000100#32 = .instr .encode := by
  decide
theorem test_decode_decode : decode 0b00000000000000000000000000000101#32 = .instr .decode := by
  decide
theorem test_decode_compress : decode 0b00000000000000000000000000000110#32 = .instr .compress := by
  decide
theorem test_decode_lookup :
    decode 0b00000000000000000110000100000111#32 = .instr (.lookup 0x61#8) := by decide
theorem test_decode_clear : decode 0b00000000000000000000000000001000#32 = .instr .clear := by decide

/-- A table word of fewer bits has zeros above them. -/
theorem test_decodeTableWord : decodeTableWord 32 0x6107 = some (.lookup 0x61#8) ∧
    decodeTableWord 32 0x9 = none ∧ decodeTableWord 16 0x10008 = some .clear := by decide

/-! ## WellFormed: an ill-formed command word for each check, which the check and the decoder refuse -/

theorem test_wellFormed_accepts :
    (CmdFields.mk 8 0 0 0).wellFormed = true ∧ (CmdFields.mk 7 0 0xFF 0).wellFormed = true := by decide

/-- R107: OP `0x9` and `0xF` are reserved. -/
theorem test_wellFormed_reservedOp :
    (CmdFields.mk 9 0 0 0).opDefined = false ∧ (CmdFields.mk 15 0 0 0).wellFormed = false ∧
      decode 0x00000009#32 = .illegal .reservedOp ∧ decode 0x0000000F#32 = .illegal .reservedOp := by
  decide

/-- R108: RSV0 and RSV1 must be zero. -/
theorem test_wellFormed_reservedBits :
    (CmdFields.mk 0 1 0 0).reservedZero = false ∧ (CmdFields.mk 0 0 0 0x8000).reservedZero = false ∧
      (CmdFields.mk 7 8 0x61 0).wellFormed = false ∧ (CmdFields.mk 1 0 0 1).wellFormed = false ∧
      decode 0x00000010#32 = .illegal .reservedBits7to4 ∧
      decode 0x80000001#32 = .illegal .reservedBits31to16 := by decide

/-- R108: SYM must be zero for every OP but `0x7` (V-LK-7). -/
theorem test_wellFormed_strayOperand :
    (CmdFields.mk 1 0 0x61 0).symAllowed = false ∧ (CmdFields.mk 8 0 1 0).wellFormed = false ∧
      decode 0x00006101#32 = .illegal .strayOperand := by decide

/-! ## The commands -/

/-- V-NOP-2. -/
theorem test_nop_interrupt :
    (issued 0 { State.reset with ie := true }).statusIdle = 0x02 ∧
      (issued 0 { State.reset with ie := true }).irq = true := by decide +kernel

/-- V-ENC-9: NO_TABLE is code 0x04. -/
theorem test_noTable_code : (issued 4 (loaded [0x61])).statusIdle = 0x0406 := by decide +kernel

/-- V-NOP-3: the valid flags are kept. -/
theorem test_nop_keeps_flags :
    (issued 0 { State.reset with treeValid := true, tableValid := true }).statusIdle = 0x32 := by
  decide +kernel

/-- V-CNT-1. -/
theorem test_count :
    let t := issued 1 (loaded [0x61, 0x61, 0x62])
    entryOf t.freq 0x61 = 2 ∧ entryOf t.freq 0x62 = 1 ∧ entryOf t.freq 0x63 = 0 ∧
      t.statusIdle = 0x02 := by decide +kernel

/-- V-CNT-3. -/
theorem test_count_range :
    (issued 1 { loaded [0x61, 0x61, 0x62] with
      params := { Config.params with maxSyms := 4 }, inLen := 5 }).statusIdle = 0x0206 := by
  decide +kernel

/-- V-BLD-7: the tie between leaf c and node 5 goes to the smaller index. -/
theorem test_build_ties :
    let t := withTree [(0x61, 1), (0x62, 1), (0x63, 2), (0x64, 3), (0x65, 5)]
    nodeWords t 5 = (2, 0, 0x00000200) ∧ nodeWords t 6 = (4, 0, 0x00000A02) ∧
      nodeWords t 7 = (7, 0, 0x00000C03) ∧ nodeWords t 8 = (12, 0, 0x00000E04) ∧ t.root = 8 ∧
      t.statusIdle = 0x12 := by decide +kernel

/-- V-BLD-9: a weight beyond 32 bits. -/
theorem test_build_wide_weight :
    nodeWords (withTree [(0x00, 0xFFFFFFFF), (0x01, 0xFFFFFFFF)]) 2 =
      (0xFFFFFFFE, 0x00000001, 0x00000200) := by decide +kernel

/-- V-TBL-6, with the tree of V-BLD-7 written out. -/
theorem test_table :
    let t := issued 3 (rooted
      [leafNode 0x61 1, leafNode 0x62 1, leafNode 0x63 2, leafNode 0x64 3, leafNode 0x65 5,
        innerNode 2 0 1, innerNode 4 2 5, innerNode 7 3 6, innerNode 12 4 7] 8)
    codeWords t 0x61 = (0x80000004, 0x7) ∧ codeWords t 0x62 = (0x80000004, 0xF) ∧
      codeWords t 0x63 = (0x80000003, 0x3) ∧ codeWords t 0x64 = (0x80000002, 0x1) ∧
      codeWords t 0x65 = (0x80000001, 0x0) ∧ codeWords t 0x66 = (0, 0) := by decide +kernel

/-- V-TBL-8. -/
theorem test_table_noTree : (issued 3 State.reset).statusIdle = 0x0306 := by decide +kernel

/-- R164 by hand: "10" has length 2 and only code bit 0 set. -/
theorem test_lookup :
    let t := issued 0x6207 (coded [])
    t.lkLen = 2 ∧ t.lkBits[0] = 0x00000001 ∧ t.lkBits[7] = 0 ∧ t.statusIdle = 0x32 := by
  decide +kernel

/-- V-LK-4, with the code table of `coded`. -/
theorem test_lookup_fail :
    let t := issued 0x7A07 { coded [] with lkLen := 9 }
    t.statusIdle = 0x0536 ∧ t.errInfo = 0x7A ∧ t.lkLen = 0 := by decide +kernel

/-- V-ENC-6: the overflow falls inside a code word. -/
theorem test_encode_overflow :
    let t := issued 4 { codedBy [(0x72, [true, true, true])] (List.replicate 6 0x72) with
      params := { Config.params with bitBufBytes := 2 } }
    bytesOf t.bits 3 = [0xFF, 0xFF, 0] ∧ t.encBits = 16 ∧ t.encBytes = 2 ∧ t.decBits = 16 ∧
      t.errInfo = 5 ∧ t.statusIdle = 0x0636 := by decide +kernel

/-- V-ENC-7. -/
theorem test_encode_lookupFail :
    let t := issued 4 (codedBy [(0x61, [true]), (0x62, [false])] [0x61, 0x62, 0x63, 0x61])
    bytesOf t.bits 1 = [0x80] ∧ t.encBits = 2 ∧ t.encBytes = 1 ∧ t.decBits = 2 ∧ t.errInfo = 2 ∧
      t.statusIdle = 0x0536 := by decide +kernel

/-- V-DEC-3 without its code table, with the tree of V-BLD-2 written out: the stream ends inside a
code word. -/
theorem test_decode_truncated :
    let t := issued 5 { rooted
      [leafNode 0x61 5, leafNode 0x62 2, leafNode 0x63 1, leafNode 0x64 1, leafNode 0x72 2,
        innerNode 2 2 3, innerNode 4 1 4, innerNode 6 5 6, innerNode 11 0 7] 8 with
      bits := memoryOf [0x6E, 0x8A, 0xDC]
      decBits := 21 }
    bytesOf t.symOut 9 = [0x61, 0x62, 0x72, 0x61, 0x63, 0x61, 0x64, 0x61, 0x62] ∧ t.outLen = 9 ∧
      t.errInfo = 19 ∧ t.statusIdle = 0x0716 := by decide +kernel

/-- V-DEC-7 without its code table, with the tree of V-BLD-1 written out. -/
theorem test_decode_overflow :
    let t := issued 5 { rooted [leafNode 0x61 2, leafNode 0x62 1, innerNode 3 1 0] 2 with
      params := { Config.params with outCap := 2 }
      bits := memoryOf [0xC0]
      decBits := 3 }
    bytesOf t.symOut 3 = [0x61, 0x61, 0] ∧ t.outLen = 2 ∧ t.errInfo = 2 ∧ t.statusIdle = 0x0616 := by
  decide +kernel

/-- V-L1-3. -/
theorem test_compress :
    let t := issued 6 (loaded [0x61, 0x61, 0x62])
    bytesOf t.bits 1 = [0xC0] ∧ t.encBits = 3 ∧ t.decBits = 3 ∧ t.root = 2 ∧ t.nsym = 2 ∧
      codeWords t 0x61 = (0x80000001, 1) ∧ codeWords t 0x62 = (0x80000001, 0) ∧
      t.statusIdle = 0x32 := by decide +kernel

/-- V-L1-2. -/
theorem test_compress_empty : (issued 6 State.reset).statusIdle = 0x0A := by decide +kernel

/-- V-CLR-1, from a state written out. -/
theorem test_clear :
    let t := issued 8 { coded [0x61, 0x61, 0x62] with
      ie := true, bits := [(0, 0xC0)], nsym := 2, root := 2, lkLen := 1, encBits := 3 }
    t.statusIdle = 0x02 ∧ t.irq = true ∧ t.inLen = 0 ∧ t.lkLen = 0 ∧ t.nsym = 0 ∧ t.root = 0 ∧
      t.encBits = 0 ∧ codeWords t 0x61 = (0, 0) ∧ t.bits = [(0, 0xC0)] := by decide +kernel

/-- V-ILL-1. -/
theorem test_illegal :
    (issued 0x9 { State.reset with errInfo := 7 }).statusIdle = 0x0106 ∧
      (issued 0x9 { State.reset with errInfo := 7 }).errInfo = 0 := by decide +kernel

/-! ## The host port -/

/-- V-HOST-1. -/
theorem test_symIn_write :
    bytesOf (hostWrite 0x100000 0x00626161 State.reset).symIn 4 = [0x61, 0x61, 0x62, 0] := by
  decide +kernel

/-- V-HOST-5: the bytes beyond the capacity are ignored, and read 0. -/
theorem test_symIn_capacity :
    let s := hostWrite 0x100004 0x44332211
      { State.reset with params := { Config.params with maxSyms := 6 } }
    s.symIn = [(4, 0x11), (5, 0x22)] ∧ (hostRead 0x100004 s).resp = some (.readOk 0x00002211) := by
  decide +kernel

/-- V-HOST-2, with 0 in the byte the vector leaves open. -/
theorem test_bits_read :
    (hostRead 0x200000 { State.reset with bits := memoryOf [0x6E, 0x8A, 0xDC] }).resp =
      some (.readOk 0x00DC8A6E) := by decide +kernel

/-- V-HOST-3. -/
theorem test_byte_wide_write :
    hostAccess { addr := 0x100001, width := 1, op := .write 0x55 } State.reset =
      { State.reset with resp := some .writeError } := rfl

/-- V-HOST-4. -/
theorem test_reserved_offset :
    (hostRead 0x060 State.reset).resp = some (.readOk 0) ∧
      hostWrite 0x060 0xFFFFFFFF State.reset = { State.reset with resp := some .writeOk } :=
  ⟨rfl, rfl⟩

/-- V-HOST-6. -/
theorem test_freq_write :
    let s := { State.reset with done := true, treeValid := true, tableValid := true }
    (hostWrite 0x58C 1 s).statusIdle = 0x02 ∧ entryOf (hostWrite 0x58C 1 s).freq 0x63 = 1 := by
  decide +kernel

/-- V-HOST-7. -/
theorem test_id_cmd :
    (hostRead 0x000 State.reset).resp = some (.readOk 0x48554631) ∧
      (hostRead 0x00C State.reset).resp = some (.readOk 0) := by decide +kernel

/-- R10: an address outside the region is not folded into it. -/
theorem test_outside_access :
    hostAccess { addr := 0x400004, width := 4, op := .write 1 } State.reset = State.reset := rfl

/-- R32: bit 0 of CTRL alone, while busy. -/
theorem test_ctrl_write :
    (hostWrite 0x004 0xFFFFFFFF { State.reset with seq := .busy 6 3 }).ie = true ∧
      (hostRead 0x004 { State.reset with ie := true }).resp = some (.readOk 1) := by decide +kernel

/-- V-BLD-1 node 0 as the host reads it: W0 and W2. -/
theorem test_tree_read :
    (hostRead 0x2000 (rooted [leafNode 0x61 2] 0)).resp = some (.readOk 0x00000002) ∧
      (hostRead 0x2008 (rooted [leafNode 0x61 2] 0)).resp = some (.readOk 0x81840000) := by
  decide +kernel

/-- V-ILL-4. -/
theorem test_status_write :
    (hostWrite 0x008 0x2 { State.reset with done := true, errCode := .illegalCmd }).statusIdle =
      0x0104 := by decide +kernel

/-- V-OVR-1: a write to CMD while busy is lost and sets OVERRUN. -/
theorem test_overrun :
    (hostWrite 0x00C 0 { State.reset with seq := .busy 6 3 }).overrun = true ∧
      (hostWrite 0x00C 0 { State.reset with seq := .busy 6 3 }).seq = .busy 6 3 := by decide +kernel

/-- P1: the wait for the running command ends once it is idle, with STATUS read. -/
theorem test_wait :
    (stepped { State.reset with inbox := [.wait], done := true }).resp = some (.readOk 0x02) ∧
      (stepped { State.reset with inbox := [.wait], seq := .busy 0 3 }).inbox = [.wait] := by
  decide +kernel

/-! ## Witnesses: for each statement with hypotheses, values that meet all of them together -/

/-- A busy block. -/
def busy (w : Word) (hold : Nat) : State := { State.reset with seq := .busy w hold }

/-- A one-leaf tree, as BUILD would leave it. -/
def oneLeaf : State := rooted [leafNode 0x7A 4] 0

/-- A tree with the leaves a, b, c, whose code words are "0", "10", "11", after TABLE. -/
def threeLeaves : State := withTable [(0x61, 2), (0x62, 1), (0x63, 1)]

/-- Nothing but the flags and the sequencer matters to a state whose flags are clear (R49). -/
theorem consistent_of_invalid {s : State} (h : s.treeValid = false) (h' : s.tableValid = false) :
    s.TablesConsistent where
  tableNeedsTree := by simp [h']
  treeCurrent := by simp [h]
  tableCurrent := by simp [h']
  treeNotEmpty := by simp [h]

theorem one_le_distinctSymbols {freq : Vector Word 256} (a : Sym) (h : entryOf freq a ≠ 0) :
    1 ≤ distinctSymbols freq := by
  refine List.length_pos_of_mem (a := a.toNat) (List.mem_filter.2 ⟨List.mem_range.2 a.isLt, ?_⟩)
  simpa using h

/-- TABLE after BUILD of a table that is not empty, where NSYM and ROOT have their widths (R49). -/
theorem consistent_after_table {f : Vector Word 256} (hv : ((buildTree f).nsym != 0) = true)
    (hn : 1 ≤ (BitVec.ofNat 9 (buildTree f).nsym).toNat)
    (hr : (BitVec.ofNat 9 (buildTree f).root).toNat =
      2 * (BitVec.ofNat 9 (buildTree f).nsym).toNat - 2) :
    (after .table (after .build { State.reset with freq := f })).TablesConsistent := by
  have ht : (after .build { State.reset with freq := f }).treeValid = true := hv
  have he : (after .build { State.reset with freq := f }).empty = false := by
    have h : (after .build { State.reset with freq := f }).empty = ((buildTree f).nsym == 0) := rfl
    rw [h]; simpa using hv
  generalize hs : after .build { State.reset with freq := f } = s at *
  have h : after .table s =
      finish { s with code := deriveCode s.tree s.root, tableValid := true } := by
    simp only [after, exec, execTable, tableBody, ht, if_true, conclude_finished]
    rfl
  rw [h]
  refine ⟨fun _ => ht, fun _ => ?_, fun _ => rfl, by simp [finish, complete, he]⟩
  subst hs
  exact ⟨rfl, rfl, rfl, hn, hr⟩

theorem threeLeaves_build :
    (buildTree (freqOf [(0x61, 2), (0x62, 1), (0x63, 1)])).nsym = 3 ∧
      (buildTree (freqOf [(0x61, 2), (0x62, 1), (0x63, 1)])).root = 4 := by decide +kernel

theorem threeLeaves_consistent : threeLeaves.TablesConsistent :=
  consistent_after_table (f := freqOf [(0x61, 2), (0x62, 1), (0x63, 1)])
    (by rw [threeLeaves_build.1]; rfl) (by rw [threeLeaves_build.1]; decide)
    (by rw [threeLeaves_build.1, threeLeaves_build.2]; decide)

/-- The clauses of the witnesses below that need the three-leaf tree made. -/
theorem threeLeaves_facts :
    threeLeaves.treeValid = true ∧ threeLeaves.tableValid = true ∧
      entryOf threeLeaves.freq 0x64 = 0 ∧ entryOf threeLeaves.freq 0x61 ≠ 0 ∧
      (entryOf threeLeaves.code 0x61).valid = true ∧ (entryOf threeLeaves.code 0x62).valid = true := by
  decide +kernel

theorem buffersOk_of {s : State}
    (h : ∀ b : BufferId, ((s.buffer b).wf && (s.buffer b).within (s.params.capacity b)) = true) :
    s.BuffersOk := fun b => by simpa using h b

theorem reset_buffersOk : State.reset.BuffersOk := buffersOk_of (by intro b; cases b <;> decide)

theorem witness_LegalWordIsItsCommandsWord : decode 0x0000FF07#32 = .instr (.lookup 0xFF) := by decide

/-- One word for each clause: OP 9 and OP 15, RSV0, RSV1, and SYM with the OP of NOP and of CLEAR; and for
each way to complete: `hold` 0, no event left, a WAIT next. -/
theorem witness_IllegalWordReportsIllegalCmd :
    (busy 0x9 0).seq = .busy 0x9 0 ∧ ((busy 0x9 5).seq = .busy 0x9 5 ∧ (busy 0x9 5).inbox = []) ∧
      ({ busy 0x9 5 with inbox := [.wait] } : State).inbox = .wait :: [] ∧
      8 < ((0x9 : Word).extractLsb' 0 4).toNat ∧
      8 < ((0xF : Word).extractLsb' 0 4).toNat ∧ (0x10 : Word).extractLsb' 4 4 ≠ 0#4 ∧
      (0x10000 : Word).extractLsb' 16 16 ≠ 0#16 ∧
      ((0x100 : Word).extractLsb' 8 8 ≠ 0#8 ∧ (0x100 : Word).extractLsb' 0 4 ≠ 7#4) ∧
      ((0x8008 : Word).extractLsb' 8 8 ≠ 0#8 ∧ (0x8008 : Word).extractLsb' 0 4 ≠ 7#4) := by decide

/-- Clause 1 with `hold` 0, with no event left and with a WAIT next; clause 2 with one access let pass; the
idle clauses with an access, with a WAIT and with nothing. -/
theorem witness_StepRunsTheLatchedCommand :
    ((busy 1 0).seq = .busy 1 0 ∧ decode 1 = .instr .count) ∧
      ((busy 1 5).seq = .busy 1 5 ∧ (busy 1 5).inbox = []) ∧
      ({ busy 1 5 with inbox := [.wait] } : State).inbox = .wait :: [] ∧
      (({ busy 1 1 with inbox := [.access ⟨0, 4, .read⟩] } : State).seq = .busy 1 (0 + 1) ∧
        ({ busy 1 1 with inbox := [.access ⟨0, 4, .read⟩] } : State).inbox =
          .access ⟨0, 4, .read⟩ :: []) ∧
      (({ State.reset with inbox := [.access ⟨0, 4, .read⟩] } : State).seq = .idle ∧
        ({ State.reset with inbox := [.access ⟨0, 4, .read⟩] } : State).inbox =
          .access ⟨0, 4, .read⟩ :: []) ∧
      ({ State.reset with inbox := [.wait] } : State).inbox = .wait :: [] ∧
      (State.reset.seq = .idle ∧ State.reset.inbox = []) := by decide

theorem witness_CmdWriteIsAcceptedOnlyWhileIdle :
    State.reset.seq = .idle ∧ (busy 6 0).seq = .busy 6 0 := by decide

theorem witness_BusyBlockCompletesInBoundedSteps :
    (busy 6 0).seq = .busy 6 0 ∧ (busy 6 3).seq = .busy 6 3 := by decide

theorem witness_BusyAccessKeepsTheCommandsState : (busy 6 3).seq = .busy 6 3 := by decide

/-- IN_LEN at its greatest value in range. -/
theorem witness_CountTalliesTheInput :
    ({ State.reset with inLen := 64 } : State).inLen.toNat ≤ State.reset.params.maxSyms := by decide

theorem witness_CountedEntriesSumToInputLength :
    State.reset.params.legal = true ∧ (loaded [0x61, 0x61, 0x62]).inLen.toNat ≤ 64 ∧
      exec .count (loaded [0x61, 0x61, 0x62]) = .next (after .count (loaded [0x61, 0x61, 0x62])) :=
  ⟨by decide, by decide, exec_after _ _⟩

/-- The least lengths out of range. -/
theorem witness_RangeErrorChangesNothing :
    State.reset.params.maxSyms < ({ State.reset with inLen := 65 } : State).inLen.toNat ∧
      (Instr.count = .count ∨ Instr.count = .encode ∨ Instr.count = .compress) ∧
      8 * State.reset.params.bitBufBytes < ({ State.reset with decBits := 513 } : State).decBits.toNat := by
  decide

theorem witness_BuildOfEmptyTableMakesNoTree : ∀ a : Sym, entryOf State.reset.freq a = 0 :=
  entryOf_replicate 0

theorem witness_BuildOfOneSymbolMakesOneLeaf :
    entryOf (freqOf [(0x7A, 4)]) 0x7A ≠ 0 ∧ ∀ b : Sym, b ≠ 0x7A → entryOf (freqOf [(0x7A, 4)]) b = 0 := by
  refine ⟨by decide +kernel, fun b h => ?_⟩
  simp only [freqOf, List.foldl, entryOf_setEntry, if_neg h, entryOf_replicate]

theorem witness_BuildMakesLeavesInSymbolOrder :
    exec .build (loaded [0x61]) = .next (after .build (loaded [0x61])) := exec_after _ _

/-- Two equal weights: the tie rule is used. In a built tree: the first internal node and the root of the
three-leaf tree. -/
theorem witness_MergeTakesTheTwoLightest :
    (let q : MergeQueue := { made := [leafNode 0x61 1, leafNode 0x62 1], pq := [0, 1] }
     q.pq.Nodup ∧ (∀ i ∈ q.pq, i < q.made.length) ∧ 1 < q.pq.length) ∧
    exec .build { State.reset with freq := freqOf [(0x61, 2), (0x62, 1), (0x63, 1)] } =
      .next (withTree [(0x61, 2), (0x62, 1), (0x63, 1)]) ∧
    ((4 : NodeIdx).toNat ≤ (withTree [(0x61, 2), (0x62, 1), (0x63, 1)]).root.toNat ∧
      distinctSymbols (freqOf [(0x61, 2), (0x62, 1), (0x63, 1)]) ≤ (3 : NodeIdx).toNat ∧
      1 ≤ distinctSymbols (freqOf [(0x61, 2), (0x62, 1), (0x63, 1)])) := by
  refine ⟨by decide, rfl, ?_, by decide +kernel, one_le_distinctSymbols 0x61 (by decide +kernel)⟩
  show 4 ≤ (BitVec.ofNat 9 (buildTree (freqOf [(0x61, 2), (0x62, 1), (0x63, 1)])).root).toNat
  rw [threeLeaves_build.2]
  decide

/-- One symbol, the least number of them, and three. -/
theorem witness_TreeWeightsAreSums :
    (1 ≤ distinctSymbols (freqOf [(0x7A, 4)]) ∧
      exec .build { State.reset with freq := freqOf [(0x7A, 4)] } = .next (withTree [(0x7A, 4)])) ∧
      1 ≤ distinctSymbols (freqOf [(0x61, 2), (0x62, 1), (0x63, 1)]) :=
  ⟨⟨one_le_distinctSymbols 0x7A (by decide +kernel), rfl⟩,
    one_le_distinctSymbols 0x61 (by decide +kernel)⟩

/-- Three leaves: node 3 is internal and node 4 the root, so the clauses on children and parents are met by
`i` = 3 and 4 and by `j` = 0 to 3. -/
theorem witness_TreeIsAStrictBinaryTree :
    let t := withTree [(0x61, 2), (0x62, 1), (0x63, 1)]
    exec .build { State.reset with freq := freqOf [(0x61, 2), (0x62, 1), (0x63, 1)] } = .next t ∧
      1 ≤ distinctSymbols (freqOf [(0x61, 2), (0x62, 1), (0x63, 1)]) ∧
      (nodeAt t.tree 3).leaf = false ∧ (nodeAt t.tree 4).leaf = false ∧ t.root.toNat = 4 := by
  refine ⟨rfl, one_le_distinctSymbols 0x61 (by decide +kernel), by decide +kernel⟩

/-- A symbol with a count and one without, in a tree of several leaves. -/
theorem witness_TableGivesPathsToLeaves :
    (threeLeaves.treeValid = true ∧ threeLeaves.TablesConsistent) ∧
      entryOf threeLeaves.freq 0x64 = 0 ∧ entryOf threeLeaves.freq 0x61 ≠ 0 :=
  ⟨⟨threeLeaves_facts.1, threeLeaves_consistent⟩, threeLeaves_facts.2.2.1, threeLeaves_facts.2.2.2.1⟩

/-- The least and the greatest length in range. -/
theorem witness_NoTreeErrorChangesNothing :
    State.reset.treeValid = false ∧
      (0 < ({ State.reset with decBits := 1 } : State).decBits.toNat ∧
        ({ State.reset with decBits := 512 } : State).decBits.toNat ≤ 8 * State.reset.params.bitBufBytes) := by
  decide

theorem witness_CodeWordsAreOneTo255Bits :
    exec .table oneLeaf = .next (after .table oneLeaf) ∧ oneLeaf.treeValid = true ∧
      (entryOf (after .table oneLeaf).code 0x7A).valid = true :=
  ⟨rfl, rfl, by decide +kernel⟩

theorem witness_CodeWordsArePrefixFree :
    threeLeaves.TablesConsistent ∧ threeLeaves.tableValid = true ∧ (0x61 : Sym) ≠ 0x62 ∧
      (entryOf threeLeaves.code 0x61).valid = true ∧ (entryOf threeLeaves.code 0x62).valid = true :=
  ⟨threeLeaves_consistent, threeLeaves_facts.2.1, by decide, threeLeaves_facts.2.2.2.2⟩

theorem witness_LookupReturnsTheEntry :
    (coded []).tableValid = true ∧ (entryOf (coded []).code 0x62).valid = true := by decide +kernel

theorem witness_NoTableErrorChangesNothing :
    (loaded [0x61]).tableValid = false ∧ 0 < (loaded [0x61]).inLen.toNat ∧
      (loaded [0x61]).inLen.toNat ≤ (loaded [0x61]).params.maxSyms := by decide

theorem witness_LookupOfUnknownSymbolFails :
    (coded []).tableValid = true ∧ (entryOf (coded []).code 0x63).valid = false := by decide +kernel

theorem witness_EncodeOfEmptyInput : State.reset.inLen = 0 := rfl

theorem witness_EncodeWritesTheStream :
    let s := coded [0x61, 0x62]
    s.bits.wf = true ∧ 0 < s.inLen.toNat ∧ s.inLen.toNat ≤ s.params.maxSyms ∧ s.tableValid = true ∧
      allCoded s.code s.inputSymbols = true ∧
      (streamOf s.code s.inputSymbols).length ≤ 8 * s.params.bitBufBytes := by decide +kernel

theorem witness_EncodeStopsAtUnknownSymbol :
    let s := coded [0x61, 0x63, 0x62]
    s.bits.wf = true ∧ s.inLen.toNat ≤ s.params.maxSyms ∧ s.tableValid = true ∧
      s.inputSymbols = [0x61] ++ 0x63 :: [0x62] ∧ allCoded s.code [0x61] = true ∧
      (entryOf s.code 0x63).valid = false ∧
      (streamOf s.code [0x61]).length ≤ 8 * s.params.bitBufBytes := by decide +kernel

/-- BITS is full after seven bits of the code words and one bit of the word "10". -/
theorem witness_EncodeStopsWhenBitsIsFull :
    let before : List Sym := List.replicate 7 0x61
    let s := { coded (before ++ [0x62]) with params := { Config.params with bitBufBytes := 1 } }
    s.bits.wf = true ∧ s.inLen.toNat ≤ s.params.maxSyms ∧ s.tableValid = true ∧
      s.inputSymbols = before ++ 0x62 :: [] ∧ allCoded s.code (before ++ [0x62]) = true ∧
      (streamOf s.code before).length ≤ 8 * s.params.bitBufBytes ∧
      8 * s.params.bitBufBytes < (streamOf s.code (before ++ [0x62])).length := by decide +kernel

theorem witness_DecodeOfEmptyStream :
    State.reset.decBits = 0 ∧
      (({ State.reset with decBits := 1 } : State).decBits ≠ 0 ∧
        ({ State.reset with decBits := 1 } : State).decBits.toNat ≤ 8 * State.reset.params.bitBufBytes ∧
        State.reset.treeValid = false) := by decide

/-- The stream is no part of the invariants of R49. -/
theorem consistent_with_stream {s : State} (h : s.TablesConsistent) (bits : Memory) (n : Word) :
    ({ s with bits := bits, decBits := n } : State).TablesConsistent := ⟨h.1, h.2, h.3, h.4⟩

/-- With a cut word and without one: the streams "01" and "0" of the three-leaf tree. -/
theorem witness_DecodeWritesTheSymbols :
    (({ threeLeaves with bits := [(0, 0x40)], decBits := 2 } : State).TablesConsistent ∧
      ({ threeLeaves with bits := [(0, 0x40)], decBits := 1 } : State).TablesConsistent) ∧
    let s := { threeLeaves with bits := [(0, 0x40)], decBits := 2 }
    let u := { threeLeaves with bits := [(0, 0x40)], decBits := 1 }
    (s.symOut.wf = true ∧ s.treeValid = true ∧ 0 < s.decBits.toNat ∧
      s.decBits.toNat ≤ 8 * s.params.bitBufBytes ∧ s.streamBits = [[false]].flatten ++ [true] ∧
      readAs s.tree s.root [[false]] [0x61] = true ∧ staysInside s.tree s.root [true] = true ∧
      [(0x61 : Sym)].length ≤ s.params.outCap) ∧
      u.streamBits = [[false]].flatten ++ [] :=
  ⟨⟨consistent_with_stream threeLeaves_consistent _ _,
    consistent_with_stream threeLeaves_consistent _ _⟩, by decide +kernel⟩

theorem witness_DecodeStopsWhenOutputIsFull :
    let s := { oneLeaf with decBits := 3, params := { Config.params with outCap := 1 } }
    s.symOut.wf = true ∧ s.treeValid = true ∧ s.decBits.toNat ≤ 8 * s.params.bitBufBytes ∧
      s.streamBits = [[false]].flatten ++ [false] ++ [false] ∧
      readAs s.tree s.root [[false]] [0x7A] = true ∧ readsAs s.tree s.root [false] 0x7A = true ∧
      [(0x7A : Sym)].length = s.params.outCap := by decide +kernel

/-- The greatest length that fits both buffers. -/
theorem witness_OneLeafTreeEmitsASymbolPerBit :
    let s := { oneLeaf with decBits := 64 }
    s.symOut.wf = true ∧ s.treeValid = true ∧ (nodeAt s.tree s.root).leaf = true ∧
      s.decBits.toNat ≤ 8 * s.params.bitBufBytes ∧ s.decBits.toNat ≤ s.params.outCap := by
  decide +kernel

theorem witness_DecodeChangesOnlyItsResults :
    State.reset.params.legal = true ∧ State.reset.symOut.wf = true := by decide

theorem witness_EveryStreamSplitsInOneWay :
    threeLeaves.TablesConsistent ∧ threeLeaves.treeValid = true :=
  ⟨threeLeaves_consistent, threeLeaves_facts.1⟩

theorem witness_CompressRunsTheFourStages :
    State.reset.inLen.toNat ≤ State.reset.params.maxSyms ∧
      ({ State.reset with inLen := 64 } : State).inLen.toNat ≤ State.reset.params.maxSyms := by decide

theorem witness_CompressOfFittingInput :
    let s := loaded [0x61]
    s.params.legal = true ∧ s.bits.wf = true ∧ 0 < s.inLen.toNat ∧ s.inLen.toNat ≤ s.params.maxSyms ∧
      (streamOf (codeOf (frequencies s.inputSymbols)) s.inputSymbols).length ≤
        8 * s.params.bitBufBytes := by decide +kernel

theorem witness_CompressOfEmptyInput : State.reset.inLen = 0 := rfl

theorem witness_CompressEndsOnlyWithRangeOrOverflow :
    State.reset.params.legal = true ∧ State.reset.bits.wf = true := by decide

theorem witness_OneSymbolInputGivesZeroBits :
    let s := loaded [0x7A, 0x7A, 0x7A, 0x7A]
    s.params.legal = true ∧ s.bits.wf = true ∧ 0 < s.inLen.toNat ∧ s.inLen.toNat ≤ s.params.maxSyms ∧
      (∀ i, i < s.inLen.toNat → s.symIn.read i = 0x7A) ∧
      s.inLen.toNat ≤ 8 * s.params.bitBufBytes := by decide +kernel

theorem witness_DecodeOfCompressIsTheInput :
    let s := loaded [0x61, 0x61, 0x62]
    s.params.legal = true ∧ s.bits.wf = true ∧ s.symOut.wf = true ∧ s.inLen.toNat ≤ s.params.maxSyms := by
  decide

theorem witness_EarlyErrorsLeaveTheState :
    State.reset.params.legal = true ∧ State.reset.bits.wf = true := by decide

theorem witness_CommandsAreIdempotent :
    State.reset.BuffersOk ∧ State.reset.params.legal = true ∧ State.reset.errInfo = 0 :=
  ⟨reset_buffersOk, by decide, rfl⟩

/-- The first and the last register of the list, and the ends of the reserved and read-only ranges. -/
theorem witness_ConstantRegistersReadTheirConstants (p : Params) :
    (let l := [(0x000, 0x48554631#32), (0x034, BitVec.ofNat 32 p.maxSyms),
        (0x038, BitVec.ofNat 32 p.bitBufBytes), (0x03C, BitVec.ofNat 32 p.outCap)]
     (0x000, 0x48554631#32) ∈ l ∧ (0x03C, BitVec.ofNat 32 p.outCap) ∈ l) ∧
    [0x60, 0x3FC, 0x800, 0x1FFC, 0x4400, 0x5FFC, 0x8000, 0xFFFFC].all
      (fun off => reservedOffset off && off % 4 == 0) = true ∧
    [0x2000, 0x43FC, 0x6000, 0x7FFC, 0x300000, 0x3FFFFC].all
      (fun off => readOnlyOffset off && off % 4 == 0) = true :=
  ⟨by simp, by decide, by decide⟩

/-- The last address of the region, a byte access at its first, and the addresses just outside it, for a
block at HUF_BASE `0x400000`. -/
theorem witness_BadAccessGetsABusError :
    let p := { Config.params with hufBaseIndex := 1 }
    (p.hufBase ≤ 0x7FFFFF ∧ 0x7FFFFF < p.hufBase + 0x400000 ∧ 0x7FFFFF % 4 ≠ 0) ∧
      (p.hufBase ≤ 0x400000 ∧ 0x400000 < p.hufBase + 0x400000 ∧ (1 : Nat) ≠ 4) ∧
      (Access.mk 0x400000 1 (.write 5)).op = .write 5 ∧ (Access.mk 0x7FFFFF 4 .read).op = .read ∧
      0x3FFFFF < p.hufBase ∧ p.hufBase + 0x400000 ≤ 0x800000 := by decide

/-- Idle and busy; every error code is some idle state's. -/
theorem witness_StatusReadsBitByBit :
    (State.reset.seq = .idle ∧ (busy 6 3).seq = .busy 6 3) ∧
      ∀ e : ErrCode, ({ State.reset with errCode := e } : State).seq = .idle ∧
        ({ State.reset with errCode := e } : State).errCode = e :=
  ⟨by decide, fun _ => ⟨rfl, rfl⟩⟩

/-- Idle and busy, the last TREE record, the ends of the read-only ranges, the place of a node 511. -/
theorem witness_FreqWriteStoresAndInvalidates :
    (State.reset.seq = .idle ∧ (busy 6 3).seq = .busy 6 3) ∧ (510 : NodeIdx).toNat < 511 ∧
      [0x2000, 0x43FC, 0x6000, 0x7FFC, 0x300000, 0x3FFFFC].all
        (fun off => readOnlyOffset off && off % 4 == 0) = true ∧
      (0x3FF0 ≤ 0x3FFC ∧ 0x3FFC < 0x4000 ∧ 0x3FFC % 4 = 0) := by decide

/-- The last word of each window, and the last word within the capacity. -/
theorem witness_SymInWordWriteIsLittleEndian :
    State.reset.seq = .idle ∧
      ((BufferId.symIn ≠ .symOut ∧ (State.reset.buffer .symIn).wf = true) ∧
        (BufferId.bits ≠ .symOut ∧ (State.reset.buffer .bits).wf = true)) ∧
      0x3FFFF < 2 ^ 18 ∧ 4 * 15 + 3 < State.reset.params.capacity .symIn ∧
      (busy 6 3).seq = .busy 6 3 := by decide

theorem witness_BitsWordReadShowsTheStream :
    State.reset.seq = .idle ∧ 0x3FFFF < 2 ^ 18 ∧ 4 * 15 + 3 < State.reset.params.capacity .symOut ∧
      511 / 32 = 15 ∧ 511 / 8 < State.reset.params.bitBufBytes ∧
      ((busy 6 3).seq = .busy 6 3 ∧ (busy 6 3).params.capacity .symIn ≤ 4 * 16 + 0) := by decide

/-- Idle, and busy with the report as acceptance left it. -/
theorem witness_IrqIsEnableAndDone :
    State.reset.seq = .idle ∧ (busy 6 3).seq = .busy 6 3 ∧ (busy 6 3).ReportOk :=
  ⟨rfl, rfl, { busyClears := by decide, noErrorNoInfo := by decide }⟩

/-- Idle, busy with one event let pass, and busy with none. -/
theorem witness_ResetInputAbandonsAndClears :
    let s := { State.reset with inbox := [.resetInput] }
    (s.inbox = .resetInput :: [] ∧ s.seq = .idle) ∧
      ({ s with seq := .busy 6 1 } : State).seq = .busy 6 (0 + 1) ∧
      ({ s with seq := .busy 6 0 } : State).seq = .busy 6 0 := by decide

theorem witness_ResetMeetsTheInvariants :
    Config.params.legal = true ∧
      ({ State.resetWith Config.params with symIn := [(63, 1)], bits := [(0, 0xC0)], symOut := [] } :
        State).BuffersOk :=
  ⟨by decide, buffersOk_of (by intro b; cases b <;> decide)⟩

/-- The command word of BUILD is about to run. -/
theorem witness_StepKeepsTablesConsistent :
    (busy 2 0).TablesConsistent ∧ step (busy 2 0) = .next (after .build (busy 2 0)) :=
  ⟨consistent_of_invalid rfl rfl, rfl⟩

theorem witness_StepKeepsBuffersCanonical :
    State.reset.BuffersOk ∧ step State.reset = .next (serveIdle State.reset) := ⟨reset_buffersOk, rfl⟩

/-- A block with an input, about to be served an access. -/
theorem witness_StepKeepsTheInvariants :
    let s := { loaded [0x61] with inbox := [.access ⟨0x10, 4, .write 1⟩] }
    s.Inv ∧ step s = .next (serveIdle s) :=
  ⟨{ params := by decide
     buffers := buffersOk_of (by intro b; cases b <;> decide)
     tables := consistent_of_invalid rfl rfl
     forms :=
      { encBytes := by decide
        encBits := by decide
        outLen := by decide
        nsym := by decide
        lkBits := fun k j _ _ => by
          simp [loaded, State.reset, State.resetWith]
        tree := fun i => by
          show (nodeAt (Vector.replicate 511 Node.zero) i).formed = true
          rw [nodeAt_replicate]; rfl
        code := fun a => by
          show (entryOf (Vector.replicate 256 CodeEntry.invalid) a).Formed
          rw [entryOf_replicate]; exact CodeEntry.formed_invalid }
     report := { busyClears := by decide, noErrorNoInfo := by decide } }, rfl⟩

/-- Idle and busy, and the ends of the ranges of registers. -/
theorem witness_RegistersReadAndWriteByTheirRules :
    State.reset.seq = .idle ∧ (busy 6 3).seq = .busy 6 3 ∧
      (0x010, State.reset.inLen) ∈ [(0x010, State.reset.inLen)] ∧
      (0x010 ≤ 0x030 ∧ 0x030 < 0x034 ∧ 0x030 % 4 = 0) ∧
      (0x040 ≤ 0x05C ∧ 0x05C < 0x060 ∧ 0x05C % 4 = 0) := by decide

end Sys2Proof.Tests
end

/-!
PROOFS. Constant registers, reserved offsets and read-only regions (10_state.md R31, R43; 20_memory.md
R76): an aligned access that the block answers with a constant, or whose write it drops, busy or idle.
-/

namespace Sys2Proof.Machine

/-- A host read of what reads alike idle and busy changes only the response and the draw counter. -/
theorem hostRead_of_readTarget {s : State} {off : Nat} {value : Word} (h : off < 0x400000)
    (h4 : off % 4 = 0) (hv : readTarget s (targetOf off) = value) :
    hostRead off s = { s with resp := some (.readOk value), draws := s.draws + 1 } := by
  rw [hostRead_eq s h h4, hv]; rfl

/-- A dropped host write changes only the response, which is no bus error. -/
theorem hostWrite_of_ignored {s : State} {off : Nat} {v : Word} (h : off < 0x400000)
    (h4 : off % 4 = 0) (hw : writeTarget v s (targetOf off) = s) :
    hostWrite off v s = { s with resp := some .writeOk } := by
  rw [hostWrite_eq s h h4, hw]; rfl

/-- A register whose read is the stored value even while busy, and whose write is dropped: both accesses
at its offset. -/
theorem hostAccess_constantReg {s : State} {off : Nat} {v : Word} {r : Reg} (h : off < 0x40)
    (h4 : off % 4 = 0) (ht : targetOf off = .reg r)
    (hread : ∀ free, s.regBusy free r = s.regValue r) (hwrite : writeReg v s r = s) :
    hostRead off s = { s with resp := some (.readOk (s.regValue r)), draws := s.draws + 1 } ∧
      hostWrite off v s = { s with resp := some .writeOk } := by
  have hlow : off < 0x400000 := by omega
  exact ⟨hostRead_of_readTarget hlow h4 (ht ▸ readTarget_always rfl hread),
    hostWrite_of_ignored hlow h4 (ht ▸ hwrite)⟩

theorem readTarget_reserved (s : State) : readTarget s .reserved = 0 :=
  readTarget_always rfl fun _ => rfl

theorem reservedOffset_lt {off : Nat} (h : reservedOffset off = true) : off < 0x400000 := by
  simp only [reservedOffset, Bool.or_eq_true, Bool.and_eq_true, decide_eq_true_eq] at h
  omega

theorem readOnlyOffset_lt {off : Nat} (h : readOnlyOffset off = true) : off < 0x400000 := by
  simp only [readOnlyOffset, Bool.or_eq_true, Bool.and_eq_true, decide_eq_true_eq] at h
  omega

/-- SYM_OUT drops a host write, busy or idle (R51, R76). -/
theorem writeBuffer_symOut (first : Nat) (v : Word) (s : State) :
    writeBuffer .symOut first v s = s :=
  ite_self s

/-- The window of SYM_OUT (R75). -/
theorem windowBuffer_symOut {off : Nat} (h : 0x300000 ≤ off) (h' : off < 0x400000) :
    windowBuffer off = .symOut := by
  have hd : off / 0x100000 = 3 := by omega
  simp only [windowBuffer, hd]

/-- TREE and CODE_LEN, with the place of a node 511 between them, drop a write (R47, R48, R76). -/
theorem writeTarget_treeOrCodeLen (s : State) (v : Word) {off : Nat} (h : 0x2000 ≤ off)
    (h' : off < 0x4400) : writeTarget v s (tableTarget off) = s := by
  unfold tableTarget
  repeat rw [if_neg (by omega)]
  by_cases hTree : off < 0x3FF0
  · rw [if_pos hTree]; rfl
  by_cases hGap : off < 0x4000
  · rw [if_neg hTree, if_pos hGap]; rfl
  · rw [if_neg hTree, if_neg hGap, if_pos h']; rfl

/-- CODE_BITS drops a write (R48, R76). -/
theorem writeTarget_codeBitsRegion (s : State) (v : Word) {off : Nat} (h : 0x6000 ≤ off)
    (h' : off < 0x8000) : writeTarget v s (tableTarget off) = s := by
  unfold tableTarget
  repeat rw [if_neg (by omega)]
  rw [if_pos h']
  rfl

/-- The read-only regions drop a write (R76). -/
theorem writeTarget_readOnly (s : State) (v : Word) {off : Nat} (h : readOnlyOffset off = true) :
    writeTarget v s (targetOf off) = s := by
  simp only [readOnlyOffset, Bool.or_eq_true, Bool.and_eq_true, decide_eq_true_eq] at h
  obtain (⟨hlo, hhi⟩ | ⟨hlo, hhi⟩) | ⟨hlo, hhi⟩ := h
  · rw [targetOf_low (by omega)]
    exact writeTarget_treeOrCodeLen s v hlo hhi
  · rw [targetOf_low (by omega)]
    exact writeTarget_codeBitsRegion s v hlo hhi
  · rw [targetOf, if_neg (by omega), windowBuffer_symOut hlo hhi]
    exact writeBuffer_symOut (off % 0x100000) v s

/-- Settles O47: each of these offsets names a target that reads alike idle and busy, or drops its
write. -/
theorem constantRegistersReadTheirConstants : Obligations.ConstantRegistersReadTheirConstants := by
  refine ⟨fun s off value v hmem => ?constant, fun s off v hres h4 => ?reserved,
    fun s off v hro h4 => ?readOnly⟩
  case constant =>
    simp only [List.mem_cons, Prod.mk.injEq, List.not_mem_nil, or_false] at hmem
    obtain ⟨rfl, rfl⟩ | ⟨rfl, rfl⟩ | ⟨rfl, rfl⟩ | ⟨rfl, rfl⟩ := hmem
    · exact hostAccess_constantReg (r := .id) (by decide) rfl rfl (fun _ => rfl) rfl
    · exact hostAccess_constantReg (r := .capSyms) (by decide) rfl rfl (fun _ => rfl) rfl
    · exact hostAccess_constantReg (r := .capBitBytes) (by decide) rfl rfl (fun _ => rfl) rfl
    · exact hostAccess_constantReg (r := .capOut) (by decide) rfl rfl (fun _ => rfl) rfl
  case reserved =>
    have ht := targetOf_reserved hres
    exact ⟨hostRead_of_readTarget (reservedOffset_lt hres) h4 (ht ▸ readTarget_reserved s),
      hostWrite_of_ignored (reservedOffset_lt hres) h4 (ht ▸ rfl)⟩
  case readOnly =>
    exact hostWrite_of_ignored (readOnlyOffset_lt hro) h4 (writeTarget_readOnly s v hro)

end Sys2Proof.Machine

/-!
PROOFS. BUILD of a table with no symbol and of a table with one (41_priority_queue_merge.md R144, R145):
there is no pass of the merge loop, so the tree is the list of leaves, of which there are none or one.
-/

namespace Sys2Proof.Machine

/-- What BUILD leaves, from what it computes (R140). -/
theorem exec_build (s : State) :
    exec .build s = .next
      { s with
        tree := (buildTree s.freq).tree
        nsym := BitVec.ofNat 9 (buildTree s.freq).nsym
        root := BitVec.ofNat 9 (buildTree s.freq).root
        code := Vector.replicate 256 CodeEntry.invalid
        treeValid := (buildTree s.freq).nsym != 0
        empty := (buildTree s.freq).nsym == 0
        tableValid := false
        errCode := .none
        seq := .idle
        done := true } := rfl

/-- With a tree, TABLE writes the code table it derives (R160). -/
theorem exec_table_of_treeValid {s : State} (h : s.treeValid = true) :
    exec .table s = .next
      { s with
        code := deriveCode s.tree s.root
        tableValid := true
        errCode := .none
        seq := .idle
        done := true } := by
  simp only [exec, execTable, tableBody, if_pos h, conclude_finished]

/-- A root that is a leaf gives its symbol the code word `"0"` (R162). -/
theorem entryOf_deriveCode_of_leaf {tree : Vector Node 511} {root : NodeIdx} {a : Sym} {count : Word}
    (h : nodeAt tree root = leafNode a count) :
    entryOf (deriveCode tree root) a = { valid := true, len := 1, bits := 0 } := by
  have hcode : deriveCode tree root =
      setEntry (Vector.replicate 256 CodeEntry.invalid) a (CodeEntry.ofWord [false]) := by
    simp only [deriveCode, h, leafNode, if_true]
  have hword : CodeEntry.ofWord [false] = { valid := true, len := 1, bits := 0 } := by decide
  rw [hcode, entryOf_setEntry, if_pos rfl, hword]

/-- A table of zeros has no leaf (R141). -/
theorem leavesOf_eq_nil {freq : Vector Word 256} (h : ∀ a : Sym, entryOf freq a = 0) :
    leavesOf freq = [] :=
  List.filterMap_eq_nil_iff.2 fun _ _ => if_pos (h _)

/-- A table with one nonzero entry has its leaf and no other (R141): the symbols before it and those
after it give none. -/
theorem leavesOf_eq_singleton {freq : Vector Word 256} {a : Sym} (ha : entryOf freq a ≠ 0)
    (hother : ∀ b : Sym, b ≠ a → entryOf freq b = 0) :
    leavesOf freq = [leafNode a (entryOf freq a)] := by
  have hzero : ∀ n < 256, n ≠ a.toNat → entryOf freq (BitVec.ofNat 8 n) = 0 := fun n hn hne =>
    hother _ fun e => hne (by rw [← e, BitVec.toNat_ofNat, Nat.mod_eq_of_lt hn])
  obtain ⟨before, rest, hsplit⟩ := List.append_of_mem (List.mem_range.2 a.isLt)
  have hnodup : (before ++ a.toNat :: rest).Nodup := hsplit ▸ List.nodup_range
  obtain ⟨hnotMem, -⟩ := List.nodup_cons.1 (List.nodup_middle.1 hnodup)
  have hnone : ∀ n ∈ before ++ rest, entryOf freq (BitVec.ofNat 8 n) = 0 := by
    intro n hn
    have hmem : n ∈ List.range 256 := hsplit ▸ by
      simp only [List.mem_append, List.mem_cons] at hn ⊢
      exact hn.imp_right .inr
    exact hzero n (List.mem_range.1 hmem) fun e => hnotMem (e ▸ hn)
  refine List.filterMap_eq_cons_iff.2 ⟨before, a.toNat, rest, hsplit, ?before, ?leaf, ?rest⟩
  case before => exact fun n hn => if_pos (hnone n (List.mem_append_left _ hn))
  case leaf =>
    simp only [BitVec.ofNat_toNat, BitVec.setWidth_eq]
    exact if_neg ha
  case rest =>
    exact List.filterMap_eq_nil_iff.2 fun n hn => if_pos (hnone n (List.mem_append_right _ hn))

/-- With no record made, all are zero (R146). -/
theorem recordsOf_nil : recordsOf [] = Vector.replicate 511 Node.zero := by
  ext i hi
  simp [recordsOf]

/-- The one record made is node 0 (R140). -/
@[simp] theorem nodeAt_recordsOf_singleton_zero (nd : Node) : nodeAt (recordsOf [nd]) 0 = nd :=
  nodeAt_recordsOf [nd] (Nat.le_add_left 1 510) 0

/-- After the one record made, all are zero (R146). -/
theorem nodeAt_recordsOf_singleton_of_ne {nd : Node} {i : NodeIdx} (h : i ≠ 0) :
    nodeAt (recordsOf [nd]) i = Node.zero := by
  have hpos : 1 ≤ i.toNat := Nat.one_le_iff_ne_zero.2 fun e => h (BitVec.eq_of_toNat_eq e)
  rw [nodeAt_recordsOf [nd] (Nat.le_add_left 1 510), List.getD_eq_default _ _ hpos]

/-- BUILD computes an empty tree from no leaf (R145). -/
theorem buildTree_of_no_leaf {freq : Vector Word 256} (h : leavesOf freq = []) :
    buildTree freq = { tree := Vector.replicate 511 Node.zero, nsym := 0, root := 0 } := by
  simp only [buildTree, h, List.length_nil, List.range_zero, mergeLoop, recordsOf_nil,
    List.headD_nil]

/-- BUILD computes the tree of the leaf alone from one leaf: PQ has one node, so no pass is made
(R144). -/
theorem buildTree_of_one_leaf {freq : Vector Word 256} {leaf : Node} (h : leavesOf freq = [leaf]) :
    buildTree freq = { tree := recordsOf [leaf], nsym := 1, root := 0 } := by
  simp only [buildTree, h]
  rfl

/-- Settles O16: a table of zeros has no leaf, and BUILD computes an empty tree from none. -/
theorem buildOfEmptyTableMakesNoTree : Obligations.BuildOfEmptyTableMakesNoTree := by
  intro s hzero
  rw [exec_build, buildTree_of_no_leaf (leavesOf_eq_nil hzero)]
  rfl

/-- Settles O17: the leaf of the symbol is the whole tree, and TABLE finds a leaf at the root. -/
theorem buildOfOneSymbolMakesOneLeaf : Obligations.BuildOfOneSymbolMakesOneLeaf := by
  intro s a ha hother
  rw [exec_build, buildTree_of_one_leaf (leavesOf_eq_singleton ha hother)]
  have hroot := nodeAt_recordsOf_singleton_zero (leafNode a (entryOf s.freq a))
  refine ⟨_, rfl, rfl, rfl, rfl, hroot, fun _ => nodeAt_recordsOf_singleton_of_ne, _,
    exec_table_of_treeValid rfl, ?code⟩
  case code =>
    dsimp only
    exact entryOf_deriveCode_of_leaf hroot

end Sys2Proof.Machine

/-!
PROOFS. ENCODE of the empty input (43_encoder.md R186), and ENCODE of a stream too long for BITS (R184):
the loop stops in the first code word that does not fit, and only one symbol of the input has it.
-/

namespace Sys2Proof.Machine

/-- Without input ENCODE clears the counts and looks at no table (R186). -/
theorem encodeBody_of_inLen_zero {s : State} (h : s.inLen = 0) :
    encodeBody s = .finished { s with encBits := 0, encBytes := 0, decBits := 0 } := by
  have hfits : s.inputFits = true := by simp [State.inputFits, h]
  rw [encodeBody, if_pos hfits, if_pos h]

/-- An input in range and a valid table pass the checks of ENCODE (R252). -/
theorem encodeBody_of_checks {s : State} (hne : s.inLen ≠ 0)
    (hfits : s.inLen.toNat ≤ s.params.maxSyms) (htable : s.tableValid = true) :
    encodeBody s = encodeStream s := by
  have hinput : s.inputFits = true := decide_eq_true hfits
  rw [encodeBody, if_pos hinput, if_neg hne, if_pos htable]

/-- An input that holds a symbol is not empty. -/
theorem inLen_ne_zero_of_mem {s : State} {a : Sym} (h : a ∈ s.inputSymbols) : s.inLen ≠ 0 := by
  intro hzero
  simp [State.inputSymbols, hzero] at h

/-- The first symbols of an input have a stream no longer than the whole input's. -/
theorem length_streamOf_le_of_prefix (code : Vector CodeEntry 256) {u v : List Sym} (h : u <+: v) :
    (streamOf code u).length ≤ (streamOf code v).length := by
  obtain ⟨w, rfl⟩ := h
  rw [streamOf_append, List.length_append]
  exact Nat.le_add_right _ _

/-- Every symbol of a coded input has a code word. -/
theorem valid_of_allCoded {code : Vector CodeEntry 256} {input : List Sym} {a : Sym}
    (h : allCoded code input = true) (ha : a ∈ input) : (entryOf code a).valid = true :=
  List.all_eq_true.1 h a ha

/-- Two places in one input: one comes before the other, or they are the same. -/
theorem split_before_or_eq_or_after {input before rest done rest' : List Sym} {a b : Sym}
    (h : input = before ++ a :: rest) (h' : input = done ++ b :: rest') :
    before ++ [a] <+: done ∨ before ++ [a] = done ++ [b] ∨ done ++ [b] <+: before := by
  have hpre : before ++ [a] <+: input := ⟨rest, by simp [h]⟩
  have hpre' : done ++ [b] <+: input := ⟨rest', by simp [h']⟩
  rcases List.prefix_or_prefix_of_prefix hpre hpre' with hp | hp
  · exact (List.prefix_concat_iff.1 hp).symm.imp_right .inl
  · exact .inr ((List.prefix_concat_iff.1 hp).imp_left Eq.symm)

/-- Where the code words before a symbol fit and its own does not, the loop stops in that word and
has written the bits that fit (R184). -/
theorem encodeLoop_full {code : Vector CodeEntry 256} {room : Nat} {m : Memory}
    {before rest : List Sym} {a : Sym} (hm : m.wf = true)
    (hcoded : allCoded code (before ++ [a]) = true) (hfit : (streamOf code before).length ≤ room)
    (hover : room < (streamOf code (before ++ [a])).length) :
    ∃ w, encodeLoop code room 0 (before ++ a :: rest) (openWriter m) =
        (w, some (.overflow, before.length)) ∧
      w.Holds m ((streamOf code (before ++ [a])).take room) := by
  have hends := encodeLoop_ends code room m [] 0 (before ++ a :: rest) _ (openWriter_holds hm)
    (Nat.zero_le room)
  have noLonger {u v : List Sym} (h : u <+: v) := length_streamOf_le_of_prefix code h
  cases hends with
  | whole _ _ _ hfitAll _ =>
    have := noLonger (u := before ++ [a]) (v := before ++ a :: rest) ⟨rest, by simp⟩
    rw [List.length_nil] at hfitAll
    omega
  | unknown _ done b _ _ hsplit _ hbad hfitDone _ =>
    have hb : b ∉ before ++ [a] := fun hmem => by simp [valid_of_allCoded hcoded hmem] at hbad
    rcases split_before_or_eq_or_after rfl hsplit with hlt | heq | hgt
    · have := noLonger hlt
      rw [List.length_nil] at hfitDone
      omega
    · exact absurd (heq ▸ List.mem_concat_self) hb
    · exact absurd (List.mem_append_left _ (hgt.subset List.mem_concat_self)) hb
  | full w done b _ hr hsplit _ hfitDone hoverDone hw =>
    rw [List.length_nil] at hfitDone hoverDone
    rcases split_before_or_eq_or_after rfl hsplit with hlt | heq | hgt
    · have := noLonger hlt
      omega
    · obtain ⟨rfl, rfl⟩ := List.append_singleton_inj.1 heq
      rw [Nat.zero_add] at hr
      exact ⟨w, hr, hw⟩
    · have := noLonger hgt
      omega

/-- The counts stored from the closed writer are those of the bits it holds (R182, R185). -/
theorem Writer.Holds.storeStream_close {w : Writer} {m : Memory} {l : List Bool} (h : w.Holds m l)
    (s : State) :
    storeStream w.close s =
      { s with
        bits := w.close.bits
        encBits := BitVec.ofNat 32 l.length
        encBytes := BitVec.ofNat 32 ((l.length + 7) / 8)
        decBits := BitVec.ofNat 32 l.length } := by
  obtain ⟨hk, hwptr, -⟩ := h.close
  rw [storeStream, hk, hwptr]

/-- Closing a writer that has filled `n` bytes pads nothing: the stream is in those bytes, and the
bytes after them are untouched (R181). -/
theorem Writer.Holds.close_of_full {w : Writer} {m : Memory} {l : List Bool} {n : Nat}
    (h : w.Holds m l) (hl : l.length = 8 * n) :
    (∀ i, i < 8 * n → streamBit w.close.bits i = l.getD i false) ∧
      ∀ a, n ≤ a → w.close.bits.read a = m.read a := by
  obtain ⟨-, -, -, hbits, hrest⟩ := h.close
  rw [show (l.length + 7) / 8 = n by omega] at hbits hrest
  exact ⟨hbits, hrest⟩

/-- Settles O29: the empty input is in range, and ENCODE ends before it looks at the table. -/
theorem encodeOfEmptyInput : Obligations.EncodeOfEmptyInput := by
  intro s hzero
  rw [exec, execEncode, encodeBody_of_inLen_zero hzero, conclude_finished]

/-- Settles O32: the writer stops with BITS full of the first bits of the stream. -/
theorem encodeStopsWhenBitsIsFull : Obligations.EncodeStopsWhenBitsIsFull := by
  intro s before rest a hwf hfits htable hinput hcoded hfit hover
  have hmem : a ∈ s.inputSymbols := by simp [hinput]
  obtain ⟨w, hloop, hw⟩ := encodeLoop_full (rest := rest) hwf hcoded hfit hover
  have hlength := List.length_take_of_le hover.le
  obtain ⟨hbits, hrest⟩ := hw.close_of_full hlength
  have hbytes : (8 * s.params.bitBufBytes + 7) / 8 = s.params.bitBufBytes := by omega
  have hexec : exec .encode s = .next
      (Ended.raised .overflow (BitVec.ofNat 32 before.length) (storeStream w.close s)).conclude := by
    rw [exec, execEncode, encodeBody_of_checks (inLen_ne_zero_of_mem hmem) hfits htable,
      encodeStream, hinput, hloop]
  refine ⟨_, hexec, ?frame, ?stream, hrest⟩
  case frame => rw [hw.storeStream_close, hlength, hbytes, conclude_raised]
  case stream =>
    intro k hk
    rw [← List.take_append_drop (8 * s.params.bitBufBytes) (streamOf s.code (before ++ [a])),
      List.getD_append _ _ _ _ (hlength.symm ▸ hk)]
    exact hbits k hk

end Sys2Proof.Machine

/-!
PROOFS. DECODE of the empty stream and DECODE without a tree (44_decoder.md R205), and DECODE of a stream
with more symbols than SYM_OUT holds (R204): the words before are read one by one, from the root back to
the root, and the loop stops at the last bit of the next.
-/

namespace Sys2Proof.Machine

/-- `c` is the cursor opened at `root` over the buffer `m` after it has read `k` stream bits and they
were the words of `symbols`: it is back in AT_ROOT (R202). -/
structure Cursor.Holds (c : Cursor) (root : NodeIdx) (m : Memory) (k : Nat) (symbols : List Sym) :
    Prop where
  cur : c.cur = root
  rk : c.rk = k
  start : c.start = k
  n : c.n = symbols.length
  wf : c.symOut.wf = true
  written : ∀ i, i < symbols.length → c.symOut.read i = symbols.getD i 0
  rest : ∀ i, symbols.length ≤ i → c.symOut.read i = m.read i

/-- An opened cursor has read nothing (R201). -/
theorem openCursor_holds (root : NodeIdx) {m : Memory} (h : m.wf = true) :
    (openCursor root m).Holds root m 0 [] where
  cur := rfl
  rk := rfl
  start := rfl
  n := rfl
  wf := h
  written := fun _ hi => absurd hi (Nat.not_lt_zero _)
  rest := fun _ _ => rfl

/-- The cursor after the complete symbol `a`, whose word had `len` bits (R201). -/
def Cursor.emit (c : Cursor) (root : NodeIdx) (len : Nat) (a : Sym) : Cursor :=
  { cur := root, rk := c.rk + len, start := c.rk + len, n := c.n + 1,
    symOut := c.symOut.write c.n a }

/-- A complete symbol is appended to the output (R201). -/
theorem Cursor.Holds.emit {c : Cursor} {root : NodeIdx} {m : Memory} {k : Nat} {symbols : List Sym}
    (h : c.Holds root m k symbols) (len : Nat) (a : Sym) :
    (c.emit root len a).Holds root m (k + len) (symbols ++ [a]) where
  cur := rfl
  rk := congrArg (· + len) h.rk
  start := congrArg (· + len) h.rk
  n := by rw [Cursor.emit, h.n, List.length_append, List.length_singleton]
  wf := Memory.wf_write h.wf _ _
  written := by
    intro i hi
    rw [List.length_append, List.length_singleton] at hi
    rw [Cursor.emit, Memory.read_write h.wf, h.n]
    split
    · subst i
      simp
    · have hlt : i < symbols.length := by omega
      rw [List.getD_append _ _ _ _ hlt, h.written i hlt]
  rest := by
    intro i hi
    rw [List.length_append, List.length_singleton] at hi
    have hne : i ≠ c.n := by rw [h.n]; omega
    rw [Cursor.emit, Memory.read_write_other h.wf _ hne, h.rest i (by omega)]

/-- At a leaf a symbol is complete, whatever the bit: this check comes first (R202). -/
theorem walk_of_leaf {tree : Vector Node 511} {i : NodeIdx} (h : (nodeAt tree i).leaf = true)
    (b : Bool) : walk tree i b = .emit (nodeAt tree i).sym := by
  simp only [walk, h, if_true]

/-- The decoder reads at least one bit for a symbol (R202). -/
theorem ne_nil_of_readsAs {tree : Vector Node 511} {root : NodeIdx} {word : List Bool} {a : Sym}
    (h : readsAs tree root word a = true) : word ≠ [] := by
  rintro rfl
  cases hl : (nodeAt tree root).leaf <;> simp [readsAs, leadsToLeaf, hl] at h

/-- From the root, the bits read for a symbol complete it at the last of them: it is written, or the
loop stops there because SYM_OUT is full (R202, R204). -/
theorem decodeLoop_readsAs {tree : Vector Node 511} {root : NodeIdx} {word : List Bool} {a : Sym}
    {c : Cursor} (h : readsAs tree root word a = true) (hc : c.cur = root) (cap : Nat)
    (rest : List Bool) :
    ∃ i, decodeLoop tree root cap (word ++ rest) c =
      if c.n = cap then ({ c with cur := i, rk := c.rk + word.length }, true)
      else decodeLoop tree root cap rest (c.emit root word.length a) := by
  subst hc
  obtain ⟨b, w, rfl⟩ := List.exists_cons_of_ne_nil (ne_nil_of_readsAs h)
  cases hl : (nodeAt tree c.cur).leaf with
  | true =>
    simp only [readsAs, hl, if_true, Bool.and_eq_true, beq_iff_eq, List.length_cons] at h
    obtain ⟨hlength, rfl⟩ := h
    obtain rfl : w = [] := List.eq_nil_of_length_eq_zero (Nat.succ.inj hlength)
    exact ⟨c.cur, decodeLoop_emit (walk_of_leaf hl b) c.cur cap rest⟩
  | false =>
    simp only [readsAs, hl, Bool.false_eq_true, if_false] at h
    exact ⟨_, decodeLoop_word tree c.cur cap b w rest c a h⟩

/-- Words and symbols correspond one to one. -/
theorem readAs_iff_forall₂ {tree : Vector Node 511} {root : NodeIdx} {words : List (List Bool)}
    {symbols : List Sym} :
    readAs tree root words symbols = true ↔
      List.Forall₂ (fun word a => readsAs tree root word a = true) words symbols := by
  rw [List.forall₂_iff_zip]
  simp only [readAs, Bool.and_eq_true, beq_iff_eq, List.all_eq_true, Prod.forall]

/-- The loop reads the words of symbols that fit SYM_OUT one by one (R201). -/
theorem decodeLoop_words {tree : Vector Node 511} {root : NodeIdx} {m : Memory} {cap : Nat}
    {words : List (List Bool)} {symbols : List Sym} (h : readAs tree root words symbols = true)
    (rest : List Bool) {c : Cursor} {k : Nat} {done : List Sym} (hc : c.Holds root m k done)
    (hfit : done.length + symbols.length ≤ cap) :
    ∃ c', c'.Holds root m (k + words.flatten.length) (done ++ symbols) ∧
      decodeLoop tree root cap (words.flatten ++ rest) c = decodeLoop tree root cap rest c' := by
  rw [readAs_iff_forall₂] at h
  induction h generalizing c k done with
  | nil => exact ⟨c, by simpa using hc, rfl⟩
  | @cons word a words symbols hword _ ih =>
    rw [List.length_cons] at hfit
    have hroom : c.n ≠ cap := by rw [hc.n]; omega
    obtain ⟨i, hloop⟩ := decodeLoop_readsAs hword hc.cur cap (words.flatten ++ rest)
    rw [if_neg hroom] at hloop
    obtain ⟨c', hc', hloop'⟩ := ih (hc.emit word.length a)
      (by rw [List.length_append, List.length_singleton]; omega)
    refine ⟨c', ?holds, ?loop⟩
    case holds =>
      rw [List.flatten_cons, List.length_append, ← Nat.add_assoc, List.append_cons]
      exact hc'
    case loop => rw [List.flatten_cons, List.append_assoc, hloop, hloop']

/-- DECODE of the empty stream clears OUT_LEN and reads no tree (R205). -/
theorem decodeBody_of_decBits_zero {s : State} (h : s.decBits = 0) :
    decodeBody s = .finished { s with outLen := 0 } := by
  have hfits : s.streamFits = true := by simp [State.streamFits, h]
  rw [decodeBody, if_pos hfits, if_pos h]

/-- A nonempty stream in range leaves the tree to be checked (R252). -/
theorem decodeBody_of_stream {s : State} (hne : s.decBits ≠ 0)
    (hfits : s.decBits.toNat ≤ 8 * s.params.bitBufBytes) :
    decodeBody s = if s.treeValid then decodeStream s else .raised .noTree 0 s := by
  have hstream : s.streamFits = true := decide_eq_true hfits
  rw [decodeBody, if_pos hstream, if_neg hne]

/-- A stream that has a bit is not empty. -/
theorem decBits_ne_zero_of_streamBits {s : State} (h : s.streamBits ≠ []) : s.decBits ≠ 0 := by
  intro hzero
  simp [State.streamBits, hzero] at h

/-- Settles O33: the empty stream ends before the tree is looked at, any other stream in range at the
check for it. -/
theorem decodeOfEmptyStream : Obligations.DecodeOfEmptyStream := by
  refine ⟨fun s hzero => ?empty, fun s hne hfits hnoTree => ?noTree⟩
  case empty => rw [exec, execDecode, decodeBody_of_decBits_zero hzero, conclude_finished]
  case noTree =>
    have hinvalid : ¬ s.treeValid = true := by rw [hnoTree]; decide
    rw [exec, execDecode, decodeBody_of_stream hne hfits, if_neg hinvalid, conclude_raised]

/-- Settles O35: the words that fit fill SYM_OUT, and the loop stops at the last bit of the next. -/
theorem decodeStopsWhenOutputIsFull : Obligations.DecodeStopsWhenOutputIsFull := by
  intro s words symbols word more a hwf htree hfits hstream hwords hword hfull
  have hne : s.streamBits ≠ [] := by
    rw [hstream]
    simp [ne_nil_of_readsAs hword]
  obtain ⟨c, hc, hloop⟩ := decodeLoop_words hwords (word ++ more) (openCursor_holds s.root hwf)
    (cap := s.params.outCap) (by rw [List.length_nil]; omega)
  rw [List.nil_append, Nat.zero_add] at hc
  obtain ⟨i, hstop⟩ := decodeLoop_readsAs hword hc.cur s.params.outCap more
  have hn : c.n = s.params.outCap := hc.n.trans hfull
  rw [← List.append_assoc, ← hstream, hstop, if_pos hn] at hloop
  have hexec : exec .decode s = .next
      (Ended.raised .overflow (BitVec.ofNat 32 (words.flatten.length + word.length - 1))
        (storeOutput c s)).conclude := by
    rw [exec, execDecode, decodeBody_of_stream (decBits_ne_zero_of_streamBits hne) hfits,
      if_pos htree, decodeStream, hloop, ← hc.rk]
    rfl
  refine ⟨_, hexec, ?frame, hc.written, hc.rest⟩
  case frame => rw [conclude_raised, storeOutput, hn]

end Sys2Proof.Machine

/-!
PROOFS. The write of a command word to CMD (45_control.md R220): what `writeCmd` does, idle and busy, and
the host write that reaches it.
-/

namespace Sys2Proof.Machine

/-- While idle every word is accepted, legal or not; a free number of host events may pass first. -/
theorem writeCmd_idle {s : State} (h : s.seq = .idle) (v : Word) :
    writeCmd v s = accept v (Config.latency s.draws) { s with draws := s.draws + 1 } := by
  rw [writeCmd, h]

/-- While busy the word is dropped, and OVERRUN records that. -/
theorem writeCmd_busy {s : State} {w : Word} {hold : Nat} (h : s.seq = .busy w hold) (v : Word) :
    writeCmd v s = { s with overrun := true } := by
  rw [writeCmd, h]

theorem targetOf_cmd : targetOf 0x00C = .reg .cmd := targetOf_reg (by decide)

/-- A host write at the offset of CMD does what `writeCmd` does, and is answered without a bus error. -/
theorem hostWrite_cmd (s : State) (v : Word) :
    hostWrite 0x00C v s = respondWrite .writeOk (writeCmd v s) := by
  rw [hostWrite_eq s (by decide) (by decide), targetOf_cmd]
  rfl

/-- Settles O6: idle, with the number the block draws at acceptance; busy, with OVERRUN alone. -/
theorem cmdWriteIsAcceptedOnlyWhileIdle : Obligations.CmdWriteIsAcceptedOnlyWhileIdle := by
  refine fun s v => ⟨fun hidle => ⟨Config.latency s.draws, ?idle⟩, fun w hold hbusy => ?busy⟩
  case idle => rw [hostWrite_cmd, writeCmd_idle hidle, accept, respondWrite]
  case busy => rw [hostWrite_cmd, writeCmd_busy hbusy, respondWrite]

end Sys2Proof.Machine

/-!
PROOFS. The checks that a command makes before any write (60_exceptions.md R242 to R244): where one
fails, the body raises on the state it began with, so the command has no effect but the error.
-/

namespace Sys2Proof.Machine

theorem State.inputFits_eq_false {s : State} (h : s.params.maxSyms < s.inLen.toNat) :
    s.inputFits = false :=
  decide_eq_false (Nat.not_le_of_gt h)

theorem State.streamFits_eq_false {s : State} (h : 8 * s.params.bitBufBytes < s.decBits.toNat) :
    s.streamFits = false :=
  decide_eq_false (Nat.not_le_of_gt h)

/-- COUNT of an input out of range (R242). -/
theorem countBody_of_not_inputFits {s : State} (h : s.inputFits = false) :
    countBody s = .raised .range 0 s := by
  rw [countBody, h, if_neg Bool.false_ne_true]

/-- ENCODE of an input out of range (R242). -/
theorem encodeBody_of_not_inputFits {s : State} (h : s.inputFits = false) :
    encodeBody s = .raised .range 0 s := by
  rw [encodeBody, h, if_neg Bool.false_ne_true]

/-- COMPRESS of an input out of range ends with its first stage, COUNT (R226). -/
theorem compressBody_of_not_inputFits {s : State} (h : s.inputFits = false) :
    compressBody s = .raised .range 0 s := by
  rw [compressBody, countBody_of_not_inputFits h]
  rfl

/-- DECODE of a stream out of range (R242). -/
theorem decodeBody_of_not_streamFits {s : State} (h : s.streamFits = false) :
    decodeBody s = .raised .range 0 s := by
  rw [decodeBody, h, if_neg Bool.false_ne_true]

/-- TABLE without a tree (R243). -/
theorem tableBody_of_not_treeValid {s : State} (h : s.treeValid = false) :
    tableBody s = .raised .noTree 0 s := by
  rw [tableBody, h, if_neg Bool.false_ne_true]

/-- ENCODE of a nonempty input in range, without a code table (R244). -/
theorem encodeBody_of_not_tableValid {s : State} (hne : s.inLen ≠ 0)
    (hfits : s.inLen.toNat ≤ s.params.maxSyms) (h : s.tableValid = false) :
    encodeBody s = .raised .noTable 0 s := by
  have hinput : s.inputFits = true := decide_eq_true hfits
  rw [encodeBody, if_pos hinput, if_neg hne, h, if_neg Bool.false_ne_true]

/-- LOOKUP without a code table (R244). -/
theorem lookupBody_of_not_tableValid {s : State} (a : Sym) (h : s.tableValid = false) :
    lookupBody a s = .raised .noTable 0 s := by
  rw [lookupBody, h, if_neg Bool.false_ne_true]

/-- Settles O14: each of the four commands makes its range check first. -/
theorem rangeErrorChangesNothing : Obligations.RangeErrorChangesNothing := by
  refine ⟨fun s i hlen hi => ?input, fun s hbits => ?stream⟩
  case input =>
    have hfits := State.inputFits_eq_false hlen
    obtain rfl | rfl | rfl := hi
    · rw [exec, execCount, countBody_of_not_inputFits hfits, conclude_raised]
    · rw [exec, execEncode, encodeBody_of_not_inputFits hfits, conclude_raised]
    · rw [exec, execCompress, compressBody_of_not_inputFits hfits, conclude_raised]
  case stream =>
    rw [exec, execDecode, decodeBody_of_not_streamFits (State.streamFits_eq_false hbits),
      conclude_raised]

/-- Settles O23: TABLE checks for a tree first, and DECODE as R205 has it. -/
theorem noTreeErrorChangesNothing : Obligations.NoTreeErrorChangesNothing := by
  obtain ⟨-, decodeWithoutTree⟩ := decodeOfEmptyStream
  refine ⟨fun s htree => ?table, fun s htree hpos hfits => ?decode⟩
  case table => rw [exec, execTable, tableBody_of_not_treeValid htree, conclude_raised]
  case decode =>
    have hne : s.decBits ≠ 0 := ne_of_apply_ne BitVec.toNat hpos.ne'
    exact decodeWithoutTree s hne hfits htree

/-- Settles O27: with an input in range ENCODE's next check is for the table, and LOOKUP's first is. -/
theorem noTableErrorChangesNothing : Obligations.NoTableErrorChangesNothing := by
  refine ⟨fun s htable hpos hfits => ?encode, fun s a htable => ?lookup⟩
  case encode =>
    have hne : s.inLen ≠ 0 := ne_of_apply_ne BitVec.toNat hpos.ne'
    rw [exec, execEncode, encodeBody_of_not_tableValid hne hfits htable, conclude_raised]
  case lookup => rw [exec, execLookup, lookupBody_of_not_tableValid a htable, conclude_raised]

end Sys2Proof.Machine

/-!
PROOFS. Command words (30_encoding.md R100 to R108): a word decodes to a command exactly where its fields
are those of the command's word, and the fields of a word determine it.
-/

namespace Sys2Proof

/-- The OP field of a command's word (R106). -/
def opcodeOf : Instr → BitVec 4
  | .nop => 0
  | .count => 1
  | .build => 2
  | .table => 3
  | .encode => 4
  | .decode => 5
  | .compress => 6
  | .lookup _ => 7
  | .clear => 8

/-- The SYM field of a command's word: zero for every command but LOOKUP (R104, R108). -/
def operandOf : Instr → Sym
  | .lookup sym => sym
  | _ => 0

/-- The fields of a command's word (R100, R106, R108). -/
def commandFields (i : Instr) : CmdFields :=
  { op := opcodeOf i, rsv0 := 0, sym := operandOf i, rsv1 := 0 }

/-- The fields of LOOKUP's word `0x0000ss07` (R106). -/
theorem fieldsOf_encode_lookup (sym : Sym) :
    fieldsOf (encode (.lookup sym)) = commandFields (.lookup sym) := by
  simp only [fieldsOf, encode, commandFields, opcodeOf, operandOf, CmdFields.mk.injEq]
  refine ⟨?_, ?_, ?_, ?_⟩ <;>
  · apply BitVec.eq_of_getLsbD_eq
    intro j hj
    interval_cases j <;> simp

/-- The word of a command has the command's fields (R106). -/
theorem fieldsOf_encode (i : Instr) : fieldsOf (encode i) = commandFields i := by
  cases i
  case lookup sym => exact fieldsOf_encode_lookup sym
  all_goals rfl

/-- The four fields cover the word (R100). -/
theorem fieldsOf_injective : Function.Injective fieldsOf := by
  intro u w h
  simp only [fieldsOf, CmdFields.mk.injEq] at h
  obtain ⟨hop, hrsv0, hsym, hrsv1⟩ := h
  have hnat (x : Word) : x.toNat = (x.extractLsb' 0 4).toNat + (x.extractLsb' 4 4).toNat * 2 ^ 4 +
      (x.extractLsb' 8 8).toNat * 2 ^ 8 + (x.extractLsb' 16 16).toNat * 2 ^ 16 := by
    have hx := x.isLt
    simp only [BitVec.extractLsb'_toNat, Nat.shiftRight_eq_div_pow]
    omega
  exact BitVec.eq_of_toNat_eq (by rw [hnat u, hnat w, hop, hrsv0, hsym, hrsv1])

/-- OP alone selects the command (R106); only LOOKUP may then have a nonzero SYM (R108). -/
theorem fields_of_commandOf {op : BitVec 4} {sym : Sym} {i : Instr}
    (h : commandOf op.toNat sym = some i) (hsym : op = 7#4 ∨ sym = 0#8) :
    op = opcodeOf i ∧ sym = operandOf i := by
  have hop {k : BitVec 4} (hk : op.toNat = k.toNat) : op = k := BitVec.eq_of_toNat_eq hk
  have hzero (hne : op.toNat ≠ 7) : sym = 0#8 :=
    hsym.resolve_left fun e => hne (by rw [e]; rfl)
  unfold commandOf at h
  split at h <;> simp only [Option.some.injEq, reduceCtorEq] at h <;> subst h
  case h_8 hk => exact ⟨hop hk, rfl⟩
  all_goals
    rename_i hk
    exact ⟨hop hk, hzero (by rw [hk]; decide)⟩

/-- A word with the fields of a command's word decodes to the command. -/
theorem decode_of_fieldsOf {w : Word} {i : Instr} (h : fieldsOf w = commandFields i) :
    decode w = .instr i := by
  unfold decode
  rw [h]
  cases i <;> rfl

/-- A word that decodes has the fields of its command's word. -/
theorem fieldsOf_of_decode {w : Word} {i : Instr} (h : decode w = .instr i) :
    fieldsOf w = commandFields i := by
  simp only [decode] at h
  split at h
  · cases h
  next j hj =>
    split_ifs at h with hrsv0 hrsv1 hsym
    cases h
    obtain ⟨hop, hoperand⟩ := fields_of_commandOf hj (by tauto)
    have hzero0 : (fieldsOf w).rsv0 = 0 := not_not.1 hrsv0
    have hzero1 : (fieldsOf w).rsv1 = 0 := not_not.1 hrsv1
    rw [commandFields, ← hop, ← hoperand, ← hzero0, ← hzero1]

/-- A word decodes to a command exactly where its fields are those of the command's word. -/
theorem decode_eq_instr_iff {w : Word} {i : Instr} :
    decode w = .instr i ↔ fieldsOf w = commandFields i :=
  ⟨fieldsOf_of_decode, decode_of_fieldsOf⟩

/-- A reserved OP, a nonzero RSV0 or RSV1, or a SYM that the command does not take makes a word illegal
(R107, R108). -/
theorem exists_illegal_of_fields {w : Word}
    (h : 8 < (w.extractLsb' 0 4).toNat ∨ w.extractLsb' 4 4 ≠ 0#4 ∨ w.extractLsb' 16 16 ≠ 0#16 ∨
      (w.extractLsb' 8 8 ≠ 0#8 ∧ w.extractLsb' 0 4 ≠ 7#4)) :
    ∃ why, decode w = .illegal why := by
  cases hd : decode w with
  | illegal why => exact ⟨why, rfl⟩
  | instr i =>
    have hfields := decode_eq_instr_iff.1 hd
    simp only [fieldsOf, commandFields, CmdFields.mk.injEq] at hfields
    obtain ⟨hop, hrsv0, hsym, hrsv1⟩ := hfields
    rw [hop, hrsv0, hsym, hrsv1] at h
    cases i <;> simp [opcodeOf, operandOf] at h

end Sys2Proof

namespace Sys2Proof.Machine

/-- A busy block runs its command as soon as nothing holds it: no host event is let pass first, none is
left, or the host waits (45_control.md R221; log entry 5). -/
theorem step_busy_released {s : State} {w : Word} {hold : Nat} (h : s.seq = .busy w hold)
    (hfree : hold = 0 ∨ s.inbox = [] ∨ ∃ rest, s.inbox = .wait :: rest) :
    step s = runCommand w s := by
  obtain rfl | halone | ⟨rest, hwait⟩ := hfree
  · exact step_busy_ready h
  · exact step_busy_alone h halone
  · exact step_busy_wait h hwait

/-- Settles O1: the word of a command has the command's fields, and those decode to it. -/
theorem decodeOfEncodeIsTheCommand : Obligations.DecodeOfEncodeIsTheCommand :=
  fun i => decode_eq_instr_iff.2 (fieldsOf_encode i)

/-- Settles O2: the fields of the word are those of the command's word, and fields determine a word. -/
theorem legalWordIsItsCommandsWord : Obligations.LegalWordIsItsCommandsWord :=
  fun _ i h => fieldsOf_injective ((fieldsOf_encode i).trans (decode_eq_instr_iff.1 h).symm)

/-- Settles O3: each of these is the word of its command. -/
theorem opcodeMapWordsDecode : Obligations.OpcodeMapWordsDecode :=
  ⟨decodeOfEncodeIsTheCommand .nop, decodeOfEncodeIsTheCommand .count,
    decodeOfEncodeIsTheCommand .build, decodeOfEncodeIsTheCommand .table,
    decodeOfEncodeIsTheCommand .encode, decodeOfEncodeIsTheCommand .decode,
    decodeOfEncodeIsTheCommand .compress, decodeOfEncodeIsTheCommand (.lookup 0x61#8),
    decodeOfEncodeIsTheCommand (.lookup 0xFF#8), decodeOfEncodeIsTheCommand .clear⟩

/-- Settles O4: no command has such fields, so the released block raises ILLEGAL_CMD and nothing else. -/
theorem illegalWordReportsIllegalCmd : Obligations.IllegalWordReportsIllegalCmd := by
  intro s w hold hbusy hfree hfields
  obtain ⟨why, hillegal⟩ := exists_illegal_of_fields hfields
  rw [step_busy_released hbusy hfree, runCommand_illegal hillegal]
  rfl

end Sys2Proof.Machine

/-!
PROOFS. The leaves BUILD starts from (41_priority_queue_merge.md R141): one per symbol with a nonzero
count, in ascending order of symbol, their weights the counts.
-/

namespace Sys2Proof.Machine

/-- The leaf of symbol number `a`, if its count is not zero (R141). -/
def leafOf (freq : Vector Word 256) (a : Nat) : Option Node :=
  if entryOf freq (BitVec.ofNat 8 a) = 0 then none
  else some (leafNode (BitVec.ofNat 8 a) (entryOf freq (BitVec.ofNat 8 a)))

/-- The leaves of the symbols below `n` (R141). -/
def leavesBelow (freq : Vector Word 256) (n : Nat) : List Node :=
  (List.range n).filterMap (leafOf freq)

theorem leafOf_of_zero {freq : Vector Word 256} {a : Nat}
    (h : entryOf freq (BitVec.ofNat 8 a) = 0) : leafOf freq a = none := if_pos h

theorem leafOf_of_ne {freq : Vector Word 256} {a : Nat} (h : entryOf freq (BitVec.ofNat 8 a) ≠ 0) :
    leafOf freq a = some (leafNode (BitVec.ofNat 8 a) (entryOf freq (BitVec.ofNat 8 a))) := if_neg h

theorem leavesBelow_succ (freq : Vector Word 256) (n : Nat) :
    leavesBelow freq (n + 1) = leavesBelow freq n ++ (leafOf freq n).toList := by
  rw [leavesBelow, List.range_succ, List.filterMap_append]
  cases h : leafOf freq n <;> simp [leavesBelow, h]

theorem leavesBelow_isPrefix (freq : Vector Word 256) {n m : Nat} (h : n ≤ m) :
    leavesBelow freq n <+: leavesBelow freq m := by
  induction m, h using Nat.le_induction with
  | base => exact List.prefix_rfl
  | succ m _ ih => exact ih.trans (leavesBelow_succ freq m ▸ List.prefix_append _ _)

theorem nonzeroBelow_succ (freq : Vector Word 256) (n : Nat) :
    nonzeroBelow freq (n + 1) =
      nonzeroBelow freq n + if entryOf freq (BitVec.ofNat 8 n) = 0 then 0 else 1 := by
  rw [nonzeroBelow, nonzeroBelow, List.range_succ, List.filter_append, List.length_append,
    List.filter_singleton]
  by_cases h : entryOf freq (BitVec.ofNat 8 n) = 0
  · rw [if_pos h, h, bne_self_eq_false]; rfl
  · rw [if_neg h, bne_iff_ne.2 h]; rfl

/-- There are as many leaves as nonzero counts (R141). -/
theorem length_leavesBelow (freq : Vector Word 256) (n : Nat) :
    (leavesBelow freq n).length = nonzeroBelow freq n := by
  induction n with
  | zero => rfl
  | succ n ih =>
    rw [leavesBelow_succ, List.length_append, ih, nonzeroBelow_succ]
    by_cases h : entryOf freq (BitVec.ofNat 8 n) = 0
    · rw [leafOf_of_zero h, if_pos h]; rfl
    · rw [leafOf_of_ne h, if_neg h]; rfl

theorem length_leavesOf (freq : Vector Word 256) :
    (leavesOf freq).length = distinctSymbols freq :=
  length_leavesBelow freq 256

theorem distinctSymbols_le (freq : Vector Word 256) : distinctSymbols freq ≤ 256 := by
  unfold distinctSymbols nonzeroBelow
  exact (List.length_filter_le _ _).trans_eq List.length_range

/-- The leaf of a counted symbol is the one after those of the smaller counted symbols (R141). -/
theorem leavesOf_getD {freq : Vector Word 256} {a : Sym} (h : entryOf freq a ≠ 0) :
    (leavesOf freq).getD (nonzeroBelow freq a.toNat) Node.zero = leafNode a (entryOf freq a) := by
  have hlt : a.toNat + 1 ≤ 256 := a.isLt
  obtain ⟨rest, hrest⟩ : leavesBelow freq (a.toNat + 1) <+: leavesOf freq :=
    leavesBelow_isPrefix freq hlt
  have ha : BitVec.ofNat 8 a.toNat = a := ofNat_eq_of_toNat rfl
  have hleaf : leafOf freq a.toNat = some (leafNode a (entryOf freq a)) := by
    rw [leafOf_of_ne (ha.symm ▸ h), ha]
  rw [← hrest, leavesBelow_succ, hleaf, ← length_leavesBelow]
  simp

theorem nonzeroBelow_lt {freq : Vector Word 256} {a : Sym} (h : entryOf freq a ≠ 0) :
    nonzeroBelow freq a.toNat < distinctSymbols freq := by
  by_contra hge
  have hzero := leavesOf_getD h
  rw [List.getD_eq_default _ _ (by rw [length_leavesOf]; omega)] at hzero
  have : Node.zero.leaf = true := by rw [hzero]; rfl
  cases this

/-- Every leaf is that of a counted symbol (R141). -/
theorem exists_of_mem_leavesOf {freq : Vector Word 256} {nd : Node} (h : nd ∈ leavesOf freq) :
    ∃ a, entryOf freq a ≠ 0 ∧ nd = leafNode a (entryOf freq a) := by
  obtain ⟨n, -, hn⟩ := List.mem_filterMap.1 h
  simp only [Option.ite_none_left_eq_some, Option.some.injEq] at hn
  exact ⟨BitVec.ofNat 8 n, hn.1, hn.2.symm⟩

/-- The weight of a leaf is its count, as a number (R9, R141). -/
theorem toNat_weight_leafNode (a : Sym) (count : Word) :
    (leafNode a count).weight.toNat = count.toNat := by
  have h := count.isLt
  simp only [leafNode, BitVec.toNat_setWidth]
  omega

/-- The sum of the weights of some nodes. -/
def totalWeight (nodes : List Node) : Nat := (nodes.map fun nd => nd.weight.toNat).sum

/-- The leaves weigh as much as all the counts together (R147). -/
theorem totalWeight_leavesOf (freq : Vector Word 256) :
    totalWeight (leavesOf freq) = freqTotal freq := by
  have hbelow : ∀ n, totalWeight (leavesBelow freq n) =
      ((List.range n).map fun a => (entryOf freq (BitVec.ofNat 8 a)).toNat).sum := by
    intro n
    induction n with
    | zero => rfl
    | succ n ih =>
      rw [leavesBelow_succ, totalWeight, List.map_append, List.sum_append, ← totalWeight, ih,
        List.range_succ, List.map_append, List.sum_append]
      by_cases h : entryOf freq (BitVec.ofNat 8 n) = 0
      · rw [leafOf_of_zero h]
        simp [h]
      · rw [leafOf_of_ne h]
        simp [toNat_weight_leafNode]
  exact hbelow 256

/-- 256 counts of 32 bits add up to less than a weight can hold (R9). -/
theorem freqTotal_lt (freq : Vector Word 256) : freqTotal freq < 2 ^ 40 := by
  have h := List.sum_le_card_nsmul
    ((List.range 256).map fun a => (entryOf freq (BitVec.ofNat 8 a)).toNat) (2 ^ 32 - 1) (by
      intro x hx
      obtain ⟨a, -, rfl⟩ := List.mem_map.1 hx
      have := (entryOf freq (BitVec.ofNat 8 a)).isLt
      omega)
  rw [List.length_map, List.length_range, smul_eq_mul] at h
  unfold freqTotal
  omega

end Sys2Proof.Machine

/-!
PROOFS. One pass of the merge loop (41_priority_queue_merge.md R142, R143): the two nodes it removes, the
node it makes and the queue it leaves.
-/

namespace Sys2Proof.Machine

/-- No node of the queue comes before `t`: the order of R142 as numbers. -/
theorem queuesBefore_eq_false_iff {made : List Node} {j t : Nat} :
    queuesBefore made j t = false ↔
      weightOf made t < weightOf made j ∨ (weightOf made t = weightOf made j ∧ t ≤ j) := by
  simp only [queuesBefore, Bool.or_eq_false_iff, Bool.and_eq_false_iff, decide_eq_false_iff_not,
    beq_eq_false_iff_ne]
  omega

namespace MergeQueue

/-- The node a pass removes first (R142). -/
def first (q : MergeQueue) : Nat := leastOf q.made q.pq

/-- The node a pass removes second (R142). -/
def second (q : MergeQueue) : Nat := leastOf q.made (q.pq.erase q.first)

/-- The record a pass makes (R143). -/
def parent (q : MergeQueue) : Node := mergedNode q.made q.first q.second

theorem made_mergeOnce (q : MergeQueue) : (Machine.mergeOnce q).made = q.made ++ [q.parent] := rfl

theorem pq_mergeOnce (q : MergeQueue) :
    (Machine.mergeOnce q).pq = (q.pq.erase q.first).erase q.second ++ [q.made.length] := rfl

section
variable {q : MergeQueue} (h : 1 < q.pq.length)
include h

theorem first_mem : q.first ∈ q.pq :=
  leastOf_mem q.made (List.ne_nil_of_length_pos (by omega))

theorem second_mem_erase : q.second ∈ q.pq.erase q.first := by
  refine leastOf_mem q.made (List.ne_nil_of_length_pos ?_)
  rw [List.length_erase_of_mem (first_mem h)]
  omega

theorem second_mem : q.second ∈ q.pq := List.mem_of_mem_erase (second_mem_erase h)

end

theorem first_least {q : MergeQueue} {j : Nat} (h : j ∈ q.pq) : queuesBefore q.made j q.first = false :=
  leastOf_least q.made h

theorem second_least {q : MergeQueue} {j : Nat} (h : j ∈ q.pq) (hne : j ≠ q.first) :
    queuesBefore q.made j q.second = false :=
  leastOf_least q.made ((List.mem_erase_of_ne hne).2 h)

section
variable {q : MergeQueue} (hq : q.Ok) (h : 1 < q.pq.length)
include hq

theorem first_lt (h : 1 < q.pq.length) : q.first < q.made.length := hq.below _ (first_mem h)

theorem second_lt (h : 1 < q.pq.length) : q.second < q.made.length := hq.below _ (second_mem h)

theorem second_ne_first (h : 1 < q.pq.length) : q.second ≠ q.first :=
  (hq.nodup.mem_erase_iff.1 (second_mem_erase h)).1

/-- PQ loses the two nodes and gains the new one (R143). -/
theorem mem_pq_mergeOnce {j : Nat} :
    j ∈ (Machine.mergeOnce q).pq ↔
      (j ∈ q.pq ∧ j ≠ q.first ∧ j ≠ q.second) ∨ j = q.made.length := by
  rw [pq_mergeOnce, List.mem_append, List.mem_singleton, (hq.nodup.erase _).mem_erase_iff,
    hq.nodup.mem_erase_iff]
  tauto

end

end MergeQueue

/-!
PROOFS. What the merge loop keeps (R140 to R143, R147, R148): which nodes are in the queue, that every
internal node joins the two lightest of the queue it was made from, and what the queue weighs.
-/

/-- Record `k` is an internal node over node `j`. -/
def isParentOf (made : List Node) (k j : Nat) : Prop :=
  (made.getD k Node.zero).leaf = false ∧
    ((made.getD k Node.zero).left.toNat = j ∨ (made.getD k Node.zero).right.toNat = j)

/-- Node `j` was in the queue when record `i` was made: `inQueueAt` over the list of records. -/
def wasQueuedAt (made : List Node) (i j : Nat) : Prop :=
  j < i ∧ ∀ k < i, ¬ isParentOf made k j

/-- Record `i` is the internal node over the two first of the queue it was made from (R142, R143), and
its weight does not wrap (R147). -/
structure JoinsLightest (made : List Node) (i : Nat) : Prop where
  internal : (made.getD i Node.zero).leaf = false
  sym : (made.getD i Node.zero).sym = 0
  leftQueued : wasQueuedAt made i (made.getD i Node.zero).left.toNat
  rightQueued : wasQueuedAt made i (made.getD i Node.zero).right.toNat
  distinct : (made.getD i Node.zero).left.toNat ≠ (made.getD i Node.zero).right.toNat
  leftLeast : ∀ j, wasQueuedAt made i j →
    queuesBefore made j (made.getD i Node.zero).left.toNat = false
  rightLeast : ∀ j, wasQueuedAt made i j → j ≠ (made.getD i Node.zero).left.toNat →
    queuesBefore made j (made.getD i Node.zero).right.toNat = false
  weight : weightOf made i = weightOf made (made.getD i Node.zero).left.toNat +
    weightOf made (made.getD i Node.zero).right.toNat

section
variable {made : List Node} (nd : Node)

theorem weightOf_append {i : Nat} (h : i < made.length) :
    weightOf (made ++ [nd]) i = weightOf made i := by
  rw [weightOf, List.getD_append _ _ _ _ h, weightOf]

theorem getD_append_new : (made ++ [nd]).getD made.length Node.zero = nd := by simp

theorem weightOf_append_new : weightOf (made ++ [nd]) made.length = nd.weight.toNat := by
  rw [weightOf, getD_append_new]

theorem queuesBefore_append {i j : Nat} (hi : i < made.length) (hj : j < made.length) :
    queuesBefore (made ++ [nd]) i j = queuesBefore made i j := by
  simp only [queuesBefore, weightOf_append nd hi, weightOf_append nd hj]

theorem isParentOf_append {k j : Nat} (h : k < made.length) :
    isParentOf (made ++ [nd]) k j ↔ isParentOf made k j := by
  rw [isParentOf, List.getD_append _ _ _ _ h, isParentOf]

theorem wasQueuedAt_append {i j : Nat} (h : i ≤ made.length) :
    wasQueuedAt (made ++ [nd]) i j ↔ wasQueuedAt made i j :=
  and_congr_right' (forall₂_congr fun _ hk => not_congr (isParentOf_append nd (hk.trans_le h)))

/-- A record made later changes nothing for those made before. -/
theorem JoinsLightest.append {i : Nat} (h : JoinsLightest made i) (hi : i < made.length) :
    JoinsLightest (made ++ [nd]) i := by
  have hleft := h.leftQueued.1.trans hi
  have hright := h.rightQueued.1.trans hi
  have hqueued {j : Nat} := wasQueuedAt_append nd (j := j) hi.le
  constructor <;> rw [List.getD_append _ _ _ _ hi]
  case internal => exact h.internal
  case sym => exact h.sym
  case leftQueued => exact hqueued.2 h.leftQueued
  case rightQueued => exact hqueued.2 h.rightQueued
  case distinct => exact h.distinct
  case leftLeast =>
    intro j hj
    rw [hqueued] at hj
    rw [queuesBefore_append nd (hj.1.trans hi) hleft]
    exact h.leftLeast j hj
  case rightLeast =>
    intro j hj hne
    rw [hqueued] at hj
    rw [queuesBefore_append nd (hj.1.trans hi) hright]
    exact h.rightLeast j hj hne
  case weight =>
    rw [weightOf_append nd hi, weightOf_append nd hleft, weightOf_append nd hright]
    exact h.weight

end

/-- The weight of the nodes in the queue. -/
def MergeQueue.queuedWeight (q : MergeQueue) : Nat := (q.pq.map (weightOf q.made)).sum

/-- What the merge loop keeps, from the queue of the leaves on. -/
structure MergeQueue.GrownFrom (leaves : List Node) (q : MergeQueue) : Prop where
  ok : q.Ok
  /-- A pass makes one record and shrinks PQ by one (R150). -/
  size : q.made.length + q.pq.length = 2 * leaves.length
  /-- The record made last is in the queue. -/
  newest : q.made.length - 1 ∈ q.pq
  startsWith : leaves <+: q.made
  queued : ∀ j, j ∈ q.pq ↔ wasQueuedAt q.made q.made.length j
  joins : ∀ i, leaves.length ≤ i → i < q.made.length → JoinsLightest q.made i
  weight : q.queuedWeight = totalWeight leaves

/-- The new record weighs as much as its two children, where that does not wrap (R143, R147). -/
theorem MergeQueue.toNat_weight_parent {q : MergeQueue}
    (h : weightOf q.made q.first + weightOf q.made q.second < 2 ^ 40) :
    q.parent.weight.toNat = weightOf q.made q.first + weightOf q.made q.second := by
  rw [parent, mergedNode, BitVec.toNat_add]
  exact Nat.mod_eq_of_lt h

theorem MergeQueue.Ok.toNat_left_parent {q : MergeQueue} (hq : q.Ok) (h : 1 < q.pq.length)
    (hsize : q.made.length ≤ 511) : q.parent.left.toNat = q.first := by
  have := first_lt hq h
  simp only [parent, mergedNode, BitVec.toNat_ofNat]
  omega

theorem MergeQueue.Ok.toNat_right_parent {q : MergeQueue} (hq : q.Ok) (h : 1 < q.pq.length)
    (hsize : q.made.length ≤ 511) : q.parent.right.toNat = q.second := by
  have := second_lt hq h
  simp only [parent, mergedNode, BitVec.toNat_ofNat]
  omega

/-- The children of the record a pass makes are the two nodes it removes (R143). -/
theorem MergeQueue.Ok.isParentOf_new {q : MergeQueue} (hq : q.Ok) (h : 1 < q.pq.length) {j : Nat}
    (hsize : q.made.length ≤ 511) :
    isParentOf (Machine.mergeOnce q).made q.made.length j ↔ j = q.first ∨ j = q.second := by
  rw [isParentOf, made_mergeOnce, getD_append_new, hq.toNat_left_parent h hsize,
    hq.toNat_right_parent h hsize]
  exact (and_iff_right rfl).trans (or_congr eq_comm eq_comm)

/-- The record a pass makes is the internal node over the two lightest of the queue. -/
theorem MergeQueue.Ok.joinsLightest_mergeOnce {q : MergeQueue} (hq : q.Ok) (h : 1 < q.pq.length)
    (hqueued : ∀ j, j ∈ q.pq ↔ wasQueuedAt q.made q.made.length j) (hsize : q.made.length ≤ 511)
    (hweight : weightOf q.made q.first + weightOf q.made q.second < 2 ^ 40) :
    JoinsLightest (Machine.mergeOnce q).made q.made.length := by
  have hfirst := first_lt hq h
  have hsecond := second_lt hq h
  have hrecord : (Machine.mergeOnce q).made.getD q.made.length Node.zero = q.parent :=
    getD_append_new _
  have hleft := hq.toNat_left_parent h hsize
  have hright := hq.toNat_right_parent h hsize
  have hqueued' (j : Nat) : wasQueuedAt (Machine.mergeOnce q).made q.made.length j ↔ j ∈ q.pq := by
    rw [made_mergeOnce, wasQueuedAt_append _ le_rfl, hqueued]
  have hbefore {j t : Nat} (hj : j ∈ q.pq) (ht : t < q.made.length)
      (hle : queuesBefore q.made j t = false) :
      queuesBefore (Machine.mergeOnce q).made j t = false := by
    rw [made_mergeOnce, queuesBefore_append _ (hq.below j hj) ht, hle]
  constructor <;> simp only [hrecord, hleft, hright, hqueued']
  case internal => rfl
  case sym => rfl
  case leftQueued => exact first_mem h
  case rightQueued => exact second_mem h
  case distinct => exact (second_ne_first hq h).symm
  case leftLeast => exact fun j hj => hbefore hj hfirst (first_least hj)
  case rightLeast => exact fun j hj hne => hbefore hj hsecond (second_least hj hne)
  case weight =>
    rw [made_mergeOnce, weightOf_append_new, weightOf_append _ hfirst, weightOf_append _ hsecond,
      toNat_weight_parent hweight]

/-- The two nodes removed and the rest of the queue. -/
theorem MergeQueue.queuedWeight_split {q : MergeQueue} (h : 1 < q.pq.length) :
    weightOf q.made q.first + (weightOf q.made q.second +
      (((q.pq.erase q.first).erase q.second).map (weightOf q.made)).sum) = q.queuedWeight := by
  rw [List.sum_map_erase _ (second_mem_erase h), List.sum_map_erase _ (first_mem h), queuedWeight]

namespace MergeQueue.GrownFrom
variable {leaves : List Node} {q : MergeQueue}

theorem length_pq_pos (h : q.GrownFrom leaves) : 1 ≤ q.pq.length :=
  List.length_pos_of_mem h.newest

theorem length_made_le (h : q.GrownFrom leaves) : q.made.length + 1 ≤ 2 * leaves.length := by
  have := h.length_pq_pos
  have := h.size
  omega

/-- The queue of the leaves is where the loop starts (R140). -/
theorem start (hne : leaves ≠ []) (hleaf : ∀ nd ∈ leaves, nd.leaf = true) :
    GrownFrom leaves { made := leaves, pq := List.range leaves.length } where
  ok := { nodup := List.nodup_range, below := fun _ => List.mem_range.1 }
  size := by simp only [List.length_range]; omega
  newest := List.mem_range.2 (Nat.sub_lt (List.length_pos_of_ne_nil hne) Nat.one_pos)
  startsWith := List.prefix_rfl
  queued := by
    intro j
    rw [List.mem_range]
    refine ⟨fun hj => ⟨hj, fun k hk hparent => ?_⟩, fun hj => hj.1⟩
    have hinternal := hparent.1
    rw [List.getD_eq_getElem _ _ hk, hleaf _ (List.getElem_mem hk)] at hinternal
    cases hinternal
  joins := fun _ hle hlt => absurd hlt (Nat.not_lt_of_ge hle)
  weight := by
    rw [queuedWeight, totalWeight]
    congr 1
    apply List.ext_getElem
    · simp
    · intro i hi _
      have hlt : i < leaves.length := by simpa using hi
      simp only [List.getElem_map, List.getElem_range, weightOf, List.getD_eq_getElem _ _ hlt]

/-- Every internal record joins two nodes made before it. -/
theorem lt_of_isParentOf (h : q.GrownFrom leaves) (hleaf : ∀ nd ∈ leaves, nd.leaf = true) {k j : Nat}
    (hk : k < q.made.length) (hparent : isParentOf q.made k j) : j < k := by
  obtain ⟨hinternal, hchild⟩ := hparent
  by_cases hlt : k < leaves.length
  · obtain ⟨rest, hrest⟩ := h.startsWith
    rw [← hrest, List.getD_append _ _ _ _ hlt, List.getD_eq_getElem _ _ hlt,
      hleaf _ (List.getElem_mem hlt)] at hinternal
    cases hinternal
  · have hjoins := h.joins k (Nat.le_of_not_lt hlt) hk
    obtain rfl | rfl := hchild
    · exact hjoins.leftQueued.1
    · exact hjoins.rightQueued.1

/-- After a pass PQ again holds the nodes that no internal node is over (R143): the new node, and those
before but the two that went into it. -/
theorem mem_pq_mergeOnce_iff_wasQueuedAt (h : q.GrownFrom leaves) (hleaf : ∀ nd ∈ leaves, nd.leaf = true)
    (hmade : q.made.length < 512) (hpq : 1 < q.pq.length) (j : Nat) :
    j ∈ (Machine.mergeOnce q).pq ↔
      wasQueuedAt (Machine.mergeOnce q).made (Machine.mergeOnce q).made.length j := by
  have hfirst := first_lt h.ok hpq
  have hsecond := second_lt h.ok hpq
  have hparent := h.ok.isParentOf_new hpq (j := j) (by omega)
  have hqueued : wasQueuedAt (Machine.mergeOnce q).made (q.made.length + 1) j ↔
      j < q.made.length + 1 ∧ (∀ k < q.made.length, ¬ isParentOf q.made k j) ∧
        ¬ (j = q.first ∨ j = q.second) := by
    rw [wasQueuedAt, Nat.forall_lt_succ_right, hparent]
    exact and_congr_right' (and_congr_left' (forall₂_congr fun k hk =>
      not_congr (isParentOf_append _ hk)))
  rw [mem_pq_mergeOnce h.ok, h.queued, mergeOnce_length, hqueued, wasQueuedAt]
  obtain hlt | rfl | hgt := Nat.lt_trichotomy j q.made.length
  · have hne := hlt.ne
    have hle := hlt.trans (Nat.lt_succ_self _)
    tauto
  · have hnone : ∀ k < q.made.length, ¬ isParentOf q.made k q.made.length := fun k hk hp =>
      (h.lt_of_isParentOf hleaf hk hp).not_gt hk
    have hne : ¬ (q.made.length = q.first ∨ q.made.length = q.second) := by omega
    exact iff_of_true (.inr rfl) ⟨Nat.lt_succ_self _, hnone, hne⟩
  · exact iff_of_false (by omega) (by omega)

/-- A pass keeps the total weight in PQ (R147). -/
theorem queuedWeight_mergeOnce (h : q.GrownFrom leaves) (htotal : totalWeight leaves < 2 ^ 40)
    (hpq : 1 < q.pq.length) : (Machine.mergeOnce q).queuedWeight = totalWeight leaves := by
  have hsplit := queuedWeight_split hpq
  rw [h.weight] at hsplit
  rw [queuedWeight, pq_mergeOnce, List.map_append, List.sum_append]
  have hrest : ((q.pq.erase q.first).erase q.second).map (weightOf (Machine.mergeOnce q).made) =
      ((q.pq.erase q.first).erase q.second).map (weightOf q.made) :=
    List.map_congr_left fun j hj =>
      weightOf_append _ (h.ok.below j (List.mem_of_mem_erase (List.mem_of_mem_erase hj)))
  rw [hrest, List.map_singleton, List.sum_singleton, made_mergeOnce, weightOf_append_new,
    toNat_weight_parent (by omega)]
  omega

/-- A pass keeps what the loop keeps. -/
theorem mergeOnce (h : q.GrownFrom leaves) (hleaf : ∀ nd ∈ leaves, nd.leaf = true)
    (hcount : leaves.length ≤ 256) (htotal : totalWeight leaves < 2 ^ 40) (hpq : 1 < q.pq.length) :
    (Machine.mergeOnce q).GrownFrom leaves := by
  have hsize := h.length_made_le
  have hsplit := queuedWeight_split hpq
  rw [h.weight] at hsplit
  have hnew := h.ok.joinsLightest_mergeOnce hpq h.queued (by omega) (by omega)
  constructor
  case ok => exact h.ok.mergeOnce
  case size =>
    have := mergeOnce_pq_length hpq
    have := h.size
    rw [mergeOnce_length]
    omega
  case newest => rw [mergeOnce_length, mem_pq_mergeOnce h.ok]; exact .inr rfl
  case startsWith => exact h.startsWith.trans (List.prefix_append _ _)
  case queued => exact h.mem_pq_mergeOnce_iff_wasQueuedAt hleaf (by omega) hpq
  case joins =>
    intro i hle hlt
    rw [mergeOnce_length, Nat.lt_succ_iff_lt_or_eq] at hlt
    obtain hlt | rfl := hlt
    · exact (h.joins i hle hlt).append _ hlt
    · exact hnew
  case weight => exact h.queuedWeight_mergeOnce htotal hpq

end MergeQueue.GrownFrom

end Sys2Proof.Machine

/-!
PROOFS. The tree BUILD leaves (41_priority_queue_merge.md R140 to R148): the records of the merge loop
when one node is left in PQ, read through `nodeAt`.
-/

namespace Sys2Proof.Machine

/-- The merge loop's state when BUILD is done with it (R140). -/
def finalQueue (freq : Vector Word 256) : MergeQueue :=
  mergeLoop (leavesOf freq).length
    { made := leavesOf freq, pq := List.range (leavesOf freq).length }

/-- The node index of the root BUILD finds (R41). -/
def rootIndex (freq : Vector Word 256) : NodeIdx := BitVec.ofNat 9 (buildTree freq).root

theorem buildTree_tree (freq : Vector Word 256) :
    (buildTree freq).tree = recordsOf (finalQueue freq).made := rfl

@[simp] theorem buildTree_nsym (freq : Vector Word 256) :
    (buildTree freq).nsym = distinctSymbols freq := length_leavesOf freq

theorem leavesOf_eq_nil_of_distinctSymbols {freq : Vector Word 256} (h : distinctSymbols freq = 0) :
    leavesOf freq = [] :=
  List.eq_nil_of_length_eq_zero ((length_leavesOf freq).trans h)

theorem leaf_of_mem_leavesOf {freq : Vector Word 256} {nd : Node} (h : nd ∈ leavesOf freq) :
    nd.leaf = true := by
  obtain ⟨a, -, rfl⟩ := exists_of_mem_leavesOf h
  rfl

section
variable {freq : Vector Word 256} (h : 1 ≤ distinctSymbols freq)
include h

theorem finalQueue_grown : (finalQueue freq).GrownFrom (leavesOf freq) := by
  have hlength := length_leavesOf freq
  have hcount := distinctSymbols_le freq
  refine mergeLoop_induct (P := fun q => q.GrownFrom (leavesOf freq)) (fun q hq hpq => ?pass) _ ?start
  case pass =>
    exact hq.mergeOnce (fun _ => leaf_of_mem_leavesOf) (by omega)
      (totalWeight_leavesOf freq ▸ freqTotal_lt freq) hpq
  case start =>
    exact .start (List.ne_nil_of_length_pos (by omega)) fun _ => leaf_of_mem_leavesOf

/-- `n` leaves make `2n - 1` records (R146). -/
theorem length_made_finalQueue : (finalQueue freq).made.length + 1 = 2 * distinctSymbols freq := by
  have hlength := length_leavesOf freq
  have hends := mergeLoop_ends (leavesOf freq).length
    (q := { made := leavesOf freq, pq := List.range (leavesOf freq).length })
    (by simp only [List.length_range]; omega) (by simp only [List.length_range]; omega)
  have hmade := hends.2
  simp only [List.length_range] at hmade
  rw [finalQueue]
  omega

/-- The one node left in PQ is the record made last (R140). -/
theorem pq_finalQueue : (finalQueue freq).pq = [2 * distinctSymbols freq - 2] := by
  have hgrown := finalQueue_grown h
  have hmade := length_made_finalQueue h
  have hsize := hgrown.size
  rw [length_leavesOf] at hsize
  obtain ⟨i, hi⟩ := List.length_eq_one_iff.1 (show (finalQueue freq).pq.length = 1 by omega)
  have hnewest := hgrown.newest
  rw [hi, List.mem_singleton] at hnewest
  rw [hi, ← hnewest]
  congr 1
  omega

end

/-- R140: ROOT is `2n - 2`, or 0 for an empty table. -/
theorem buildTree_root (freq : Vector Word 256) :
    (buildTree freq).root = 2 * distinctSymbols freq - 2 := by
  obtain hzero | hpos := Nat.eq_zero_or_pos (distinctSymbols freq)
  · rw [buildTree_of_no_leaf (leavesOf_eq_nil_of_distinctSymbols hzero), hzero]
  · exact congrArg (List.headD · 0) (pq_finalQueue hpos)

theorem toNat_rootIndex (freq : Vector Word 256) :
    (rootIndex freq).toNat = 2 * distinctSymbols freq - 2 := by
  have := distinctSymbols_le freq
  rw [rootIndex, buildTree_root, BitVec.toNat_ofNat]
  omega

theorem length_made_finalQueue_eq (freq : Vector Word 256) :
    (finalQueue freq).made.length = 2 * distinctSymbols freq - 1 := by
  obtain hzero | hpos := Nat.eq_zero_or_pos (distinctSymbols freq)
  · rw [finalQueue, leavesOf_eq_nil_of_distinctSymbols hzero, hzero]
    rfl
  · have := length_made_finalQueue hpos
    omega

theorem nodeAt_buildTree (freq : Vector Word 256) (i : NodeIdx) :
    nodeAt (buildTree freq).tree i = (finalQueue freq).made.getD i.toNat Node.zero := by
  have := distinctSymbols_le freq
  have := length_made_finalQueue_eq freq
  rw [buildTree_tree, nodeAt_recordsOf _ (by omega)]

/-- R146: the records from `2n - 1` on are zero. -/
theorem nodeAt_buildTree_of_ge {freq : Vector Word 256} {i : NodeIdx}
    (h : 2 * distinctSymbols freq - 1 ≤ i.toNat) : nodeAt (buildTree freq).tree i = Node.zero := by
  rw [nodeAt_buildTree, List.getD_eq_default _ _ ((length_made_finalQueue_eq freq).trans_le h)]

/-- The first records are the leaves (R141). -/
theorem nodeAt_buildTree_of_lt {freq : Vector Word 256} {i : NodeIdx}
    (h : i.toNat < distinctSymbols freq) :
    nodeAt (buildTree freq).tree i = (leavesOf freq).getD i.toNat Node.zero := by
  obtain ⟨rest, hrest⟩ := (finalQueue_grown (Nat.one_le_of_lt h)).startsWith
  rw [nodeAt_buildTree, ← hrest, List.getD_append _ _ _ _ ((length_leavesOf freq).symm ▸ h)]

/-- The records below `n` are the leaves of the counted symbols (R141). -/
theorem exists_leafNode {freq : Vector Word 256} {i : NodeIdx} (h : i.toNat < distinctSymbols freq) :
    ∃ a, entryOf freq a ≠ 0 ∧ nodeAt (buildTree freq).tree i = leafNode a (entryOf freq a) := by
  have hlt : i.toNat < (leavesOf freq).length := (length_leavesOf freq).symm ▸ h
  rw [nodeAt_buildTree_of_lt h, List.getD_eq_getElem _ _ hlt]
  exact exists_of_mem_leavesOf (List.getElem_mem hlt)

/-- The node index of a counted symbol's leaf (R141). -/
def leafIndex (freq : Vector Word 256) (a : Sym) : NodeIdx :=
  BitVec.ofNat 9 (nonzeroBelow freq a.toNat)

theorem toNat_leafIndex_lt {freq : Vector Word 256} {a : Sym} (h : entryOf freq a ≠ 0) :
    (leafIndex freq a).toNat < distinctSymbols freq :=
  (Nat.mod_le _ _).trans_lt (nonzeroBelow_lt h)

/-- Each counted symbol has its leaf at its place in ascending order of symbol (R141). -/
theorem nodeAt_leafIndex {freq : Vector Word 256} {a : Sym} (h : entryOf freq a ≠ 0) :
    nodeAt (buildTree freq).tree (leafIndex freq a) = leafNode a (entryOf freq a) := by
  have hlt := nonzeroBelow_lt h
  have hle := distinctSymbols_le freq
  have hindex : (leafIndex freq a).toNat = nonzeroBelow freq a.toNat := by
    rw [leafIndex, BitVec.toNat_ofNat]
    omega
  rw [nodeAt_buildTree_of_lt (toNat_leafIndex_lt h), hindex, leavesOf_getD h]

/-- The records from `n` to the root join the two first of the queue at their time (R142, R143). -/
theorem joinsLightest_buildTree {freq : Vector Word 256} {i : NodeIdx} (hpos : 1 ≤ distinctSymbols freq)
    (h : distinctSymbols freq ≤ i.toNat) (hroot : i.toNat ≤ (rootIndex freq).toNat) :
    JoinsLightest (finalQueue freq).made i.toNat := by
  have hmade := length_made_finalQueue hpos
  rw [toNat_rootIndex] at hroot
  exact (finalQueue_grown hpos).joins i.toNat ((length_leavesOf freq).symm ▸ h) (by omega)

/-- The nodes up to the root are leaves below `n`, and internal nodes from `n` on. -/
theorem leaf_buildTree_iff {freq : Vector Word 256} {i : NodeIdx} (hpos : 1 ≤ distinctSymbols freq)
    (hroot : i.toNat ≤ (rootIndex freq).toNat) :
    (nodeAt (buildTree freq).tree i).leaf = true ↔ i.toNat < distinctSymbols freq := by
  obtain hlt | hge := Nat.lt_or_ge i.toNat (distinctSymbols freq)
  · obtain ⟨a, -, ha⟩ := exists_leafNode hlt
    exact iff_of_true (ha ▸ rfl) hlt
  · have hinternal := (joinsLightest_buildTree hpos hge hroot).internal
    rw [nodeAt_buildTree, hinternal]
    exact iff_of_false Bool.false_ne_true (Nat.not_lt_of_ge hge)

/-- Node `i` is an internal node over node `j`. -/
def hasChild (tree : Vector Node 511) (i j : NodeIdx) : Prop :=
  (nodeAt tree i).leaf = false ∧ ((nodeAt tree i).left = j ∨ (nodeAt tree i).right = j)

theorem isParentOf_finalQueue_iff {freq : Vector Word 256} {i j : NodeIdx} :
    isParentOf (finalQueue freq).made i.toNat j.toNat ↔ hasChild (buildTree freq).tree i j := by
  rw [isParentOf, ← nodeAt_buildTree, BitVec.toNat_inj, BitVec.toNat_inj, hasChild]

/-- `inQueueAt` is `wasQueuedAt` of the records. -/
theorem wasQueuedAt_finalQueue_iff {freq : Vector Word 256} {i j : NodeIdx} :
    wasQueuedAt (finalQueue freq).made i.toNat j.toNat ↔ inQueueAt (buildTree freq).tree i j := by
  have hiff (k : NodeIdx) : ¬ isParentOf (finalQueue freq).made k.toNat j.toNat ↔
      ((nodeAt (buildTree freq).tree k).leaf = false →
        (nodeAt (buildTree freq).tree k).left ≠ j ∧ (nodeAt (buildTree freq).tree k).right ≠ j) := by
    rw [isParentOf_finalQueue_iff, hasChild]
    tauto
  refine and_congr_right' ⟨fun hall k hk => (hiff k).1 (hall k.toNat hk), fun hall k hk => ?_⟩
  have hk' : (BitVec.ofNat 9 k).toNat = k := Nat.mod_eq_of_lt (hk.trans i.isLt)
  have := (hiff (BitVec.ofNat 9 k)).2 (hall _ (hk'.symm ▸ hk))
  rwa [hk'] at this

/-- `queuesNoLater` is the order of the merge queue over the records. -/
theorem queuesNoLater_iff {freq : Vector Word 256} {i j : NodeIdx} :
    queuesNoLater (buildTree freq).tree i j ↔
      queuesBefore (finalQueue freq).made j.toNat i.toNat = false := by
  rw [queuesBefore_eq_false_iff, queuesNoLater, nodeAt_buildTree, nodeAt_buildTree]
  rfl

section
variable {freq : Vector Word 256} (hpos : 1 ≤ distinctSymbols freq)
include hpos

/-- The internal nodes up to the root are those from `n` on. -/
theorem distinctSymbols_le_of_internal {i : NodeIdx} (hroot : i.toNat ≤ (rootIndex freq).toNat)
    (h : (nodeAt (buildTree freq).tree i).leaf = false) : distinctSymbols freq ≤ i.toNat := by
  by_contra hlt
  have hleaf := (leaf_buildTree_iff hpos hroot).2 (Nat.lt_of_not_le hlt)
  rw [h] at hleaf
  cases hleaf

/-- The children of an internal node were in the queue when it was made (R143). -/
theorem inQueueAt_of_hasChild {i j : NodeIdx} (hroot : i.toNat ≤ (rootIndex freq).toNat)
    (h : hasChild (buildTree freq).tree i j) : inQueueAt (buildTree freq).tree i j := by
  obtain ⟨hinternal, hchild⟩ := h
  have hjoins :=
    joinsLightest_buildTree hpos (distinctSymbols_le_of_internal hpos hroot hinternal) hroot
  have hleft := hjoins.leftQueued
  have hright := hjoins.rightQueued
  rw [← nodeAt_buildTree, wasQueuedAt_finalQueue_iff] at hleft hright
  obtain rfl | rfl := hchild
  · exact hleft
  · exact hright

/-- Children have smaller indices than their parent (R148). -/
theorem lt_of_hasChild {i j : NodeIdx} (hroot : i.toNat ≤ (rootIndex freq).toNat)
    (h : hasChild (buildTree freq).tree i j) : j.toNat < i.toNat :=
  (inQueueAt_of_hasChild hpos hroot h).1

/-- The child of an internal node on either bit comes before it (R148). -/
theorem childOf_lt {i : NodeIdx} (hroot : i.toNat ≤ (rootIndex freq).toNat)
    (h : (nodeAt (buildTree freq).tree i).leaf = false) (b : Bool) :
    (childOf (buildTree freq).tree i b).toNat < i.toNat := by
  refine lt_of_hasChild hpos hroot ⟨h, ?_⟩
  cases b
  · exact .inl rfl
  · exact .inr rfl

/-- Every node but the root has a parent (R148): it is no longer in the queue at the end. -/
theorem exists_hasChild {j : NodeIdx} (h : j.toNat < (rootIndex freq).toNat) :
    ∃ i : NodeIdx, i.toNat ≤ (rootIndex freq).toNat ∧ hasChild (buildTree freq).tree i j := by
  have hmade := length_made_finalQueue hpos
  have hcount := distinctSymbols_le freq
  have hnotQueued := ((finalQueue_grown hpos).queued j.toNat).not
  rw [pq_finalQueue hpos, List.mem_singleton, wasQueuedAt, not_and_or] at hnotQueued
  rw [toNat_rootIndex] at h ⊢
  have hparent := (hnotQueued.1 h.ne).resolve_left (by omega)
  push Not at hparent
  obtain ⟨k, hk, hkj⟩ := hparent
  have hk' : (BitVec.ofNat 9 k).toNat = k := Nat.mod_eq_of_lt (by omega)
  refine ⟨BitVec.ofNat 9 k, by omega, isParentOf_finalQueue_iff.1 ?_⟩
  rwa [hk']

/-- No node has two parents (R148): the first takes it out of the queue. -/
theorem eq_of_hasChild {i i' j : NodeIdx} (hi : i.toNat ≤ (rootIndex freq).toNat)
    (hi' : i'.toNat ≤ (rootIndex freq).toNat) (h : hasChild (buildTree freq).tree i j)
    (h' : hasChild (buildTree freq).tree i' j) : i = i' := by
  have hnotLt {k k' : NodeIdx} (hk' : k'.toNat ≤ (rootIndex freq).toNat)
      (hkj : hasChild (buildTree freq).tree k j) (hkj' : hasChild (buildTree freq).tree k' j) :
      ¬ k.toNat < k'.toNat := fun hlt => by
    obtain ⟨-, hfree⟩ := inQueueAt_of_hasChild hpos hk' hkj'
    obtain ⟨hleft, hright⟩ := hfree k hlt hkj.1
    exact hkj.2.elim hleft hright
  exact BitVec.eq_of_toNat_eq
    (Nat.le_antisymm (Nat.le_of_not_lt (hnotLt hi h' h)) (Nat.le_of_not_lt (hnotLt hi' h h')))

end

/-- Settles O15: NSYM and ROOT count the leaves and the records of the merge loop. -/
theorem buildNumbersAndFlags : Obligations.BuildNumbersAndFlags := by
  intro s
  refine ⟨_, exec_build s, ?frame, fun i hi => nodeAt_buildTree_of_ge hi⟩
  case frame => rw [buildTree_nsym, buildTree_root]

/-- Settles O18: below `n` the records are the leaves in order, and from `n` on there is none. -/
theorem buildMakesLeavesInSymbolOrder : Obligations.BuildMakesLeavesInSymbolOrder := by
  intro s t hexec
  rw [exec_build] at hexec
  cases hexec
  refine ⟨fun a ha => nodeAt_leafIndex ha, fun i hi => ?internal⟩
  case internal =>
    obtain hlt | hge := Nat.lt_or_ge i.toNat (2 * distinctSymbols s.freq - 1)
    · have hroot : i.toNat ≤ (rootIndex s.freq).toNat := by rw [toNat_rootIndex]; omega
      exact Bool.eq_false_iff.2 ((leaf_buildTree_iff (by omega) hroot).not.2 (Nat.not_lt_of_ge hi))
    · rw [nodeAt_buildTree_of_ge hge]
      rfl

/-- Settles O19: a pass takes the least of the queue and the least of the rest, and the records keep
which nodes were in the queue. -/
theorem mergeTakesTheTwoLightest : Obligations.MergeTakesTheTwoLightest := by
  refine ⟨fun q hnodup hbelow hpq => ?pass, fun s t hexec i hroot hge hpos => ?tree⟩
  case pass =>
    have hok : q.Ok := ⟨hnodup, hbelow⟩
    exact ⟨q.first, q.second, q.first_mem hpq, q.second_mem hpq, (q.second_ne_first hok hpq).symm,
      fun j hj => queuesBefore_eq_false_iff.1 (q.first_least hj),
      fun j hj hne => queuesBefore_eq_false_iff.1 (q.second_least hj hne),
      rfl, fun j => q.mem_pq_mergeOnce hok⟩
  case tree =>
    rw [exec_build] at hexec
    cases hexec
    have hjoins := joinsLightest_buildTree hpos hge hroot
    have hinternal := hjoins.internal
    have hleftLeast := hjoins.leftLeast
    have hrightLeast := hjoins.rightLeast
    have hdistinct := hjoins.distinct
    rw [← nodeAt_buildTree] at hinternal hleftLeast hrightLeast hdistinct
    refine ⟨inQueueAt_of_hasChild hpos hroot ⟨hinternal, .inl rfl⟩,
      inQueueAt_of_hasChild hpos hroot ⟨hinternal, .inr rfl⟩, ne_of_apply_ne BitVec.toNat hdistinct,
      fun j hj => ?_, fun j hj hne => ?_⟩
    · exact queuesNoLater_iff.2 (hleftLeast _ (wasQueuedAt_finalQueue_iff.2 hj))
    · exact queuesNoLater_iff.2 (hrightLeast _ (wasQueuedAt_finalQueue_iff.2 hj)
        (BitVec.toNat_ne_iff_ne.2 hne))

/-- Settles O20: leaves weigh their counts, each pass adds up two weights, and what is in the queue
always weighs as much as all leaves. -/
theorem treeWeightsAreSums : Obligations.TreeWeightsAreSums := by
  intro s t hexec hpos
  rw [exec_build] at hexec
  cases hexec
  refine ⟨fun i hi => ?node, ?root⟩
  case node =>
    have hroot : i.toNat ≤ (rootIndex s.freq).toNat := by rw [toNat_rootIndex]; omega
    have hleaf := leaf_buildTree_iff hpos hroot
    dsimp only
    obtain hlt | hge := Nat.lt_or_ge i.toNat (distinctSymbols s.freq)
    · obtain ⟨a, -, ha⟩ := exists_leafNode hlt
      rw [if_pos (hleaf.2 hlt), ha, toNat_weight_leafNode]
      rfl
    · have hweight := (joinsLightest_buildTree hpos hge hroot).weight
      rw [if_neg (hleaf.not.2 (Nat.not_lt_of_ge hge))]
      rw [← nodeAt_buildTree] at hweight
      simpa only [weightOf, ← nodeAt_buildTree] using hweight
  case root =>
    have hweight := (finalQueue_grown hpos).weight
    rw [MergeQueue.queuedWeight, pq_finalQueue hpos, List.map_singleton, List.sum_singleton,
      totalWeight_leavesOf, weightOf, ← toNat_rootIndex, ← nodeAt_buildTree] at hweight
    exact hweight

/-- Settles O21: a node is in the queue until the one pass that makes its parent. -/
theorem treeIsAStrictBinaryTree : Obligations.TreeIsAStrictBinaryTree := by
  intro s t hexec hpos
  rw [exec_build] at hexec
  cases hexec
  refine ⟨fun i hroot => ⟨leaf_buildTree_iff hpos hroot, fun hinternal => ?children⟩,
    fun j hj => ?parent⟩
  case children =>
    have hdistinct := (joinsLightest_buildTree hpos
      (distinctSymbols_le_of_internal hpos hroot hinternal) hroot).distinct
    rw [← nodeAt_buildTree] at hdistinct
    exact ⟨lt_of_hasChild hpos hroot ⟨hinternal, .inl rfl⟩,
      lt_of_hasChild hpos hroot ⟨hinternal, .inr rfl⟩, ne_of_apply_ne BitVec.toNat hdistinct⟩
  case parent =>
    obtain ⟨i, hroot, hi⟩ := exists_hasChild hpos hj
    exact ⟨i, ⟨hroot, hi⟩, fun i' hroot' hinternal hchild =>
      eq_of_hasChild hpos hroot' hroot ⟨hinternal, hchild⟩ hi⟩

end Sys2Proof.Machine

/-!
PROOFS. Paths in a tree (30_encoding.md R101, R110): a path to a leaf is no beginning of another, and in
a tree that BUILD made every leaf has a path from the root, of at most 255 bits (42_code_table.md R163).
-/

namespace Sys2Proof.Machine

section
variable {tree : Vector Node 511}

theorem leadsToLeaf_nil {i : NodeIdx} {a : Sym} :
    leadsToLeaf tree i [] a = true ↔ (nodeAt tree i).leaf = true ∧ (nodeAt tree i).sym = a := by
  simp only [leadsToLeaf, Bool.and_eq_true, beq_iff_eq]

theorem leadsToLeaf_cons {i : NodeIdx} {b : Bool} {c : List Bool} {a : Sym} :
    leadsToLeaf tree i (b :: c) a = true ↔
      (nodeAt tree i).leaf = false ∧ leadsToLeaf tree (childOf tree i b) c a = true := by
  simp only [leadsToLeaf, Bool.and_eq_true, Bool.not_eq_true']

theorem staysInside_cons {i : NodeIdx} {b : Bool} {c : List Bool} :
    staysInside tree i (b :: c) = true ↔
      (nodeAt tree i).leaf = false ∧ staysInside tree (childOf tree i b) c = true := by
  simp only [staysInside, Bool.and_eq_true, Bool.not_eq_true']

/-- A bit string begins with at most one path to a leaf. -/
theorem eq_of_leadsToLeaf_append {i : NodeIdx} {c d x y : List Bool} {a b : Sym}
    (hc : leadsToLeaf tree i c a = true) (hd : leadsToLeaf tree i d b = true)
    (h : c ++ x = d ++ y) : c = d ∧ a = b := by
  induction c generalizing i d with
  | nil =>
    obtain ⟨hleaf, rfl⟩ := leadsToLeaf_nil.1 hc
    cases d with
    | nil => exact ⟨rfl, (leadsToLeaf_nil.1 hd).2⟩
    | cons e d => rw [(leadsToLeaf_cons.1 hd).1] at hleaf; cases hleaf
  | cons e c ih =>
    obtain ⟨hinternal, hc⟩ := leadsToLeaf_cons.1 hc
    cases d with
    | nil => rw [(leadsToLeaf_nil.1 hd).1] at hinternal; cases hinternal
    | cons e' d =>
      rw [List.cons_append, List.cons_append, List.cons.injEq] at h
      obtain ⟨rfl, h⟩ := h
      obtain ⟨rfl, rfl⟩ := ih hc (leadsToLeaf_cons.1 hd).2 h
      exact ⟨rfl, rfl⟩

/-- A bit string begins with at most one word that the decoder reads (R110). -/
theorem eq_of_readsAs_append {root : NodeIdx} {c d x y : List Bool} {a b : Sym}
    (hc : readsAs tree root c a = true) (hd : readsAs tree root d b = true)
    (h : c ++ x = d ++ y) : c = d ∧ a = b := by
  unfold readsAs at hc hd
  cases hleaf : (nodeAt tree root).leaf with
  | true =>
    simp only [hleaf, if_true, Bool.and_eq_true, beq_iff_eq] at hc hd
    exact ⟨(List.append_inj h (hc.1.trans hd.1.symm)).1, hc.2.symm.trans hd.2⟩
  | false =>
    simp only [hleaf, Bool.false_eq_true, if_false] at hc hd
    exact eq_of_leadsToLeaf_append hc hd h

end

section
variable {freq : Vector Word 256} (hpos : 1 ≤ distinctSymbols freq)
include hpos

/-- A path leads to the leaf of a counted symbol (R141). -/
theorem counted_of_leadsToLeaf {i : NodeIdx} {c : List Bool} {a : Sym}
    (hroot : i.toNat ≤ (rootIndex freq).toNat)
    (h : leadsToLeaf (buildTree freq).tree i c a = true) : entryOf freq a ≠ 0 := by
  induction c generalizing i with
  | nil =>
    obtain ⟨hleaf, rfl⟩ := leadsToLeaf_nil.1 h
    obtain ⟨a, ha, hnode⟩ := exists_leafNode ((leaf_buildTree_iff hpos hroot).1 hleaf)
    rw [hnode]
    exact ha
  | cons b c ih =>
    obtain ⟨hinternal, hrest⟩ := leadsToLeaf_cons.1 h
    exact ih ((childOf_lt hpos hroot hinternal b).le.trans hroot) hrest

/-- A path goes down through the internal nodes, which are those from `n` on (R163). -/
theorem length_le_of_leadsToLeaf {i : NodeIdx} {c : List Bool} {a : Sym}
    (hroot : i.toNat ≤ (rootIndex freq).toNat)
    (h : leadsToLeaf (buildTree freq).tree i c a = true) :
    c = [] ∨ c.length + distinctSymbols freq ≤ i.toNat + 1 := by
  induction c generalizing i with
  | nil => exact .inl rfl
  | cons b c ih =>
    obtain ⟨hinternal, hrest⟩ := leadsToLeaf_cons.1 h
    have hlt := childOf_lt hpos hroot hinternal b
    have hge := distinctSymbols_le_of_internal hpos hroot hinternal
    right
    rw [List.length_cons]
    obtain rfl | hlength := ih (hlt.le.trans hroot) hrest
    · rw [List.length_nil]; omega
    · omega

/-- A path from the root has at most 255 bits (R163). -/
theorem length_lt_of_leadsToLeaf_root {c : List Bool} {a : Sym}
    (h : leadsToLeaf (buildTree freq).tree (rootIndex freq) c a = true) : c.length < 256 := by
  have hcount := distinctSymbols_le freq
  have hroot := toNat_rootIndex freq
  obtain rfl | hlength := length_le_of_leadsToLeaf hpos le_rfl h
  · exact Nat.zero_lt_succ 255
  · omega

/-- What a node leads to the root leads to: the path grows by one bit at each parent. -/
theorem exists_leadsToLeaf_root {j : NodeIdx} {c : List Bool} {a : Sym}
    (hj : j.toNat ≤ (rootIndex freq).toNat)
    (h : leadsToLeaf (buildTree freq).tree j c a = true) :
    ∃ c', leadsToLeaf (buildTree freq).tree (rootIndex freq) c' a = true := by
  induction hd : (rootIndex freq).toNat - j.toNat using Nat.strong_induction_on generalizing j c with
  | _ d ih =>
    obtain hlt | heq := Nat.lt_or_eq_of_le hj
    · obtain ⟨i, hroot, hinternal, hchild⟩ := exists_hasChild hpos hlt
      have hlt' := lt_of_hasChild hpos hroot ⟨hinternal, hchild⟩
      obtain ⟨b, hb⟩ : ∃ b, childOf (buildTree freq).tree i b = j :=
        hchild.elim (fun hl => ⟨false, hl⟩) fun hr => ⟨true, hr⟩
      exact ih _ (by omega) hroot (leadsToLeaf_cons.2 ⟨hinternal, hb.symm ▸ h⟩) rfl
    · exact ⟨c, BitVec.eq_of_toNat_eq heq ▸ h⟩

/-- Each counted symbol has a path from the root (R161). -/
theorem exists_leadsToLeaf_of_counted {a : Sym} (ha : entryOf freq a ≠ 0) :
    ∃ c, leadsToLeaf (buildTree freq).tree (rootIndex freq) c a = true := by
  have hlt := toNat_leafIndex_lt ha
  have hnode := nodeAt_leafIndex ha
  have hroot := toNat_rootIndex freq
  exact exists_leadsToLeaf_root hpos (j := leafIndex freq a) (c := []) (by omega)
    (leadsToLeaf_nil.2 ⟨hnode ▸ rfl, hnode ▸ rfl⟩)

/-- What the decoder reads is a counted symbol. -/
theorem counted_of_readsAs {c : List Bool} {a : Sym}
    (h : readsAs (buildTree freq).tree (rootIndex freq) c a = true) : entryOf freq a ≠ 0 := by
  unfold readsAs at h
  split at h
  next hleaf =>
    simp only [Bool.and_eq_true, beq_iff_eq] at h
    exact counted_of_leadsToLeaf hpos le_rfl (leadsToLeaf_nil.2 ⟨hleaf, h.2⟩)
  next => exact counted_of_leadsToLeaf hpos le_rfl h

end

/-!
PROOFS. TABLE (42_code_table.md R160 to R163): the code word of an entry is what the decoder reads for its
symbol, and the counted symbols are those with an entry.
-/

/-- A one-leaf tree gives its symbol the code word `"0"` (R162). -/
theorem deriveCode_of_leaf {tree : Vector Node 511} {root : NodeIdx}
    (h : (nodeAt tree root).leaf = true) :
    deriveCode tree root = setEntry (Vector.replicate 256 CodeEntry.invalid) (nodeAt tree root).sym
      (CodeEntry.ofWord [false]) := by
  simp only [deriveCode, h, if_true]

/-- Any other tree is walked from the root (R160). -/
theorem deriveCode_of_internal {tree : Vector Node 511} {root : NodeIdx}
    (h : (nodeAt tree root).leaf = false) :
    deriveCode tree root =
      visit tree treeLevels root [] (Vector.replicate 256 CodeEntry.invalid) := by
  simp only [deriveCode, h, Bool.false_eq_true, if_false]

/-- An entry of the table TABLE derives is invalid, or holds what the decoder reads for its symbol; of the
two words a one-leaf tree reads, it is `"0"` (R162). -/
theorem deriveCode_entry (tree : Vector Node 511) (root : NodeIdx) (a : Sym) :
    entryOf (deriveCode tree root) a = CodeEntry.invalid ∨
      ∃ c, c.length < 256 ∧ readsAs tree root c a = true ∧
        ((nodeAt tree root).leaf = true → c = [false]) ∧
        entryOf (deriveCode tree root) a = CodeEntry.ofWord c := by
  cases hleaf : (nodeAt tree root).leaf with
  | true =>
    rw [deriveCode_of_leaf hleaf, entryOf_setEntry, entryOf_replicate]
    by_cases ha : a = (nodeAt tree root).sym
    · exact .inr ⟨[false], by decide, by simp [readsAs, hleaf, ha], fun _ => rfl, if_pos ha⟩
    · exact .inl (if_neg ha)
  | false =>
    rw [deriveCode_of_internal hleaf]
    obtain hsame | ⟨c, hlength, hpath, hentry⟩ :=
      visit_entry tree treeLevels root [] (Vector.replicate 256 CodeEntry.invalid) a
    · exact .inl (hsame.trans (entryOf_replicate _ a))
    · exact .inr ⟨c, hlength, by simpa [readsAs, hleaf] using hpath, nofun, hentry⟩

/-- The same for a valid entry, whose code word is then what was put in. -/
theorem readsAs_word_deriveCode {tree : Vector Node 511} {root : NodeIdx} {a : Sym}
    (h : (entryOf (deriveCode tree root) a).valid = true) :
    readsAs tree root (entryOf (deriveCode tree root) a).word a = true := by
  obtain hinvalid | ⟨c, hlength, hreads, -, hentry⟩ := deriveCode_entry tree root a
  · rw [hinvalid] at h; cases h
  · rwa [hentry, CodeEntry.word_ofWord c hlength]

/-- Every entry TABLE derives has the form of a CODE entry (R48, R163). -/
theorem formed_deriveCode (tree : Vector Node 511) (root : NodeIdx) (a : Sym) :
    (entryOf (deriveCode tree root) a).Formed := by
  obtain hinvalid | ⟨c, hlength, hreads, -, hentry⟩ := deriveCode_entry tree root a
  · rw [hinvalid]; exact CodeEntry.formed_invalid
  · rw [hentry]; exact CodeEntry.formed_ofWord c hlength (ne_nil_of_readsAs hreads)

theorem codeOf_eq (freq : Vector Word 256) :
    codeOf freq = deriveCode (buildTree freq).tree (rootIndex freq) := rfl

/-- A symbol without a count has no code word (R160). -/
theorem entryOf_codeOf_of_zero {freq : Vector Word 256} (hpos : 1 ≤ distinctSymbols freq) {a : Sym}
    (h : entryOf freq a = 0) : entryOf (codeOf freq) a = CodeEntry.invalid := by
  obtain hinvalid | ⟨c, -, hreads, -⟩ := deriveCode_entry (buildTree freq).tree (rootIndex freq) a
  · exact hinvalid
  · exact absurd h (counted_of_readsAs hpos hreads)

/-- A symbol with a count has a code word (R160, R162). -/
theorem valid_codeOf_of_counted {freq : Vector Word 256} (hpos : 1 ≤ distinctSymbols freq) {a : Sym}
    (h : entryOf freq a ≠ 0) : (entryOf (codeOf freq) a).valid = true := by
  obtain ⟨c, hpath⟩ := exists_leadsToLeaf_of_counted hpos h
  rw [codeOf_eq]
  cases hleaf : (nodeAt (buildTree freq).tree (rootIndex freq)).leaf with
  | true =>
    cases c with
    | nil =>
      rw [deriveCode_of_leaf hleaf, (leadsToLeaf_nil.1 hpath).2, entryOf_setEntry, if_pos rfl]
      rfl
    | cons b c => rw [(leadsToLeaf_cons.1 hpath).1] at hleaf; cases hleaf
  | false =>
    obtain ⟨c', -, -, hentry⟩ := visit_reaches _ treeLevels _ [] c
      (Vector.replicate 256 CodeEntry.invalid) a (length_lt_of_leadsToLeaf_root hpos hpath) hpath
    rw [deriveCode_of_internal hleaf, hentry]
    rfl

/-- With TREE_VALID, R49 makes TREE and ROOT those of the current counts, of which one is not zero. -/
theorem State.TablesConsistent.tree_of_treeValid {s : State} (h : s.TablesConsistent)
    (hvalid : s.treeValid = true) :
    s.tree = (buildTree s.freq).tree ∧ s.root = rootIndex s.freq ∧ 1 ≤ distinctSymbols s.freq := by
  obtain ⟨htree, hnsym, hroot, hpos, -⟩ := h.treeCurrent hvalid
  rw [hnsym, buildTree_nsym, BitVec.toNat_ofNat] at hpos
  exact ⟨htree, hroot, hpos.trans (Nat.mod_le _ _)⟩

/-- Settles O22: the entries of the counted symbols hold what the decoder reads, the others are invalid. -/
theorem tableGivesPathsToLeaves : Obligations.TableGivesPathsToLeaves := by
  intro s hvalid hconsistent
  obtain ⟨htree, hroot, hpos⟩ := hconsistent.tree_of_treeValid hvalid
  refine ⟨_, exec_table_of_treeValid hvalid, rfl, fun a => ?_⟩
  simp only [htree, hroot, ← codeOf_eq]
  refine ⟨entryOf_codeOf_of_zero hpos, fun ha => ?counted⟩
  case counted =>
    have hcoded := valid_codeOf_of_counted hpos ha
    refine ⟨hcoded, ?_⟩
    obtain hinvalid | ⟨c, hlength, hreads, hzero, hentry⟩ :=
      deriveCode_entry (buildTree s.freq).tree (rootIndex s.freq) a
    · rw [codeOf_eq, hinvalid] at hcoded; cases hcoded
    · rw [codeOf_eq, hentry, CodeEntry.word_ofWord c hlength]
      split
      next hleaf => exact hzero hleaf
      next hinternal => rwa [readsAs, if_neg hinternal] at hreads

/-- Settles O24: every entry TABLE derives has the form of a CODE entry. -/
theorem codeWordsAreOneTo255Bits : Obligations.CodeWordsAreOneTo255Bits := by
  intro s t hexec hvalid a ha
  rw [exec_table_of_treeValid hvalid] at hexec
  cases hexec
  obtain ⟨-, hlen, hbits⟩ := formed_deriveCode s.tree s.root a
  exact ⟨hlen ha, Nat.le_of_lt_succ (BitVec.isLt _), hbits⟩

/-- Settles O25: both code words are what the decoder reads, and no bit string begins with two such. -/
theorem codeWordsArePrefixFree : Obligations.CodeWordsArePrefixFree := by
  rintro s hconsistent hvalid a b hne ha hb ⟨more, hmore⟩
  rw [hconsistent.tableCurrent hvalid] at ha hb hmore
  refine hne (eq_of_readsAs_append (x := more) (y := []) (readsAs_word_deriveCode ha)
    (readsAs_word_deriveCode hb) ?_).2
  rw [hmore, List.append_nil]

/-!
PROOFS. LOOKUP (42_code_table.md R164): the entry of a symbol, with a code word and without.
-/

/-- LK_BITSk holds bits `32k` to `32k + 31` (R42). -/
theorem getLsbD_lookupWords (bits : BitVec 256) (k : Fin 8) {j : Nat} (h : j < 32) :
    ((lookupWords bits)[k.val]).getLsbD j = bits.getLsbD (32 * k.val + j) := by
  simp [lookupWords, h]

/-- With a table LOOKUP looks at the entry alone (R164). -/
theorem lookupBody_of_tableValid {s : State} (a : Sym) (h : s.tableValid = true) :
    lookupBody a s =
      if (entryOf s.code a).valid then .finished (loadLookup (entryOf s.code a) s)
      else .raised .lookupFail (a.setWidth 32)
        { s with lkLen := 0, lkBits := Vector.replicate 8 0 } := by
  rw [lookupBody, if_pos h]

/-- Settles O26: the entry is valid, so its length and bits are loaded. -/
theorem lookupReturnsTheEntry : Obligations.LookupReturnsTheEntry := by
  intro s a htable hvalid
  have hexec : exec (.lookup a) s = .next (finish (loadLookup (entryOf s.code a) s)) := by
    rw [exec, execLookup, lookupBody_of_tableValid a htable, if_pos hvalid, Ended.conclude]
  exact ⟨_, hexec, rfl, fun k j hj => getLsbD_lookupWords (entryOf s.code a).bits k hj⟩

/-- Settles O28: the entry is invalid, so LOOKUP raises after it has zeroed its results. -/
theorem lookupOfUnknownSymbolFails : Obligations.LookupOfUnknownSymbolFails := by
  intro s a htable hinvalid
  have hnotValid : ¬ (entryOf s.code a).valid = true := by rw [hinvalid]; decide
  rw [exec, execLookup, lookupBody_of_tableValid a htable, if_neg hnotValid, conclude_raised,
    BitVec.ofNat_toNat]

end Sys2Proof.Machine

/-!
PROOFS. The sequencer (45_control.md R221 to R225, 70_reset_and_hazards.md R274, R280, R290): a command is
its body and then its completion, a step runs it or serves the host, and no access reaches what it uses.
-/

namespace Sys2Proof.Machine

/-- The pseudocode of a command (R106, R221). -/
def bodyOf : Instr → State → Ended
  | .nop => Ended.finished
  | .count => countBody
  | .build => buildBody
  | .table => tableBody
  | .encode => encodeBody
  | .decode => decodeBody
  | .compress => compressBody
  | .lookup sym => lookupBody sym
  | .clear => clearBody

/-- Every command is its pseudocode and then its completion (R222). -/
theorem exec_eq (i : Instr) (s : State) : exec i s = .next (bodyOf i s).conclude := by
  cases i <;> rfl

theorem exec_of_finished {i : Instr} {s t : State} (h : bodyOf i s = .finished t) :
    exec i s = .next { t with errCode := .none, seq := .idle, done := true } := by
  rw [exec_eq, h, conclude_finished]

theorem exec_of_raised {i : Instr} {s t : State} {e : ErrCode} {info : Word}
    (h : bodyOf i s = .raised e info t) :
    exec i s = .next { t with errInfo := info, errCode := e, seq := .idle, done := true } := by
  rw [exec_eq, h, conclude_raised]

/-- The state in which the pseudocode of a command ends, before the completion. -/
def Ended.state : Ended → State
  | .finished s => s
  | .raised _ _ s => s

/-- What a stage does between its first and its last state, COMPRESS does from the first stage on. -/
theorem Ended.andThen_state {R : State → State → Prop} (htrans : ∀ s t u, R s t → R t u → R s u)
    {s : State} {r : Ended} (h : R s r.state) {stage : State → Ended}
    (hstage : ∀ t, R t (stage t).state) : R s (r.andThen stage).state := by
  cases r with
  | finished t => exact htrans s t _ h (hstage t)
  | raised e info t => exact h

/-- What COUNT, BUILD, TABLE and ENCODE do, COMPRESS does (R226). -/
theorem compressBody_state {R : State → State → Prop} (hrefl : ∀ s, R s s)
    (htrans : ∀ s t u, R s t → R t u → R s u) (hcount : ∀ s, R s (countBody s).state)
    (hbuild : ∀ s, R s (buildBody s).state) (htable : ∀ s, R s (tableBody s).state)
    (hencode : ∀ s, R s (encodeBody s).state) (s : State) : R s (compressBody s).state := by
  have hstage (t : State) : R t (tableStage t).state := by
    unfold tableStage
    split
    · exact htable t
    · exact hrefl t
  have hbuilt := Ended.andThen_state htrans (hcount s) hbuild
  exact Ended.andThen_state htrans (Ended.andThen_state htrans hbuilt hstage) hencode

/-- A host access while the block is busy reaches only CTRL, DONE, OVERRUN, the response and the draw
counter (R280). -/
theorem hostAccess_busy {s : State} {w : Word} {hold : Nat} (h : s.seq = .busy w hold) (a : Access) :
    ∃ (ie done overrun : Bool) (resp : Option BusResp) (draws : Nat),
      hostAccess a s =
        { s with ie := ie, done := done, overrun := overrun, resp := resp, draws := draws } := by
  obtain ⟨v, t, hwrite⟩ | ⟨resp, draws, hother⟩ := hostAccess_cases a s
  · rw [hwrite]
    obtain hkeep | hctrl | hstatus | hcmd := writeTarget_busy h v t
    · exact ⟨s.ie, s.done, s.overrun, some .writeOk, s.draws, by rw [hkeep]; rfl⟩
    · exact ⟨v.getLsbD 0, s.done, s.overrun, some .writeOk, s.draws, by rw [hctrl]; rfl⟩
    · exact ⟨s.ie, s.done && !v.getLsbD 1, s.overrun && !v.getLsbD 6, some .writeOk, s.draws, by
        rw [hstatus]; rfl⟩
    · exact ⟨s.ie, s.done, true, some .writeOk, s.draws, by rw [hcmd]; rfl⟩
  · exact ⟨s.ie, s.done, s.overrun, resp, draws, hother⟩

/-- A read of STATUS while idle (R30). -/
theorem hostRead_status_idle {s : State} (h : s.seq = .idle) :
    hostRead 0x008 s =
      { s with resp := some (.readOk s.statusIdle), draws := s.draws + 1 } :=
  hostRead_of_readTarget (by decide) (by decide) (readTarget_idle h (.reg .status))

/-- A WAIT that finds the block idle is a read of STATUS (30_encoding.md R113). -/
theorem serveIdle_wait {s : State} {rest : List HostEvent} (h : s.inbox = .wait :: rest) :
    serveIdle s = hostRead 0x008 { s with inbox := rest } := by
  rw [serveIdle, h]
  exact (hostAccess_offset { s with inbox := rest } (off := 0x008) (by decide) (by decide) .read).symm

/-- Settles O5: the cases of `step`; a WAIT reads STATUS while idle, where bit 0 is 0. -/
theorem stepRunsTheLatchedCommand : Obligations.StepRunsTheLatchedCommand := by
  refine ⟨fun s w hold i hbusy hdecode hfree => ?run, fun s w left a rest => step_busy_access,
    fun s nbits w => step_busy_ready rfl, fun s a rest hidle hinbox => ?access,
    fun s rest hidle hinbox => ?wait, fun s hidle hinbox => ?alone⟩
  case run => rw [step_busy_released hbusy hfree, runCommand_instr hdecode]
  case access => rw [step_idle hidle, serveIdle, hinbox]
  case wait =>
    have hread := hostRead_status_idle (s := { s with inbox := rest }) hidle
    have hbusyBit := (statusOf_fields false s.done s.empty s.treeValid s.tableValid s.overrun
      s.errCode).1
    refine ⟨State.statusIdle { s with inbox := rest }, ?_, hread, hbusyBit⟩
    rw [step_idle hidle, serveIdle_wait hinbox, hread]
  case alone => rw [step_idle hidle, serveIdle, hinbox]

/-- Settles O9: what a host write while busy reaches, or the response alone. -/
theorem busyAccessKeepsTheCommandsState : Obligations.BusyAccessKeepsTheCommandsState :=
  fun _ a _ _ hbusy => hostAccess_busy hbusy a

/-- Settles O10: the pseudocode of NOP is `finish`. -/
theorem nopOnlyCompletes : Obligations.NopOnlyCompletes :=
  fun _ => exec_of_finished (i := .nop) rfl

/-- Settles O11: CLEAR writes every field that it and a reset both reach. -/
theorem clearLeavesTheResetState : Obligations.ClearLeavesTheResetState :=
  fun _ => exec_of_finished (i := .clear) rfl

end Sys2Proof.Machine

/-!
PROOFS. ENCODE (43_encoder.md R182, R183, R188): the loop ends with the whole stream written, or at the
first symbol with no code word; and how the byte of a buffer follows from its stream bits.
-/

namespace Sys2Proof.Machine

/-- Where every symbol has a code word and the stream fits, the loop writes the whole stream (R182). -/
theorem encodeLoop_whole {code : Vector CodeEntry 256} {room : Nat} {m : Memory} {input : List Sym}
    (hm : m.wf = true) (hcoded : allCoded code input = true)
    (hfit : (streamOf code input).length ≤ room) :
    ∃ w, encodeLoop code room 0 input (openWriter m) = (w, none) ∧
      w.Holds m (streamOf code input) := by
  have hends := encodeLoop_ends code room m [] 0 input _ (openWriter_holds hm) (Nat.zero_le room)
  cases hends with
  | whole w hr _ _ hw => exact ⟨w, hr, hw⟩
  | unknown _ done a rest _ hsplit _ hbad _ _ =>
    have hvalid := valid_of_allCoded hcoded (a := a) (by simp [hsplit])
    rw [hbad] at hvalid
    cases hvalid
  | full _ done a rest _ hsplit _ _ hover _ =>
    have := length_streamOf_le_of_prefix code (u := done ++ [a]) (v := input) ⟨rest, by simp [hsplit]⟩
    rw [List.length_nil] at hover
    omega

/-- Where the symbols before it have code words that fit and a symbol has none, the loop stops there
(R183). -/
theorem encodeLoop_unknown {code : Vector CodeEntry 256} {room : Nat} {m : Memory}
    {before rest : List Sym} {a : Sym} (hm : m.wf = true) (hcoded : allCoded code before = true)
    (hbad : (entryOf code a).valid = false) (hfit : (streamOf code before).length ≤ room) :
    ∃ w, encodeLoop code room 0 (before ++ a :: rest) (openWriter m) =
        (w, some (.lookupFail, before.length)) ∧ w.Holds m (streamOf code before) := by
  have hends := encodeLoop_ends code room m [] 0 (before ++ a :: rest) _ (openWriter_holds hm)
    (Nat.zero_le room)
  have notCoded {input : List Sym} (h : allCoded code input = true) : a ∉ input := fun ha => by
    simp [valid_of_allCoded h ha] at hbad
  cases hends with
  | whole _ _ hall _ _ => exact absurd (by simp) (notCoded hall)
  | unknown w done b _ hr hsplit hcodedDone hbadDone _ hw =>
    rcases split_before_or_eq_or_after rfl hsplit with hlt | heq | hgt
    · exact absurd (hlt.subset List.mem_concat_self) (notCoded hcodedDone)
    · obtain ⟨rfl, rfl⟩ := List.append_singleton_inj.1 heq
      rw [Nat.zero_add] at hr
      exact ⟨w, hr, hw⟩
    · have hvalid := valid_of_allCoded hcoded (hgt.subset List.mem_concat_self)
      rw [hbadDone] at hvalid
      cases hvalid
  | full _ done b _ _ hsplit hcodedDone _ hover _ =>
    rcases split_before_or_eq_or_after rfl hsplit with hlt | heq | hgt
    · exact absurd (List.mem_append_left _ (hlt.subset List.mem_concat_self)) (notCoded hcodedDone)
    · exact absurd (heq ▸ List.mem_concat_self) (notCoded hcodedDone)
    · have := length_streamOf_le_of_prefix code hgt
      rw [List.length_nil] at hover
      omega

/-- `s` with a stream of `n` bits in the buffer `m` (R182). -/
def storeBits (m : Memory) (n : Nat) (s : State) : State :=
  { s with
    bits := m
    encBits := BitVec.ofNat 32 n
    encBytes := BitVec.ofNat 32 ((n + 7) / 8)
    decBits := BitVec.ofNat 32 n }

/-- ENCODE with its checks passed and the loop at the end of the input: the bits written are in BITS,
with their counts (R182). -/
theorem encodeStream_finished {s : State} {w : Writer} {l : List Bool}
    (hloop : encodeLoop s.code (8 * s.params.bitBufBytes) 0 s.inputSymbols (openWriter s.bits) =
      (w, none)) (hw : w.Holds s.bits l) :
    encodeStream s = .finished (storeBits w.close.bits l.length s) := by
  rw [encodeStream, hloop, storeBits, ← hw.storeStream_close s]

/-- The same where the loop stopped at input position `i` (R183 to R185). -/
theorem encodeStream_raised {s : State} {w : Writer} {l : List Bool} {e : ErrCode} {i : Nat}
    (hloop : encodeLoop s.code (8 * s.params.bitBufBytes) 0 s.inputSymbols (openWriter s.bits) =
      (w, some (e, i))) (hw : w.Holds s.bits l) :
    encodeStream s = .raised e (BitVec.ofNat 32 i) (storeBits w.close.bits l.length s) := by
  rw [encodeStream, hloop, storeBits, ← hw.storeStream_close s]

/-- Settles O30: the loop writes the whole stream, and closing the writer pads it. -/
theorem encodeWritesTheStream : Obligations.EncodeWritesTheStream := by
  intro s hwf hpos hfits htable hcoded hfit
  have hne : s.inLen ≠ 0 := ne_of_apply_ne BitVec.toNat hpos.ne'
  obtain ⟨w, hloop, hw⟩ := encodeLoop_whole hwf hcoded hfit
  obtain ⟨-, -, -, hbits, hrest⟩ := hw.close
  have hexec := exec_of_finished (i := .encode)
    ((encodeBody_of_checks hne hfits htable).trans (encodeStream_finished hloop hw))
  exact ⟨_, hexec, rfl, hbits, hrest⟩

/-- Settles O31: the loop stops at the symbol, and closing the writer pads the stream so far. -/
theorem encodeStopsAtUnknownSymbol : Obligations.EncodeStopsAtUnknownSymbol := by
  intro s before rest a hwf hfits htable hinput hcoded hbad hfit
  have hne := inLen_ne_zero_of_mem (s := s) (a := a) (by simp [hinput])
  obtain ⟨w, hloop, hw⟩ := encodeLoop_unknown (rest := rest) hwf hcoded hbad hfit
  obtain ⟨-, -, -, hbits, hrest⟩ := hw.close
  rw [← hinput] at hloop
  have hexec := exec_of_raised (i := .encode)
    ((encodeBody_of_checks hne hfits htable).trans (encodeStream_raised hloop hw))
  exact ⟨_, hexec, rfl, hbits, hrest⟩

/-- The eight stream bits of a byte make the byte (20_memory.md R71). -/
theorem read_eq_of_streamBit {m m' : Memory} {a : Nat}
    (h : ∀ k, k / 8 = a → streamBit m k = streamBit m' k) : m.read a = m'.read a := by
  apply BitVec.eq_of_getLsbD_eq
  intro j hj
  have hbit := h (8 * a + (7 - j)) (by omega)
  have hbyte : (8 * a + (7 - j)) / 8 = a := by omega
  have hplace : 7 - (8 * a + (7 - j)) % 8 = j := by omega
  simpa only [streamBit, hbyte, hplace] using hbit

/-- The stream bits of the loop and the way it ends do not depend on what BITS held before. -/
theorem exists_encodeLoop (code : Vector CodeEntry 256) (room i : Nat) (input : List Sym)
    {l : List Bool} (hroom : l.length ≤ room) :
    ∃ (l' : List Bool) (e : Option (ErrCode × Nat)), l'.length ≤ room ∧
      ∀ (m : Memory) (w : Writer), w.Holds m l →
        ∃ w', encodeLoop code room i input w = (w', e) ∧ w'.Holds m l' := by
  induction input generalizing i l with
  | nil => exact ⟨l, none, hroom, fun _ w hw => ⟨w, rfl, hw⟩⟩
  | cons a input ih =>
    by_cases hvalid : (entryOf code a).valid = true
    · by_cases hfit : l.length + (entryOf code a).word.length ≤ room
      · obtain ⟨l', e, hroom', hloop⟩ :=
          ih (i + 1) (l := l ++ (entryOf code a).word) (by rwa [List.length_append])
        refine ⟨l', e, hroom', fun m w hw => ?_⟩
        have hword := hw.writeWord hroom (entryOf code a).word
        rw [if_pos hfit] at hword
        obtain ⟨w', hwritten, hw'⟩ := hword
        obtain ⟨w'', hrest, hw''⟩ := hloop m w' hw'
        exact ⟨w'', by simp only [encodeLoop, hvalid, if_true, hwritten, hrest], hw''⟩
      · refine ⟨(l ++ (entryOf code a).word).take room, some (.overflow, i),
          List.length_take_le _ _, fun m w hw => ?_⟩
        have hword := hw.writeWord hroom (entryOf code a).word
        rw [if_neg hfit] at hword
        obtain ⟨w', hwritten, hw'⟩ := hword
        exact ⟨w', by simp only [encodeLoop, hvalid, if_true, hwritten], hw'⟩
    · exact ⟨l, some (.lookupFail, i), hroom, fun m w hw => ⟨w, by rw [encodeLoop, if_neg hvalid], hw⟩⟩

end Sys2Proof.Machine

/-!
PROOFS. All the ways ENCODE can end (43_encoder.md R182 to R186).
-/

namespace Sys2Proof.Machine

/-- The loop of ENCODE stops with LOOKUP_FAIL or OVERFLOW alone (R183, R184). -/
theorem error_of_encodeLoop {code : Vector CodeEntry 256} {room i j : Nat} {input : List Sym}
    {w w' : Writer} {e : ErrCode} (h : encodeLoop code room i input w = (w', some (e, j))) :
    e = .lookupFail ∨ e = .overflow := by
  induction input generalizing i w with
  | nil => simp [encodeLoop] at h
  | cons a input ih =>
    simp only [encodeLoop] at h
    split at h
    · split at h
      · simp only [Prod.mk.injEq, Option.some.injEq] at h
        exact .inr h.2.1.symm
      · exact ih h
    · simp only [Prod.mk.injEq, Option.some.injEq] at h
      exact .inl h.2.1.symm

/-- The writer, over a canonical BITS, holds no more bits than fit. -/
def Writer.FitsIn (w : Writer) (s : State) : Prop :=
  s.bits.wf = true → ∃ l : List Bool, l.length ≤ 8 * s.params.bitBufBytes ∧ w.Holds s.bits l

/-- How ENCODE can end: at one of its checks (R252), without input (R186), or with the writer closed
after the whole stream or where the loop stopped (R183 to R185). -/
inductive EncodeOutcome (s : State) : Ended → Prop
  | range : EncodeOutcome s (.raised .range 0 s)
  | empty (h : s.inLen = 0) :
      EncodeOutcome s (.finished { s with encBits := 0, encBytes := 0, decBits := 0 })
  | noTable (h : s.tableValid = false) : EncodeOutcome s (.raised .noTable 0 s)
  | whole (w : Writer) (hw : w.FitsIn s) : EncodeOutcome s (.finished (storeStream w.close s))
  | stopped (w : Writer) (hw : w.FitsIn s) (e : ErrCode) (info : Word)
      (he : e = .lookupFail ∨ e = .overflow) :
      EncodeOutcome s (.raised e info (storeStream w.close s))

theorem encodeStream_outcome (s : State) : EncodeOutcome s (encodeStream s) := by
  obtain ⟨l, e, hroom, hloop⟩ := exists_encodeLoop s.code (8 * s.params.bitBufBytes) 0 s.inputSymbols
    (l := []) (Nat.zero_le _)
  have hfits {w : Writer} {e' : Option (ErrCode × Nat)}
      (h : encodeLoop s.code (8 * s.params.bitBufBytes) 0 s.inputSymbols (openWriter s.bits) = (w, e')) :
      w.FitsIn s := fun hwf => by
    obtain ⟨w', hw', hholds⟩ := hloop s.bits _ (openWriter_holds hwf)
    obtain ⟨rfl, -⟩ := Prod.mk.inj (h.symm.trans hw')
    exact ⟨l, hroom, hholds⟩
  rcases h : encodeLoop s.code (8 * s.params.bitBufBytes) 0 s.inputSymbols (openWriter s.bits) with
    ⟨w, _ | ⟨e', i⟩⟩
  · rw [encodeStream, h]
    exact .whole w (hfits h)
  · rw [encodeStream, h]
    exact .stopped w (hfits h) e' (BitVec.ofNat 32 i) (error_of_encodeLoop h)

theorem encodeBody_outcome (s : State) : EncodeOutcome s (encodeBody s) := by
  by_cases hfits : s.inLen.toNat ≤ s.params.maxSyms
  · by_cases hzero : s.inLen = 0
    · rw [encodeBody_of_inLen_zero hzero]
      exact .empty hzero
    · cases htable : s.tableValid with
      | true =>
        rw [encodeBody_of_checks hzero hfits htable]
        exact encodeStream_outcome s
      | false =>
        rw [encodeBody_of_not_tableValid hzero hfits htable]
        exact .noTable htable
  · rw [encodeBody_of_not_inputFits (State.inputFits_eq_false (Nat.lt_of_not_le hfits))]
    exact .range

end Sys2Proof.Machine

/-!
PROOFS. What DECODE writes (44_decoder.md R201 to R204): the loop's output does not depend on what SYM_OUT
held, so DECODE changes SYM_OUT below OUT_LEN alone.
-/

namespace Sys2Proof.Machine

/-- The buffer after the bytes `out` are written one after the other from byte `n` on. -/
def Memory.writeFrom : Memory → Nat → List Byte → Memory
  | m, _, [] => m
  | m, n, a :: out => Memory.writeFrom (m.write n a) (n + 1) out

theorem Memory.wf_writeFrom {m : Memory} (h : m.wf = true) (n : Nat) (out : List Byte) :
    (m.writeFrom n out).wf = true := by
  induction out generalizing m n with
  | nil => exact h
  | cons a out ih => exact ih (Memory.wf_write h n a) (n + 1)

/-- The bytes from `n` on are the ones written, and every other byte is as before. -/
theorem Memory.read_writeFrom {m : Memory} (h : m.wf = true) (n : Nat) (out : List Byte) (i : Nat) :
    (m.writeFrom n out).read i =
      if n ≤ i ∧ i < n + out.length then out.getD (i - n) 0 else m.read i := by
  induction out generalizing m n with
  | nil => rw [if_neg (by simp)]; rfl
  | cons a out ih =>
    rw [Memory.writeFrom, ih (Memory.wf_write h n a), Memory.read_write h, List.length_cons]
    obtain hlt | rfl | hgt := Nat.lt_trichotomy i n
    · rw [if_neg (by omega), if_neg (by omega), if_neg (by omega)]
    · rw [if_neg (by omega), if_pos rfl, if_pos (by omega), Nat.sub_self, List.getD_cons_zero]
    · rw [if_neg hgt.ne', show i - n = i - (n + 1) + 1 by omega, List.getD_cons_succ]
      exact if_congr (by omega) rfl rfl

/-- Writing the same bytes again changes nothing. -/
theorem Memory.writeFrom_writeFrom {m : Memory} (h : m.wf = true) (n : Nat) (out : List Byte) :
    (m.writeFrom n out).writeFrom n out = m.writeFrom n out := by
  have hwf := Memory.wf_writeFrom h n out
  refine Memory.ext_of_read (Memory.wf_writeFrom hwf n out) hwf fun i => ?_
  rw [Memory.read_writeFrom hwf]
  split
  next hi => rw [Memory.read_writeFrom h, if_pos hi]
  next => rfl

/-- The output of the loop and where it ends do not depend on what SYM_OUT held before; the output fits
SYM_OUT (R201, R204). -/
theorem exists_decodeLoop (tree : Vector Node 511) (root : NodeIdx) {cap : Nat} (stream : List Bool)
    (cur : NodeIdx) (rk start : Nat) {n : Nat} (hn : n ≤ cap) :
    ∃ (out : List Sym) (cur' : NodeIdx) (rk' start' : Nat) (full : Bool), n + out.length ≤ cap ∧
      ∀ m : Memory,
        decodeLoop tree root cap stream
            { cur := cur, rk := rk, start := start, n := n, symOut := m } =
          ({ cur := cur', rk := rk', start := start', n := n + out.length,
             symOut := m.writeFrom n out }, full) := by
  induction stream generalizing cur rk start n with
  | nil => exact ⟨[], cur, rk, start, false, hn, fun _ => rfl⟩
  | cons b stream ih =>
    cases hwalk : walk tree cur b with
    | descend nx =>
      obtain ⟨out, cur', rk', start', full, hle, hloop⟩ := ih nx (rk + 1) start hn
      exact ⟨out, cur', rk', start', full, hle, fun m => by rw [decodeLoop_descend hwalk, hloop]⟩
    | emit a =>
      by_cases hfull : n = cap
      · exact ⟨[], cur, rk + 1, start, true, hn, fun m => by
          rw [decodeLoop_emit hwalk, if_pos hfull]; rfl⟩
      · obtain ⟨out, cur', rk', start', full, hle, hloop⟩ :=
          ih root (rk + 1) (rk + 1) (n := n + 1) (by omega)
        refine ⟨a :: out, cur', rk', start', full, ?_, fun m => ?_⟩
        · rw [List.length_cons]; omega
        · rw [decodeLoop_emit hwalk, if_neg hfull, hloop, List.length_cons, Nat.add_assoc,
            Nat.add_comm 1, Memory.writeFrom]

/-- DECODE with the symbols `out` written to SYM_OUT (R201). -/
def emitted (out : List Sym) (s : State) : State :=
  { s with symOut := s.symOut.writeFrom 0 out, outLen := BitVec.ofNat 32 out.length }

/-- How DECODE ends once its checks are passed: without error, or stopped with a code (R203, R204). -/
def concludeDecode (out : List Sym) (stop : Option (ErrCode × Word)) (s : State) : Ended :=
  match stop with
  | none => .finished (emitted out s)
  | some (e, info) => .raised e info (emitted out s)

/-- The states with the stream and the tree of `s`: DECODE reads the same in them. -/
structure State.SameStream (s t : State) : Prop where
  params : t.params = s.params
  tree : t.tree = s.tree
  root : t.root = s.root
  bits : t.bits = s.bits
  decBits : t.decBits = s.decBits
  treeValid : t.treeValid = s.treeValid

theorem State.SameStream.refl (s : State) : s.SameStream s := by constructor <;> rfl

/-- DECODE writes the same symbols and ends in the same way wherever it reads the same. -/
theorem exists_decodeStream (s : State) :
    ∃ (out : List Sym) (stop : Option (ErrCode × Word)), out.length ≤ s.params.outCap ∧
      (∀ e info, stop = some (e, info) → e = .overflow ∨ e = .truncated) ∧
      ∀ t, s.SameStream t → decodeStream t = concludeDecode out stop t := by
  obtain ⟨out, cur, rk, start, full, hfit, hloop⟩ := exists_decodeLoop s.tree s.root s.streamBits
    s.root 0 0 (Nat.zero_le s.params.outCap)
  rw [Nat.zero_add] at hfit
  have hstream (t : State) (ht : s.SameStream t) :
      decodeLoop t.tree t.root t.params.outCap t.streamBits (openCursor t.root t.symOut) =
        ({ cur := cur, rk := rk, start := start, n := out.length,
           symOut := t.symOut.writeFrom 0 out }, full) := by
    rw [State.streamBits, ht.params, ht.tree, ht.root, ht.bits, ht.decBits, ← State.streamBits,
      openCursor, hloop, Nat.zero_add]
  cases full with
  | true =>
    refine ⟨out, some (.overflow, BitVec.ofNat 32 (rk - 1)), hfit, ?_, fun t ht => ?_⟩
    · simp only [Option.some.injEq, Prod.mk.injEq]
      exact fun e _ he => .inl he.1.symm
    · rw [decodeStream, hstream t ht]
      rfl
  | false =>
    by_cases hcur : cur = s.root
    · refine ⟨out, none, hfit, nofun, fun t ht => ?_⟩
      rw [decodeStream, hstream t ht]
      exact if_pos (hcur.trans ht.root.symm)
    · refine ⟨out, some (.truncated, BitVec.ofNat 32 start), hfit, ?_, fun t ht => ?_⟩
      · simp only [Option.some.injEq, Prod.mk.injEq]
        exact fun e _ he => .inr he.1.symm
      · rw [decodeStream, hstream t ht]
        exact if_neg fun h => hcur (h.trans ht.root)

/-- How DECODE can end: at one of its checks (R252), without a stream (R205), or with symbols written. -/
inductive DecodeOutcome (s : State) : Ended → Prop
  | range : DecodeOutcome s (.raised .range 0 s)
  | empty (h : s.decBits = 0) : DecodeOutcome s (.finished { s with outLen := 0 })
  | noTree (h : s.treeValid = false) : DecodeOutcome s (.raised .noTree 0 s)
  | whole (out : List Sym) (hfit : out.length ≤ s.params.outCap) :
      DecodeOutcome s (.finished (emitted out s))
  | stopped (out : List Sym) (hfit : out.length ≤ s.params.outCap) (e : ErrCode) (info : Word)
      (he : e = .overflow ∨ e = .truncated) : DecodeOutcome s (.raised e info (emitted out s))

theorem decodeBody_outcome (s : State) : DecodeOutcome s (decodeBody s) := by
  by_cases hfits : s.decBits.toNat ≤ 8 * s.params.bitBufBytes
  · by_cases hzero : s.decBits = 0
    · rw [decodeBody_of_decBits_zero hzero]
      exact .empty hzero
    · rw [decodeBody_of_stream hzero hfits]
      cases htree : s.treeValid with
      | true =>
        obtain ⟨out, stop, hfit, hstop, hstream⟩ := exists_decodeStream s
        rw [if_pos rfl, hstream s (.refl s)]
        rcases stop with _ | ⟨e, info⟩
        · exact .whole out hfit
        · exact .stopped out hfit e info (hstop e info rfl)
      | false => exact .noTree htree
  · rw [decodeBody_of_not_streamFits (State.streamFits_eq_false (Nat.lt_of_not_le hfits))]
    exact .range

/-- Legal parameters bound every capacity (R8). -/
theorem Params.le_of_legal {p : Params} (h : p.legal = true) :
    p.maxSyms ≤ 2 ^ 20 ∧ p.bitBufBytes ≤ 2 ^ 20 ∧ p.outCap ≤ 2 ^ 20 := by
  simp only [Params.legal, Bool.and_eq_true, decide_eq_true_eq] at h
  tauto

/-- A number of symbols that fits SYM_OUT is the value of OUT_LEN (R8, R38). -/
theorem toNat_outLen {s : State} {n : Nat} (hlegal : s.params.legal = true) (h : n ≤ s.params.outCap) :
    (BitVec.ofNat 32 n).toNat = n := by
  obtain ⟨-, -, hcap⟩ := Params.le_of_legal hlegal
  rw [BitVec.toNat_ofNat]
  omega

/-- The bytes written are below the number of symbols. -/
theorem read_emitted_of_le {s : State} (hwf : s.symOut.wf = true) {out : List Sym} {i : Nat}
    (h : out.length ≤ i) : (emitted out s).symOut.read i = s.symOut.read i := by
  rw [emitted, Memory.read_writeFrom hwf, if_neg (by omega)]

/-- Settles O37: the output of the loop is no longer than OUT_CAP, and its length is OUT_LEN. -/
theorem decodeChangesOnlyItsResults : Obligations.DecodeChangesOnlyItsResults := by
  intro s hlegal hwf
  refine ⟨_, exec_eq .decode s, ?_⟩
  have hout {out : List Sym} (hfit : out.length ≤ s.params.outCap) :
      (BitVec.ofNat 32 out.length).toNat ≤ s.params.outCap ∧
        ∀ i, (BitVec.ofNat 32 out.length).toNat ≤ i →
          (emitted out s).symOut.read i = s.symOut.read i := by
    rw [toNat_outLen hlegal hfit]
    exact ⟨hfit, fun i hi => read_emitted_of_le hwf hi⟩
  have hends := decodeBody_outcome s
  rw [bodyOf]
  generalize decodeBody s = r at hends
  cases hends with
  | range => exact ⟨rfl, fun _ _ => rfl, (if_pos (.inl rfl)).mpr ⟨rfl, rfl⟩⟩
  | empty =>
    exact ⟨rfl, fun _ _ => rfl, (if_neg (by simp)).mpr ⟨Nat.zero_le _, fun _ _ => rfl⟩⟩
  | noTree => exact ⟨rfl, fun _ _ => rfl, (if_pos (.inr rfl)).mpr ⟨rfl, rfl⟩⟩
  | whole out hfit =>
    exact ⟨rfl, fun i hi => read_emitted_of_le hwf (hfit.trans hi),
      (if_neg (by simp)).mpr (hout hfit)⟩
  | stopped out hfit e info he =>
    have hne : ¬ (e = .range ∨ e = .noTree) := by obtain rfl | rfl := he <;> decide
    exact ⟨rfl, fun i hi => read_emitted_of_le hwf (hfit.trans hi), (if_neg hne).mpr (hout hfit)⟩

end Sys2Proof.Machine

/-!
PROOFS. The stream DECODE reads (30_encoding.md R110, R111; 44_decoder.md R201 to R203): every bit string
splits in one way into words and a cut, and DECODE writes the symbols of the words.
-/

namespace Sys2Proof.Machine

section
variable {tree : Vector Node 511}

/-- A path to a leaf does not stay inside, nor does anything that begins with one. -/
theorem not_staysInside_of_leadsToLeaf {i : NodeIdx} {c : List Bool} {a : Sym}
    (h : leadsToLeaf tree i c a = true) (rest : List Bool) :
    ¬ staysInside tree i (c ++ rest) = true := by
  induction c generalizing i with
  | nil =>
    obtain ⟨hleaf, -⟩ := leadsToLeaf_nil.1 h
    cases rest <;> simp [staysInside, hleaf]
  | cons b c ih =>
    rw [List.cons_append, staysInside_cons]
    exact fun hinside => ih (leadsToLeaf_cons.1 h).2 hinside.2

/-- What the decoder reads as a word does not stay inside, nor does anything that begins with it. -/
theorem not_staysInside_of_readsAs {root : NodeIdx} {word : List Bool} {a : Sym}
    (h : readsAs tree root word a = true) (rest : List Bool) :
    ¬ staysInside tree root (word ++ rest) = true := by
  cases hleaf : (nodeAt tree root).leaf with
  | true =>
    obtain ⟨b, c, rfl⟩ := List.exists_cons_of_ne_nil (ne_nil_of_readsAs h)
    simp [staysInside, hleaf]
  | false =>
    rw [readsAs, hleaf, if_neg Bool.false_ne_true] at h
    exact not_staysInside_of_leadsToLeaf h rest

/-- From an internal node a bit string reaches a leaf or stays inside. -/
theorem staysInside_or_leadsToLeaf {i : NodeIdx} (h : (nodeAt tree i).leaf = false)
    (stream : List Bool) :
    staysInside tree i stream = true ∨
      ∃ (c rest : List Bool) (a : Sym), stream = c ++ rest ∧ leadsToLeaf tree i c a = true := by
  induction stream generalizing i with
  | nil => exact .inl (by rw [staysInside, h]; rfl)
  | cons b stream ih =>
    cases hchild : (nodeAt tree (childOf tree i b)).leaf with
    | true =>
      exact .inr ⟨[b], stream, _, rfl, leadsToLeaf_cons.2 ⟨h, leadsToLeaf_nil.2 ⟨hchild, rfl⟩⟩⟩
    | false =>
      obtain hinside | ⟨c, rest, a, rfl, hpath⟩ := ih hchild
      · exact .inl (staysInside_cons.2 ⟨h, hinside⟩)
      · exact .inr ⟨b :: c, rest, a, rfl, leadsToLeaf_cons.2 ⟨h, hpath⟩⟩

/-- A nonempty bit string begins with a word that the decoder reads, or finishes none. -/
theorem staysInside_or_readsAs (root : NodeIdx) {stream : List Bool} (hne : stream ≠ []) :
    staysInside tree root stream = true ∨
      ∃ (word rest : List Bool) (a : Sym), stream = word ++ rest ∧ readsAs tree root word a = true := by
  cases hleaf : (nodeAt tree root).leaf with
  | true =>
    obtain ⟨b, rest, rfl⟩ := List.exists_cons_of_ne_nil hne
    exact .inr ⟨[b], rest, (nodeAt tree root).sym, rfl, by simp [readsAs, hleaf]⟩
  | false =>
    refine (staysInside_or_leadsToLeaf hleaf stream).imp_right ?_
    rintro ⟨c, rest, a, hstream, hpath⟩
    exact ⟨c, rest, a, hstream, by simpa [readsAs, hleaf] using hpath⟩

/-- `stream` is the words of `symbols` and then a cut that finishes no word (R110). -/
structure Splits (tree : Vector Node 511) (root : NodeIdx) (stream : List Bool)
    (words : List (List Bool)) (symbols : List Sym) (cut : List Bool) : Prop where
  eq : stream = words.flatten ++ cut
  read : readAs tree root words symbols = true
  unfinished : cut = [] ∨ staysInside tree root cut = true

theorem readAs_cons {root : NodeIdx} {word : List Bool} {words : List (List Bool)} {a : Sym}
    {symbols : List Sym} :
    readAs tree root (word :: words) (a :: symbols) = true ↔
      readsAs tree root word a = true ∧ readAs tree root words symbols = true := by
  rw [readAs_iff_forall₂, readAs_iff_forall₂, List.forall₂_cons]

/-- Every bit string splits: one word after the other is taken off. -/
theorem exists_splits (tree : Vector Node 511) (root : NodeIdx) (stream : List Bool) :
    ∃ words symbols cut, Splits tree root stream words symbols cut := by
  induction hlength : stream.length using Nat.strong_induction_on generalizing stream with
  | _ n ih =>
    by_cases hne : stream = []
    · exact ⟨[], [], [], hne, rfl, .inl rfl⟩
    · obtain hinside | ⟨word, rest, a, rfl, hword⟩ := staysInside_or_readsAs (tree := tree) root hne
      · exact ⟨[], [], stream, rfl, rfl, .inr hinside⟩
      · have hpos := List.length_pos_of_ne_nil (ne_nil_of_readsAs hword)
        rw [List.length_append] at hlength
        obtain ⟨words, symbols, cut, hsplit⟩ := ih rest.length (by omega) rest rfl
        exact ⟨word :: words, a :: symbols, cut,
          by rw [hsplit.eq, List.flatten_cons, List.append_assoc],
          readAs_cons.2 ⟨hword, hsplit.read⟩, hsplit.unfinished⟩

/-- A cut does not begin with a word. -/
theorem not_readsAs_of_cut {root : NodeIdx} {cut word rest : List Bool} {a : Sym}
    (hcut : cut = [] ∨ staysInside tree root cut = true) (h : cut = word ++ rest) :
    ¬ readsAs tree root word a = true := by
  intro hword
  obtain rfl | hinside := hcut
  · exact ne_nil_of_readsAs hword (List.append_eq_nil_iff.1 h.symm).1
  · exact not_staysInside_of_readsAs hword rest (h ▸ hinside)

/-- A bit string splits in one way: the first words are the same, and so on. -/
theorem Splits.unique {root : NodeIdx} {stream : List Bool} {words words' : List (List Bool)}
    {symbols symbols' : List Sym} {cut cut' : List Bool}
    (h : Splits tree root stream words symbols cut)
    (h' : Splits tree root stream words' symbols' cut') :
    words' = words ∧ symbols' = symbols ∧ cut' = cut := by
  obtain ⟨heq, hread, hcut⟩ := h
  obtain ⟨heq', hread', hcut'⟩ := h'
  rw [readAs_iff_forall₂] at hread hread'
  induction hread generalizing stream words' symbols' with
  | nil =>
    cases hread' with
    | nil => exact ⟨rfl, rfl, heq'.symm.trans heq⟩
    | cons hword' _ =>
      rw [List.flatten_cons, List.append_assoc] at heq'
      exact absurd hword' (not_readsAs_of_cut hcut (heq.symm.trans heq'))
  | @cons word a words symbols hword _ ih =>
    cases hread' with
    | nil =>
      rw [List.flatten_cons, List.append_assoc] at heq
      exact absurd hword (not_readsAs_of_cut hcut' (heq'.symm.trans heq))
    | @cons word' a' words' symbols' hword' hread' =>
      rw [List.flatten_cons, List.append_assoc] at heq heq'
      obtain ⟨rfl, rfl⟩ := eq_of_readsAs_append hword hword' (heq.symm.trans heq')
      obtain ⟨rfl, rfl, rfl⟩ := ih rfl (List.append_cancel_left (heq.symm.trans heq')) hread'
      exact ⟨rfl, rfl, rfl⟩

end

/-- Settles O38: words are taken off one by one, and no bit string begins with two. -/
theorem everyStreamSplitsInOneWay : Obligations.EveryStreamSplitsInOneWay := by
  intro s _ _ stream
  obtain ⟨words, symbols, cut, hsplit⟩ := exists_splits s.tree s.root stream
  exact ⟨words, symbols, cut, ⟨hsplit.eq, hsplit.read, hsplit.unfinished⟩,
    fun _ _ _ heq hread hcut => hsplit.unique ⟨heq, hread, hcut⟩⟩

/-- A walk that stays inside a tree BUILD made goes down with every bit (R148). -/
theorem toNat_foldl_childOf_le {freq : Vector Word 256} (hpos : 1 ≤ distinctSymbols freq)
    {i : NodeIdx} (hroot : i.toNat ≤ (rootIndex freq).toNat) {c : List Bool}
    (h : staysInside (buildTree freq).tree i c = true) :
    (c.foldl (childOf (buildTree freq).tree) i).toNat + c.length ≤ i.toNat := by
  induction c generalizing i with
  | nil => exact le_rfl
  | cons b c ih =>
    obtain ⟨hinternal, hrest⟩ := staysInside_cons.1 h
    have hlt := childOf_lt hpos hroot hinternal b
    have := ih (hlt.le.trans hroot) hrest
    rw [List.foldl_cons, List.length_cons]
    omega

/-- After a cut word the cursor is not back at the root (R203). -/
theorem foldl_childOf_ne_root {freq : Vector Word 256} (hpos : 1 ≤ distinctSymbols freq)
    {cut : List Bool} (hne : cut ≠ [])
    (h : staysInside (buildTree freq).tree (rootIndex freq) cut = true) :
    cut.foldl (childOf (buildTree freq).tree) (rootIndex freq) ≠ rootIndex freq := by
  intro heq
  have hle := toNat_foldl_childOf_le hpos le_rfl h
  have hlength := List.length_pos_of_ne_nil hne
  rw [heq] at hle
  omega

/-- A stream of words that fit SYM_OUT, with nothing cut off: the loop ends at the root (R201). -/
theorem decodeStream_words {s : State} {words : List (List Bool)} {symbols : List Sym}
    (hwf : s.symOut.wf = true) (hstream : s.streamBits = words.flatten)
    (hread : readAs s.tree s.root words symbols = true) (hfit : symbols.length ≤ s.params.outCap) :
    ∃ c : Cursor, c.Holds s.root s.symOut words.flatten.length symbols ∧
      decodeStream s = .finished (storeOutput c s) := by
  obtain ⟨c, hc, hloop⟩ := decodeLoop_words hread [] (openCursor_holds s.root hwf)
    (cap := s.params.outCap) (by rw [List.length_nil]; omega)
  rw [List.nil_append, Nat.zero_add] at hc
  rw [List.append_nil, ← hstream] at hloop
  refine ⟨c, hc, ?_⟩
  rw [decodeStream, hloop]
  exact if_pos hc.cur

/-- A stream of words that fit SYM_OUT and a cut word: the loop ends away from the root, and START is
where the cut word began (R203). -/
theorem decodeStream_cut {s : State} {words : List (List Bool)} {symbols : List Sym} {cut : List Bool}
    (hconsistent : s.TablesConsistent) (htree : s.treeValid = true) (hwf : s.symOut.wf = true)
    (hstream : s.streamBits = words.flatten ++ cut)
    (hread : readAs s.tree s.root words symbols = true) (hfit : symbols.length ≤ s.params.outCap)
    (hne : cut ≠ []) (hcut : staysInside s.tree s.root cut = true) :
    ∃ c : Cursor, c.Holds s.root s.symOut words.flatten.length symbols ∧
      decodeStream s =
        .raised .truncated (BitVec.ofNat 32 words.flatten.length) (storeOutput c s) := by
  obtain ⟨c, hc, hloop⟩ := decodeLoop_words hread cut (openCursor_holds s.root hwf)
    (cap := s.params.outCap) (by rw [List.length_nil]; omega)
  rw [List.nil_append, Nat.zero_add] at hc
  obtain ⟨i, hinside, hi⟩ := decodeLoop_inside s.tree s.root s.params.outCap cut c (hc.cur ▸ hcut)
  rw [← hstream, hinside] at hloop
  have haway : i ≠ s.root := by
    obtain ⟨htreeEq, hrootEq, hpos⟩ := hconsistent.tree_of_treeValid htree
    rw [hi, hc.cur]
    rw [htreeEq, hrootEq] at hcut ⊢
    exact foldl_childOf_ne_root hpos hne hcut
  refine ⟨c, hc, ?_⟩
  rw [decodeStream, hloop, ← hc.start]
  exact if_neg haway

/-- Settles O34: the loop reads the words, and then the cut word, if there is one. -/
theorem decodeWritesTheSymbols : Obligations.DecodeWritesTheSymbols := by
  intro s words symbols cut hwf hconsistent htree hpos hfits hstream hread hcut hfit
  have hne : s.decBits ≠ 0 := ne_of_apply_ne BitVec.toNat hpos.ne'
  have hbody : decodeBody s = decodeStream s := by rw [decodeBody_of_stream hne hfits, if_pos htree]
  by_cases hnone : cut = []
  · subst hnone
    rw [List.append_nil] at hstream
    obtain ⟨c, hc, hends⟩ := decodeStream_words hwf hstream hread hfit
    refine ⟨_, exec_of_finished (i := .decode) (hbody.trans hends), ?_, hc.written, hc.rest⟩
    rw [storeOutput, hc.n]
    rfl
  · obtain ⟨c, hc, hends⟩ := decodeStream_cut hconsistent htree hwf hstream hread hfit hnone
      (hcut.resolve_left hnone)
    refine ⟨_, exec_of_raised (i := .decode) (hbody.trans hends), ?_, hc.written, hc.rest⟩
    rw [storeOutput, hc.n, if_neg hnone, if_neg hnone]

/-- In a one-leaf tree every bit is a word (R202). -/
theorem readAs_of_leaf {tree : Vector Node 511} {root : NodeIdx} (h : (nodeAt tree root).leaf = true)
    (stream : List Bool) :
    readAs tree root (stream.map fun b => [b])
      (List.replicate stream.length (nodeAt tree root).sym) = true := by
  induction stream with
  | nil => rfl
  | cons b stream ih =>
    rw [List.map_cons, List.length_cons, List.replicate_succ, readAs_cons]
    exact ⟨by simp [readsAs, h], ih⟩

/-- Settles O36: the words of a one-leaf tree are the single bits. -/
theorem oneLeafTreeEmitsASymbolPerBit : Obligations.OneLeafTreeEmitsASymbolPerBit := by
  intro s hwf htree hleaf hfits hcap
  by_cases hzero : s.decBits = 0
  · refine ⟨_, exec_of_finished (i := .decode) (decodeBody_of_decBits_zero hzero), ?_, ?_,
      fun _ _ => rfl⟩
    · rw [hzero]
    · intro i hi
      rw [hzero] at hi
      exact absurd hi (Nat.not_lt_zero i)
  · have hlength : s.streamBits.length = s.decBits.toNat := by simp [State.streamBits]
    have hread := readAs_of_leaf hleaf s.streamBits
    have hstream : s.streamBits = (s.streamBits.map fun b => [b]).flatten := by
      rw [← List.flatMap_def, List.flatMap_singleton']
    have hbody : decodeBody s = decodeStream s := by
      rw [decodeBody_of_stream hzero hfits, if_pos htree]
    rw [hlength] at hread
    obtain ⟨c, hc, hends⟩ := decodeStream_words hwf hstream hread (by rwa [List.length_replicate])
    have hwritten := hc.written
    have hrest := hc.rest
    rw [List.length_replicate] at hwritten hrest
    refine ⟨_, exec_of_finished (i := .decode) (hbody.trans hends), ?_, fun i hi => ?_, hrest⟩
    · rw [storeOutput, hc.n, List.length_replicate, ofNat_eq_of_toNat rfl]
    · exact (hwritten i hi).trans (List.getD_replicate _ hi)

end Sys2Proof.Machine

/-!
PROOFS. COUNT (40_frequency_count.md R130 to R132): the entries are the occurrences in the input, and add
up to its length.
-/

namespace Sys2Proof.Machine

/-- Each entry of the FREQ table of an input is how often its symbol occurs (R131). -/
theorem entryOf_frequencies (input : List Sym) (a : Sym) :
    entryOf (frequencies input) a = BitVec.ofNat 32 (input.count a) := by
  rw [frequencies, entryOf_foldl_countSymbol, entryOf_replicate, zero_add]

@[simp] theorem length_inputSymbols (s : State) : s.inputSymbols.length = s.inLen.toNat := by
  simp [State.inputSymbols]

theorem inputSymbols_getD {s : State} {i : Nat} (h : i < s.inLen.toNat) :
    s.inputSymbols.getD i 0 = s.symIn.read i := by
  have hi : i < s.inputSymbols.length := (length_inputSymbols s).symm ▸ h
  rw [List.getD_eq_getElem _ _ hi]
  simp [State.inputSymbols]

/-- No symbol occurs more often than IN_LEN, so no entry wraps (R132). -/
theorem toNat_entryOf_frequencies (s : State) (a : Sym) :
    (entryOf (frequencies s.inputSymbols) a).toNat = s.inputSymbols.count a := by
  have hle : s.inputSymbols.count a ≤ s.inLen.toNat :=
    List.count_le_length.trans_eq (length_inputSymbols s)
  rw [entryOf_frequencies, BitVec.toNat_ofNat]
  exact Nat.mod_eq_of_lt (hle.trans_lt s.inLen.isLt)

/-- The occurrences of the symbols below `n` are the places that hold one of them. -/
theorem sum_count_below (input : List Sym) {n : Nat} (h : n ≤ 256) :
    ((List.range n).map fun a => input.count (BitVec.ofNat 8 a)).sum =
      input.countP fun a => decide (a.toNat < n) := by
  induction n with
  | zero => simp
  | succ n ih =>
    have hn : (BitVec.ofNat 8 n).toNat = n := Nat.mod_eq_of_lt h
    rw [List.range_succ, List.map_append, List.sum_append, ih (by omega), List.map_singleton,
      List.sum_singleton, List.count]
    clear ih
    induction input with
    | nil => rfl
    | cons b input ih =>
      have hb : b = BitVec.ofNat 8 n ↔ b.toNat = n := by rw [← BitVec.toNat_inj, hn]
      simp only [List.countP_cons, decide_eq_true_eq, beq_iff_eq, hb] at ih ⊢
      split_ifs <;> omega

/-- The 256 entries add up to IN_LEN (R132). -/
theorem freqTotal_frequencies (s : State) :
    freqTotal (frequencies s.inputSymbols) = s.inLen.toNat := by
  have hall : s.inputSymbols.countP (fun a => decide (a.toNat < 256)) = s.inputSymbols.length :=
    List.countP_eq_length.2 fun a _ => decide_eq_true a.isLt
  simp only [freqTotal, toNat_entryOf_frequencies]
  rw [sum_count_below _ le_rfl, hall, length_inputSymbols]

/-- An input in range is counted (R130). -/
theorem countBody_of_fits {s : State} (h : s.inLen.toNat ≤ s.params.maxSyms) :
    countBody s = .finished (clearValidFlags { s with freq := frequencies s.inputSymbols }) := by
  have hfits : s.inputFits = true := decide_eq_true h
  rw [countBody, if_pos hfits]

/-- Settles O12: the loop adds one for each place of the input. -/
theorem countTalliesTheInput : Obligations.CountTalliesTheInput := by
  intro s hfits
  refine ⟨_, exec_of_finished (i := .count) (countBody_of_fits hfits), fun a => ?_, rfl⟩
  rw [clearValidFlags_freq, entryOf_frequencies, State.inputSymbols, List.count, List.countP_map,
    List.countP_eq_length_filter]
  rfl

/-- Settles O13: the entries are the occurrences, and none wraps. -/
theorem countedEntriesSumToInputLength : Obligations.CountedEntriesSumToInputLength := by
  intro s t _ hfits hexec
  rw [exec_of_finished (i := .count) (countBody_of_fits hfits)] at hexec
  cases hexec
  refine ⟨freqTotal_frequencies s, fun a => ?_⟩
  rw [clearValidFlags_freq, toNat_entryOf_frequencies, ← length_inputSymbols]
  exact List.count_le_length

/-!
PROOFS. COMPRESS (45_control.md R226): the tables its first three stages leave, and the four ways it ends.
-/

/-- The counts of the input of `s`. -/
def State.counts (s : State) : Vector Word 256 := frequencies s.inputSymbols

/-- A symbol of the input is counted (R131). -/
theorem counts_ne_zero_of_mem {s : State} {a : Sym} (h : a ∈ s.inputSymbols) :
    entryOf s.counts a ≠ 0 := by
  intro hzero
  have hcount := toNat_entryOf_frequencies s a
  rw [State.counts] at hzero
  rw [hzero] at hcount
  exact (List.count_pos_iff.2 h).ne hcount

theorem exists_mem_inputSymbols {s : State} (h : s.inLen ≠ 0) : ∃ a, a ∈ s.inputSymbols := by
  refine List.exists_mem_of_ne_nil _ fun hnil => h (BitVec.eq_of_toNat_eq ?_)
  rw [← length_inputSymbols, hnil]
  rfl

/-- A nonempty input has a distinct symbol. -/
theorem one_le_distinctSymbols_counts {s : State} (h : s.inLen ≠ 0) :
    1 ≤ distinctSymbols s.counts := by
  obtain ⟨a, ha⟩ := exists_mem_inputSymbols h
  exact Nat.one_le_of_lt (nonzeroBelow_lt (counts_ne_zero_of_mem ha))

/-- The code table of the counts of an input has a word for each symbol of it (R226). -/
theorem allCoded_codeOf_counts {s : State} (h : s.inLen ≠ 0) :
    allCoded (codeOf s.counts) s.inputSymbols = true :=
  List.all_eq_true.2 fun _ ha =>
    valid_codeOf_of_counted (one_le_distinctSymbols_counts h) (counts_ne_zero_of_mem ha)

/-- The state COUNT leaves of an input in range, before its completion (R130). -/
def State.counted (s : State) : State := clearValidFlags { s with freq := s.counts }

/-- The state BUILD leaves, before its completion (R140). -/
def State.built (s : State) : State :=
  { s with
    tree := (buildTree s.freq).tree
    nsym := BitVec.ofNat 9 (buildTree s.freq).nsym
    root := rootIndex s.freq
    code := Vector.replicate 256 CodeEntry.invalid
    treeValid := (buildTree s.freq).nsym != 0
    empty := (buildTree s.freq).nsym == 0
    tableValid := false }

/-- The state TABLE leaves of a tree, before its completion (R160). -/
def State.tabled (s : State) : State := { s with code := deriveCode s.tree s.root, tableValid := true }

theorem buildBody_eq (s : State) : buildBody s = .finished s.built := rfl

theorem tableBody_of_treeValid {s : State} (h : s.treeValid = true) :
    tableBody s = .finished s.tabled := by
  rw [tableBody, if_pos h, State.tabled]

/-- With an input in range COMPRESS has its third stage on what BUILD makes of the counts (R226). -/
theorem compressBody_of_fits {s : State} (h : s.inLen.toNat ≤ s.params.maxSyms) :
    compressBody s = (tableStage s.counted.built).andThen encodeBody := by
  rw [compressBody, countBody_of_fits h]
  rfl

/-- With a tree the third stage is TABLE, and ENCODE comes after it. -/
theorem compressBody_of_tree {s : State} (h : s.inLen.toNat ≤ s.params.maxSyms)
    (htree : s.counted.built.treeValid = true) :
    compressBody s = encodeBody s.counted.built.tabled := by
  rw [compressBody_of_fits h, tableStage, if_pos htree, tableBody_of_treeValid htree, andThen_finished]

/-- Without one ENCODE comes after BUILD. -/
theorem compressBody_of_no_tree {s : State} (h : s.inLen.toNat ≤ s.params.maxSyms)
    (htree : s.counted.built.treeValid = false) : compressBody s = encodeBody s.counted.built := by
  rw [compressBody_of_fits h, tableStage, htree, if_neg Bool.false_ne_true, andThen_finished]

/-- What the first three stages of COMPRESS leave of a nonempty input (R226): the counts, and the tree and
the code table of those. -/
def State.prepared (s : State) : State :=
  { s with
    freq := s.counts
    tree := (buildTree s.counts).tree
    nsym := BitVec.ofNat 9 (buildTree s.counts).nsym
    root := rootIndex s.counts
    code := codeOf s.counts
    treeValid := true
    empty := false
    tableValid := true }

/-- With a nonempty input in range COMPRESS is ENCODE after the first three stages. -/
theorem compressBody_of_nonempty {s : State} (hne : s.inLen ≠ 0)
    (hfits : s.inLen.toNat ≤ s.params.maxSyms) : compressBody s = encodeBody s.prepared := by
  have hcount : (buildTree s.counts).nsym ≠ 0 := by
    rw [buildTree_nsym]
    exact Nat.one_le_iff_ne_zero.1 (one_le_distinctSymbols_counts hne)
  have hprepared : s.counted.built.tabled = s.prepared := by
    simp only [State.tabled, State.built, State.counted, clearValidFlags, beq_eq_false_iff_ne.2 hcount,
      bne_iff_ne.2 hcount]
    rfl
  rw [compressBody_of_tree hfits (bne_iff_ne.2 hcount), hprepared]

/-- Without input there is no tree, and ENCODE clears the counts (R226). -/
theorem compressBody_of_empty {s : State} (h : s.inLen = 0) :
    compressBody s = .finished
      { s with
        freq := Vector.replicate 256 0
        tree := Vector.replicate 511 Node.zero
        nsym := 0
        root := 0
        code := Vector.replicate 256 CodeEntry.invalid
        encBits := 0
        encBytes := 0
        decBits := 0
        treeValid := false
        tableValid := false
        empty := true } := by
  have hinput : s.inputSymbols = [] := by simp [State.inputSymbols, h]
  have hfits : s.inLen.toNat ≤ s.params.maxSyms := by rw [h]; exact Nat.zero_le _
  have hfreq : s.counts = Vector.replicate 256 0 := by rw [State.counts, hinput]; rfl
  have hbuilt := buildTree_of_no_leaf (leavesOf_eq_nil fun a => entryOf_replicate (0 : Word) a)
  have htree : s.counted.built.treeValid = false := by
    simp only [State.built, State.counted, clearValidFlags_freq, hfreq, hbuilt, bne_self_eq_false]
  rw [compressBody_of_no_tree hfits htree, encodeBody_of_inLen_zero (s := s.counted.built) h]
  simp only [State.built, State.counted, clearValidFlags, hfreq, rootIndex, hbuilt,
    bne_self_eq_false, beq_self_eq_true]
  rfl

/-- Where the stream of a nonempty input fits BITS, COMPRESS writes it whole (R226). -/
theorem compressBody_of_fitting {s : State} (hne : s.inLen ≠ 0)
    (hfits : s.inLen.toNat ≤ s.params.maxSyms) (hwf : s.bits.wf = true)
    (hfit : (streamOf (codeOf s.counts) s.inputSymbols).length ≤ 8 * s.params.bitBufBytes) :
    ∃ w : Writer, w.Holds s.bits (streamOf (codeOf s.counts) s.inputSymbols) ∧
      compressBody s = .finished
        (storeBits w.close.bits (streamOf (codeOf s.counts) s.inputSymbols).length s.prepared) := by
  obtain ⟨w, hloop, hw⟩ := encodeLoop_whole hwf (allCoded_codeOf_counts hne) hfit
  refine ⟨w, hw, ?_⟩
  rw [compressBody_of_nonempty hne hfits, encodeBody_of_checks (s := s.prepared) hne hfits rfl]
  exact encodeStream_finished (s := s.prepared) hloop hw

/-- Where it does not fit, COMPRESS ends with OVERFLOW: every symbol has a code word (R252). -/
theorem compressBody_of_overflowing {s : State} (hne : s.inLen ≠ 0)
    (hfits : s.inLen.toNat ≤ s.params.maxSyms) (hwf : s.bits.wf = true)
    (hover : ¬ (streamOf (codeOf s.counts) s.inputSymbols).length ≤ 8 * s.params.bitBufBytes) :
    ∃ (info : Word) (t : State), compressBody s = .raised .overflow info t := by
  have hends := encodeLoop_ends (codeOf s.counts) (8 * s.params.bitBufBytes) s.bits [] 0
    s.inputSymbols _ (openWriter_holds hwf) (Nat.zero_le _)
  rw [compressBody_of_nonempty hne hfits, encodeBody_of_checks (s := s.prepared) hne hfits rfl]
  cases hends with
  | whole _ _ _ hfit _ => rw [List.length_nil, Nat.zero_add] at hfit; exact absurd hfit hover
  | unknown _ done a rest _ hsplit _ hbad _ _ =>
    have hvalid := valid_of_allCoded (allCoded_codeOf_counts hne) (a := a) (by simp [hsplit])
    rw [hbad] at hvalid
    cases hvalid
  | full w _ _ _ hloop _ _ _ _ hw => exact ⟨_, _, encodeStream_raised (s := s.prepared) hloop hw⟩

/-- Tables that BUILD and TABLE made from the current counts meet R49. -/
theorem tablesConsistent_of_built {s : State} (hpos : 1 ≤ distinctSymbols s.freq)
    (htree : s.tree = (buildTree s.freq).tree)
    (hnsym : s.nsym = BitVec.ofNat 9 (buildTree s.freq).nsym) (hroot : s.root = rootIndex s.freq)
    (hcode : s.tableValid = true → s.code = codeOf s.freq) (hvalid : s.treeValid = true)
    (hempty : s.empty = false) : s.TablesConsistent where
  tableNeedsTree := fun _ => hvalid
  treeCurrent := fun _ => by
    have hle := distinctSymbols_le s.freq
    have hcount : s.nsym.toNat = distinctSymbols s.freq := by
      rw [hnsym, buildTree_nsym, BitVec.toNat_ofNat]
      omega
    refine ⟨htree, hnsym, hroot, hcount.symm ▸ hpos, ?_⟩
    rw [hroot, toNat_rootIndex, hcount]
  tableCurrent := fun h => by rw [hcode h, htree, hroot, codeOf_eq]
  treeNotEmpty := fun h => by rw [hempty] at h; cases h.2

/-- Without valid tables R49 asks nothing. -/
theorem tablesConsistent_of_invalid {s : State} (htree : s.treeValid = false)
    (htable : s.tableValid = false) : s.TablesConsistent where
  tableNeedsTree := fun h => by rw [htable] at h; cases h
  treeCurrent := fun h => by rw [htree] at h; cases h
  tableCurrent := fun h => by rw [htable] at h; cases h
  treeNotEmpty := fun h => by rw [htree] at h; cases h.1

/-- `s` with another report of the last command, and another SEQ. -/
def State.reported (s : State) (seq : Seq) (done : Bool) (e : ErrCode) : State :=
  { s with seq := seq, done := done, errCode := e }

theorem conclude_encodeStream_of_report (s : State) (seq : Seq) (done : Bool) (e : ErrCode) :
    (encodeStream (s.reported seq done e)).conclude = (encodeStream s).conclude := by
  unfold encodeStream
  dsimp only [State.inputSymbols, State.reported]
  rcases encodeLoop s.code (8 * s.params.bitBufBytes) 0
    ((List.range s.inLen.toNat).map fun i => s.symIn.read i) (openWriter s.bits) with
    ⟨w, _ | ⟨e', i⟩⟩
  · rfl
  · rfl

/-- ENCODE reads neither SEQ nor DONE nor ERR_CODE, and its completion writes them. -/
theorem conclude_encodeBody_of_report (s : State) (seq : Seq) (done : Bool) (e : ErrCode) :
    (encodeBody (s.reported seq done e)).conclude = (encodeBody s).conclude := by
  by_cases hfits : s.inLen.toNat ≤ s.params.maxSyms
  · by_cases hzero : s.inLen = 0
    · rw [encodeBody_of_inLen_zero hzero, encodeBody_of_inLen_zero (s := s.reported seq done e) hzero]
      rfl
    · cases htable : s.tableValid with
      | true =>
        rw [encodeBody_of_checks hzero hfits htable,
          encodeBody_of_checks (s := s.reported seq done e) hzero hfits htable]
        exact conclude_encodeStream_of_report s seq done e
      | false =>
        rw [encodeBody_of_not_tableValid hzero hfits htable,
          encodeBody_of_not_tableValid (s := s.reported seq done e) hzero hfits htable]
        rfl
  · have hout := State.inputFits_eq_false (Nat.lt_of_not_le hfits)
    rw [encodeBody_of_not_inputFits hout,
      encodeBody_of_not_inputFits (s := s.reported seq done e) hout]
    rfl

/-- Settles O39: the stages of COMPRESS are the pseudocode of the four commands, whose completions ENCODE
does not read. -/
theorem compressRunsTheFourStages : Obligations.CompressRunsTheFourStages := by
  intro s hfits
  refine ⟨s.counted.reported .idle true .none, s.counted.built.reported .idle true .none,
    exec_of_finished (i := .count) (countBody_of_fits hfits),
    exec_of_finished (i := .build) (t := (s.counted.reported .idle true .none).built) rfl,
    fun htree => ?tree, fun htree => ?noTree⟩
  case tree =>
    refine ⟨s.counted.built.tabled.reported .idle true .none,
      exec_table_of_treeValid (s := s.counted.built.reported .idle true .none) htree, ?_⟩
    rw [exec_eq, exec_eq, bodyOf, bodyOf, compressBody_of_tree hfits htree,
      conclude_encodeBody_of_report]
  case noTree =>
    rw [exec_eq, exec_eq, bodyOf, bodyOf, compressBody_of_no_tree hfits htree,
      conclude_encodeBody_of_report]

/-- Settles O40: the tables are those of the counts, and ENCODE writes the whole stream. -/
theorem compressOfFittingInput : Obligations.CompressOfFittingInput := by
  intro s _ hwf hpos hfits hfit
  have hne : s.inLen ≠ 0 := ne_of_apply_ne BitVec.toNat hpos.ne'
  obtain ⟨w, hw, hbody⟩ := compressBody_of_fitting hne hfits hwf hfit
  obtain ⟨-, -, -, hbits, hrest⟩ := hw.close
  refine ⟨_, exec_of_finished (i := .compress) hbody, rfl, ?consistent,
    fun a => entryOf_frequencies s.inputSymbols a, allCoded_codeOf_counts hne, hbits, hrest⟩
  case consistent =>
    exact tablesConsistent_of_built (one_le_distinctSymbols_counts hne) rfl rfl rfl (fun _ => rfl) rfl
      rfl

/-- Settles O41: no symbol is counted, so no stage but ENCODE, of the empty input, does more. -/
theorem compressOfEmptyInput : Obligations.CompressOfEmptyInput :=
  fun _ hzero => exec_of_finished (i := .compress) (compressBody_of_empty hzero)

/-- Settles O42: out of range, of the empty input, or with a code word for every symbol. -/
theorem compressEndsOnlyWithRangeOrOverflow : Obligations.CompressEndsOnlyWithRangeOrOverflow := by
  intro s _ hwf
  obtain hout | hfits := Nat.lt_or_ge s.params.maxSyms s.inLen.toNat
  · have hbody := compressBody_of_not_inputFits (State.inputFits_eq_false hout)
    exact ⟨_, exec_of_raised (i := .compress) hbody, iff_of_true rfl hout, .inr (.inl rfl)⟩
  · have hnot := Nat.not_lt_of_ge hfits
    by_cases hzero : s.inLen = 0
    · exact ⟨_, compressOfEmptyInput s hzero, iff_of_false nofun hnot, .inl rfl⟩
    · by_cases hfit : (streamOf (codeOf s.counts) s.inputSymbols).length ≤ 8 * s.params.bitBufBytes
      · obtain ⟨w, -, hbody⟩ := compressBody_of_fitting hzero hfits hwf hfit
        exact ⟨_, exec_of_finished (i := .compress) hbody, iff_of_false nofun hnot, .inl rfl⟩
      · obtain ⟨info, t, hbody⟩ := compressBody_of_overflowing hzero hfits hwf hfit
        exact ⟨_, exec_of_raised (i := .compress) hbody, iff_of_false nofun hnot, .inr (.inr rfl)⟩

/-- An input of one symbol repeated. -/
theorem inputSymbols_eq_replicate {s : State} {a : Sym}
    (h : ∀ i, i < s.inLen.toNat → s.symIn.read i = a) :
    s.inputSymbols = List.replicate s.inLen.toNat a := by
  refine List.eq_replicate_iff.2 ⟨length_inputSymbols s, fun b hb => ?_⟩
  obtain ⟨i, hi, rfl⟩ := List.mem_map.1 hb
  exact h i (List.mem_range.1 hi)

/-- The stream of a symbol repeated whose code word is `"0"` (R187). -/
theorem streamOf_replicate {code : Vector CodeEntry 256} {a : Sym}
    (h : (entryOf code a).word = [false]) (n : Nat) :
    streamOf code (List.replicate n a) = List.replicate n false := by
  induction n with
  | zero => rfl
  | succ n ih => rw [List.replicate_succ, streamOf_cons, h, ih, List.replicate_succ]; rfl

/-- With one distinct symbol the code table gives it the code word `"0"` (R144, R162). -/
theorem entryOf_codeOf_of_one_symbol {freq : Vector Word 256} {a : Sym} (ha : entryOf freq a ≠ 0)
    (hother : ∀ b : Sym, b ≠ a → entryOf freq b = 0) :
    entryOf (codeOf freq) a = { valid := true, len := 1, bits := 0 } := by
  rw [codeOf, buildTree_of_one_leaf (leavesOf_eq_singleton ha hother)]
  exact entryOf_deriveCode_of_leaf (nodeAt_recordsOf_singleton_zero _)

/-- A byte whose stream bits are all 0 is 0. -/
theorem read_eq_zero_of_streamBit {m : Memory} {a : Nat}
    (h : ∀ k, k / 8 = a → streamBit m k = false) : m.read a = 0 :=
  read_eq_of_streamBit (m' := []) fun k hk => by
    rw [h k hk]
    simp [streamBit, Memory.blank]

/-- Settles O43: the one symbol has the code word `"0"`, and padding adds zeros. -/
theorem oneSymbolInputGivesZeroBits : Obligations.OneSymbolInputGivesZeroBits := by
  intro s a hlegal hwf hpos hfits hsame hroom
  have hne : s.inLen ≠ 0 := ne_of_apply_ne BitVec.toNat hpos.ne'
  have hinput := inputSymbols_eq_replicate hsame
  have hmem : a ∈ s.inputSymbols := by rw [hinput]; exact List.mem_replicate.2 ⟨hpos.ne', rfl⟩
  have hother (b : Sym) (hb : b ≠ a) : entryOf s.counts b = 0 := by
    rw [State.counts, entryOf_frequencies, hinput, List.count_replicate]
    simp [hb.symm]
  have hentry := entryOf_codeOf_of_one_symbol (counts_ne_zero_of_mem hmem) hother
  have hword : (entryOf (codeOf s.counts) a).word = [false] := by rw [hentry]; decide
  have hstream : streamOf (codeOf s.counts) s.inputSymbols = List.replicate s.inLen.toNat false := by
    rw [hinput, streamOf_replicate hword]
  have hlength : (streamOf (codeOf s.counts) s.inputSymbols).length = s.inLen.toNat := by
    rw [hstream, List.length_replicate]
  obtain ⟨w, hw, hbody⟩ := compressBody_of_fitting hne hfits hwf (hlength.trans_le hroom)
  obtain ⟨-, -, -, hbits, -⟩ := hw.close
  rw [hlength] at hbits hbody
  have hbytes : (storeBits w.close.bits s.inLen.toNat s.prepared).encBytes.toNat =
      (s.inLen.toNat + 7) / 8 := by
    have := s.inLen.isLt
    rw [storeBits, BitVec.toNat_ofNat]
    omega
  refine ⟨_, exec_of_finished (i := .compress) hbody, rfl, ofNat_eq_of_toNat rfl, hbytes, hentry,
    fun i hi => read_eq_zero_of_streamBit fun k hk => ?_⟩
  replace hi := hi.trans_eq hbytes
  refine (hbits k (by omega)).trans ?_
  rw [hstream, List.getD_eq_getElem?_getD, List.getElem?_getD_replicate_default_eq]

end Sys2Proof.Machine

/-!
PROOFS. The round trip (44_decoder.md R207): the stream COMPRESS leaves in BITS is the words DECODE reads
for the input.
-/

namespace Sys2Proof.Machine

/-- The bits of BITS that hold a stream are the stream (20_memory.md R71). -/
theorem streamBits_eq {s : State} {l : List Bool} (hlength : s.decBits.toNat = l.length)
    (h : ∀ k, k < 8 * ((l.length + 7) / 8) → streamBit s.bits k = l.getD k false) :
    s.streamBits = l := by
  refine List.ext_getElem (by simp [State.streamBits, hlength]) fun k _ hk => ?_
  rw [← List.getD_eq_getElem _ false hk, ← h k (by omega)]
  simp [State.streamBits]

/-- The code words of coded symbols are what the decoder reads for them (R202). -/
theorem readAs_of_allCoded {tree : Vector Node 511} {root : NodeIdx} {input : List Sym}
    (h : allCoded (deriveCode tree root) input = true) :
    readAs tree root (input.map fun a => (entryOf (deriveCode tree root) a).word) input = true := by
  rw [readAs_iff_forall₂, List.forall₂_map_left_iff, List.forall₂_same]
  exact fun a ha => readsAs_word_deriveCode (valid_of_allCoded h ha)

/-- DECODE of a stream of words for more symbols than SYM_OUT holds ends with OVERFLOW (R204). -/
theorem exec_decode_overflow {s : State} {words : List (List Bool)} {symbols : List Sym}
    (hwf : s.symOut.wf = true) (htree : s.treeValid = true)
    (hfits : s.decBits.toNat ≤ 8 * s.params.bitBufBytes) (hstream : s.streamBits = words.flatten)
    (hread : readAs s.tree s.root words symbols = true) (hmore : s.params.outCap < symbols.length) :
    ∃ t, exec .decode s = .next t ∧ t.errCode = .overflow := by
  rw [readAs_iff_forall₂] at hread
  have hlength := hread.length_eq
  have hrest := List.forall₂_drop s.params.outCap hread
  have hfirst := List.forall₂_take s.params.outCap hread
  rw [List.drop_eq_getElem_cons hmore, List.drop_eq_getElem_cons (hlength ▸ hmore),
    List.forall₂_cons] at hrest
  have hsplit := List.take_append_drop s.params.outCap words
  rw [List.drop_eq_getElem_cons (hlength ▸ hmore)] at hsplit
  rw [← hsplit, List.flatten_append, List.flatten_cons, ← List.append_assoc] at hstream
  obtain ⟨t, hexec, hframe, -⟩ := decodeStopsWhenOutputIsFull s (words.take s.params.outCap)
    (symbols.take s.params.outCap) _ _ _ hwf htree hfits hstream (readAs_iff_forall₂.2 hfirst) hrest.1
    (List.length_take_of_le hmore.le)
  exact ⟨t, hexec, by rw [hframe]⟩

/-- DECODE of the code words of an input gives the input back, or ends with OVERFLOW. -/
theorem exec_decode_of_codeWords {s : State} {input : List Sym} (hwf : s.symOut.wf = true)
    (htree : s.treeValid = true) (hfits : s.decBits.toNat ≤ 8 * s.params.bitBufBytes)
    (hne : s.decBits ≠ 0) (hcoded : allCoded (deriveCode s.tree s.root) input = true)
    (hstream : s.streamBits = streamOf (deriveCode s.tree s.root) input) :
    ∃ u, exec .decode s = .next u ∧ (u.errCode ≠ .overflow →
      u.errCode = .none ∧ u.outLen = BitVec.ofNat 32 input.length ∧
        ∀ i, i < input.length → u.symOut.read i = input.getD i 0) := by
  have hread := readAs_of_allCoded hcoded
  obtain hmore | hfit := Nat.lt_or_ge s.params.outCap input.length
  · obtain ⟨u, hexec, hover⟩ := exec_decode_overflow hwf htree hfits hstream hread hmore
    exact ⟨u, hexec, fun hnot => absurd hover hnot⟩
  · obtain ⟨c, hc, hends⟩ := decodeStream_words hwf hstream hread hfit
    have hbody : decodeBody s = .finished (storeOutput c s) := by
      rw [decodeBody_of_stream hne hfits, if_pos htree, hends]
    exact ⟨_, exec_of_finished (i := .decode) hbody,
      fun _ => ⟨rfl, congrArg (BitVec.ofNat 32) hc.n, hc.written⟩⟩

/-- The stream of a nonempty coded input has a bit. -/
theorem streamOf_ne_nil {tree : Vector Node 511} {root : NodeIdx} {input : List Sym}
    (hne : input ≠ []) (hcoded : allCoded (deriveCode tree root) input = true) :
    streamOf (deriveCode tree root) input ≠ [] := by
  obtain ⟨a, rest, rfl⟩ := List.exists_cons_of_ne_nil hne
  have hword := ne_nil_of_readsAs (readsAs_word_deriveCode (valid_of_allCoded hcoded List.mem_cons_self))
  rw [streamOf_cons]
  exact List.append_ne_nil_of_left_ne_nil hword _

theorem inputSymbols_ne_nil {s : State} (h : s.inLen ≠ 0) : s.inputSymbols ≠ [] := by
  obtain ⟨a, ha⟩ := exists_mem_inputSymbols h
  exact List.ne_nil_of_mem ha

/-- The length of a stream that fits BITS is the value of the registers that hold it (R8, R35). -/
theorem toNat_streamLength {s : State} {n : Nat} (hlegal : s.params.legal = true)
    (h : n ≤ 8 * s.params.bitBufBytes) : (BitVec.ofNat 32 n).toNat = n := by
  obtain ⟨-, hcap, -⟩ := Params.le_of_legal hlegal
  rw [BitVec.toNat_ofNat]
  omega

/-- DECODE of the empty stream writes nothing and OUT_LEN = 0, after COMPRESS of the empty input. -/
theorem roundTrip_of_empty {s : State} (hzero : s.inLen = 0) :
    ∃ t, exec .compress s = .next t ∧ t.errCode = .none ∧ ∀ (v : Word) (hold : Nat),
      ∃ u, exec .decode (accept v hold t) = .next u ∧ u.errCode = .none ∧ u.outLen = s.inLen := by
  refine ⟨_, compressOfEmptyInput s hzero, rfl, fun v hold => ⟨_, decodeOfEmptyStream.1 _ rfl, rfl, ?_⟩⟩
  rw [hzero]

/-- Settles O44: of a stream that fits, DECODE reads the code words; of the empty input, nothing. -/
theorem decodeOfCompressIsTheInput : Obligations.DecodeOfCompressIsTheInput := by
  intro s hlegal hwf hwfOut hfits
  by_cases hzero : s.inLen = 0
  · obtain ⟨t, hexec, herr, hdecode⟩ := roundTrip_of_empty hzero
    refine ⟨t, hexec, fun v hold => ?_⟩
    obtain ⟨u, hexec', herr', hlen⟩ := hdecode v hold
    refine ⟨u, hexec', fun _ _ => ⟨herr, herr', hlen, fun i hi => ?_⟩⟩
    rw [hzero] at hi
    exact absurd hi (Nat.not_lt_zero i)
  by_cases hfit : (streamOf (codeOf s.counts) s.inputSymbols).length ≤ 8 * s.params.bitBufBytes
  · obtain ⟨w, hw, hbody⟩ := compressBody_of_fitting hzero hfits hwf hfit
    obtain ⟨-, -, -, hbits, -⟩ := hw.close
    have hcoded := allCoded_codeOf_counts hzero
    have hlength := toNat_streamLength hlegal hfit
    have hnil : streamOf (codeOf s.counts) s.inputSymbols ≠ [] :=
      streamOf_ne_nil (inputSymbols_ne_nil hzero) hcoded
    have hne : BitVec.ofNat 32 (streamOf (codeOf s.counts) s.inputSymbols).length ≠ 0 := fun h =>
      hnil (List.eq_nil_of_length_eq_zero (by rw [← hlength, h]; rfl))
    refine ⟨_, exec_of_finished (i := .compress) hbody, fun v hold => ?_⟩
    obtain ⟨u, hexec, hu⟩ := exec_decode_of_codeWords (input := s.inputSymbols)
      (s := accept v hold (finish (storeBits w.close.bits _ s.prepared)))
      hwfOut rfl (hlength.trans_le hfit) hne hcoded (streamBits_eq hlength hbits)
    refine ⟨u, hexec, fun _ hnot => ?_⟩
    obtain ⟨herr, hlen, hread⟩ := hu hnot
    rw [length_inputSymbols] at hlen hread
    refine ⟨rfl, herr, hlen.trans (ofNat_eq_of_toNat rfl), fun i hi => ?_⟩
    rw [hread i hi, inputSymbols_getD hi]
  · obtain ⟨info, t, hbody⟩ := compressBody_of_overflowing hzero hfits hwf hfit
    exact ⟨_, exec_of_raised (i := .compress) hbody,
      fun v hold => ⟨_, exec_eq .decode _, fun hnot => absurd rfl hnot⟩⟩

end Sys2Proof.Machine

/-!
PROOFS. What every command has in common (45_control.md R222, R223; 60_exceptions.md R255, R256;
70_reset_and_hazards.md R288, R290): it completes, it leaves the host's side alone, its early errors
change nothing, and issued again it does nothing more.
-/

namespace Sys2Proof.Machine

/-- How COUNT can end (R130, R242). -/
inductive CountOutcome (s : State) : Ended → Prop
  | range : CountOutcome s (.raised .range 0 s)
  | counted : CountOutcome s (.finished s.counted)

theorem countBody_outcome (s : State) : CountOutcome s (countBody s) := by
  obtain hout | hfits := Nat.lt_or_ge s.params.maxSyms s.inLen.toNat
  · rw [countBody_of_not_inputFits (State.inputFits_eq_false hout)]
    exact .range
  · rw [countBody_of_fits hfits]
    exact .counted

/-- How TABLE can end (R160, R243). -/
inductive TableOutcome (s : State) : Ended → Prop
  | noTree (h : s.treeValid = false) : TableOutcome s (.raised .noTree 0 s)
  | tabled (h : s.treeValid = true) : TableOutcome s (.finished s.tabled)

theorem tableBody_outcome (s : State) : TableOutcome s (tableBody s) := by
  cases h : s.treeValid with
  | true => rw [tableBody_of_treeValid h]; exact .tabled h
  | false => rw [tableBody_of_not_treeValid h]; exact .noTree h

/-- How LOOKUP can end (R164, R244, R245). -/
inductive LookupOutcome (a : Sym) (s : State) : Ended → Prop
  | noTable (h : s.tableValid = false) : LookupOutcome a s (.raised .noTable 0 s)
  | found (h : s.tableValid = true) (hvalid : (entryOf s.code a).valid = true) :
      LookupOutcome a s (.finished (loadLookup (entryOf s.code a) s))
  | unknown (h : s.tableValid = true) (hinvalid : ¬ (entryOf s.code a).valid = true) :
      LookupOutcome a s (.raised .lookupFail (a.setWidth 32)
        { s with lkLen := 0, lkBits := Vector.replicate 8 0 })

theorem lookupBody_outcome (a : Sym) (s : State) : LookupOutcome a s (lookupBody a s) := by
  cases h : s.tableValid with
  | true =>
    rw [lookupBody_of_tableValid a h]
    split
    · exact .found h ‹_›
    · exact .unknown h ‹_›
  | false => rw [lookupBody_of_not_tableValid a h]; exact .noTable h

/-- The fields no command touches: the parameters, CTRL, OVERRUN, SYM_IN and the host's side. -/
structure State.SameHostSide (s t : State) : Prop where
  params : t.params = s.params
  ie : t.ie = s.ie
  overrun : t.overrun = s.overrun
  symIn : t.symIn = s.symIn
  resp : t.resp = s.resp
  inbox : t.inbox = s.inbox
  draws : t.draws = s.draws

theorem State.SameHostSide.refl (s : State) : s.SameHostSide s := by constructor <;> rfl

theorem State.SameHostSide.trans {s t u : State} (h : s.SameHostSide t) (h' : t.SameHostSide u) :
    s.SameHostSide u where
  params := h'.params.trans h.params
  ie := h'.ie.trans h.ie
  overrun := h'.overrun.trans h.overrun
  symIn := h'.symIn.trans h.symIn
  resp := h'.resp.trans h.resp
  inbox := h'.inbox.trans h.inbox
  draws := h'.draws.trans h.draws

theorem sameHostSide_countBody (s : State) : s.SameHostSide (countBody s).state := by
  have hends := countBody_outcome s
  generalize countBody s = r at hends
  cases hends <;> constructor <;> rfl

theorem sameHostSide_buildBody (s : State) : s.SameHostSide (buildBody s).state := by
  constructor <;> rfl

theorem sameHostSide_tableBody (s : State) : s.SameHostSide (tableBody s).state := by
  have hends := tableBody_outcome s
  generalize tableBody s = r at hends
  cases hends <;> constructor <;> rfl

theorem sameHostSide_encodeBody (s : State) : s.SameHostSide (encodeBody s).state := by
  have hends := encodeBody_outcome s
  generalize encodeBody s = r at hends
  cases hends <;> constructor <;> rfl

theorem sameHostSide_decodeBody (s : State) : s.SameHostSide (decodeBody s).state := by
  have hends := decodeBody_outcome s
  generalize decodeBody s = r at hends
  cases hends <;> constructor <;> rfl

theorem sameHostSide_lookupBody (a : Sym) (s : State) : s.SameHostSide (lookupBody a s).state := by
  have hends := lookupBody_outcome a s
  generalize lookupBody a s = r at hends
  cases hends <;> constructor <;> rfl

/-- No command touches the host's side. -/
theorem sameHostSide_bodyOf (i : Instr) (s : State) : s.SameHostSide (bodyOf i s).state := by
  cases i with
  | nop => exact .refl s
  | count => exact sameHostSide_countBody s
  | build => exact sameHostSide_buildBody s
  | table => exact sameHostSide_tableBody s
  | encode => exact sameHostSide_encodeBody s
  | decode => exact sameHostSide_decodeBody s
  | compress =>
    exact compressBody_state State.SameHostSide.refl (fun _ _ _ => State.SameHostSide.trans)
      sameHostSide_countBody sameHostSide_buildBody sameHostSide_tableBody sameHostSide_encodeBody s
  | lookup a => exact sameHostSide_lookupBody a s
  | clear => constructor <;> rfl

/-- Completion touches only ERR_CODE, ERR_INFO, SEQ and DONE (R222, R255). -/
theorem Ended.sameHostSide_conclude (r : Ended) : r.state.SameHostSide r.conclude := by
  cases r <;> constructor <;> rfl

@[simp] theorem Ended.conclude_seq (r : Ended) : r.conclude.seq = .idle := by cases r <;> rfl

@[simp] theorem Ended.conclude_done (r : Ended) : r.conclude.done = true := by cases r <;> rfl

/-- Settles O7: each body leaves the host's side alone, and completion sets DONE. -/
theorem everyCommandCompletes : Obligations.EveryCommandCompletes := by
  intro i s
  have hsame := (sameHostSide_bodyOf i s).trans (bodyOf i s).sameHostSide_conclude
  refine ⟨_, exec_eq i s, Ended.conclude_seq _, Ended.conclude_done _, ?irq, hsame.ie, hsame.overrun,
    hsame.params, hsame.symIn, hsame.resp, hsame.inbox, hsame.draws⟩
  case irq => rw [State.irq, hsame.ie, Ended.conclude_done, Bool.and_true]

/-- A command word runs as its command, or raises ILLEGAL_CMD (R221, R241). -/
theorem runCommand_cases (w : Word) (s : State) :
    (∃ i, runCommand w s = .next (bodyOf i s).conclude) ∨
      runCommand w s = .next (raise .illegalCmd 0 s) := by
  cases h : decode w with
  | instr i => exact .inl ⟨i, (runCommand_instr h s).trans (exec_eq i s)⟩
  | illegal why => exact .inr (runCommand_illegal h s)

/-- Every command word, legal or not, ends with the block idle and the host's side as it was. -/
theorem exists_runCommand (w : Word) (s : State) :
    ∃ t, runCommand w s = .next t ∧ t.seq = .idle ∧ s.SameHostSide t := by
  obtain ⟨i, hrun⟩ | hrun := runCommand_cases w s
  · exact ⟨_, hrun, Ended.conclude_seq _,
      (sameHostSide_bodyOf i s).trans (bodyOf i s).sameHostSide_conclude⟩
  · exact ⟨_, hrun, rfl, by constructor <;> rfl⟩

theorem run_succ {s t : State} (h : step s = .next t) (k : Nat) :
    core.run (k + 1) s = core.run k t := by
  have hstep : core.step s = .next t := h
  simp only [Host.Core.run, hstep]

/-- Settles O8: a host access that passes leaves one less to let pass, and anything else ends the
command. -/
theorem busyBlockCompletesInBoundedSteps : Obligations.BusyBlockCompletesInBoundedSteps := by
  intro s w hold hbusy
  induction hold generalizing s with
  | zero =>
    obtain ⟨t, hrun, hidle, -⟩ := exists_runCommand w s
    exact ⟨1, le_rfl, t, run_succ ((step_busy_ready hbusy).trans hrun) 0, hidle⟩
  | succ left ih =>
    obtain ⟨w', hold', hseq, hstep⟩ | ⟨hseq, -⟩ | ⟨w', left', a, rest, hseq, -, hstep⟩ |
      ⟨_, _, rest, -, -, hstep⟩ := step_cases s
    · obtain ⟨t, hrun, hidle, -⟩ := exists_runCommand w' s
      exact ⟨1, by omega, t, run_succ (hstep.trans hrun) 0, hidle⟩
    · rw [hbusy] at hseq
      cases hseq
    · rw [hbusy] at hseq
      cases hseq
      obtain ⟨ie, done, overrun, resp, draws, haccess⟩ :=
        hostAccess_busy (s := { s with inbox := rest, seq := .busy w left }) rfl a
      obtain ⟨k, hk, t, hrun, hidle⟩ := ih _ (congrArg State.seq haccess)
      exact ⟨k + 1, by omega, t, (run_succ hstep k).trans hrun, hidle⟩
    · exact ⟨1, by omega, _, run_succ hstep 0, rfl⟩

/-- RANGE, NO_TREE and NO_TABLE: the errors of the checks before any write (R256). -/
def ErrCode.early (e : ErrCode) : Prop := e = .range ∨ e = .noTree ∨ e = .noTable

/-- Where `r` ends with one of the early errors, nothing is changed and ERR_INFO is 0. -/
def EarlyErrorsKeep (s : State) (r : Ended) : Prop :=
  ∀ e info t, r = .raised e info t → e.early → info = 0 ∧ t = s

theorem earlyErrorsKeep_finished (s t : State) : EarlyErrorsKeep s (.finished t) := by
  intro e info u h
  cases h

theorem earlyErrorsKeep_raised_same (s : State) (e : ErrCode) :
    EarlyErrorsKeep s (.raised e 0 s) := by
  rintro _ _ _ ⟨⟩ -
  exact ⟨rfl, rfl⟩

theorem earlyErrorsKeep_raised_late {s t : State} {e : ErrCode} {info : Word} (h : ¬ e.early) :
    EarlyErrorsKeep s (.raised e info t) := by
  rintro _ _ _ ⟨⟩ he
  exact absurd he h

theorem not_early_of_encode {e : ErrCode} (h : e = .lookupFail ∨ e = .overflow) : ¬ e.early := by
  obtain rfl | rfl := h <;> simp [ErrCode.early]

theorem not_early_of_decode {e : ErrCode} (h : e = .overflow ∨ e = .truncated) : ¬ e.early := by
  obtain rfl | rfl := h <;> simp [ErrCode.early]

theorem earlyErrorsKeep_countBody (s : State) : EarlyErrorsKeep s (countBody s) := by
  have hends := countBody_outcome s
  generalize countBody s = r at hends
  cases hends with
  | range => exact earlyErrorsKeep_raised_same s _
  | counted => exact earlyErrorsKeep_finished s _

theorem earlyErrorsKeep_tableBody (s : State) : EarlyErrorsKeep s (tableBody s) := by
  have hends := tableBody_outcome s
  generalize tableBody s = r at hends
  cases hends with
  | noTree => exact earlyErrorsKeep_raised_same s _
  | tabled => exact earlyErrorsKeep_finished s _

theorem earlyErrorsKeep_encodeBody (s : State) : EarlyErrorsKeep s (encodeBody s) := by
  have hends := encodeBody_outcome s
  generalize encodeBody s = r at hends
  cases hends with
  | range => exact earlyErrorsKeep_raised_same s _
  | empty => exact earlyErrorsKeep_finished s _
  | noTable => exact earlyErrorsKeep_raised_same s _
  | whole => exact earlyErrorsKeep_finished s _
  | stopped w hw e info he => exact earlyErrorsKeep_raised_late (not_early_of_encode he)

theorem earlyErrorsKeep_decodeBody (s : State) : EarlyErrorsKeep s (decodeBody s) := by
  have hends := decodeBody_outcome s
  generalize decodeBody s = r at hends
  cases hends with
  | range => exact earlyErrorsKeep_raised_same s _
  | empty => exact earlyErrorsKeep_finished s _
  | noTree => exact earlyErrorsKeep_raised_same s _
  | whole => exact earlyErrorsKeep_finished s _
  | stopped out hfit e info he => exact earlyErrorsKeep_raised_late (not_early_of_decode he)

theorem earlyErrorsKeep_lookupBody (a : Sym) (s : State) : EarlyErrorsKeep s (lookupBody a s) := by
  have hends := lookupBody_outcome a s
  generalize lookupBody a s = r at hends
  cases hends with
  | noTable => exact earlyErrorsKeep_raised_same s _
  | found => exact earlyErrorsKeep_finished s _
  | unknown => exact earlyErrorsKeep_raised_late (not_early_of_encode (.inl rfl))

/-- COMPRESS raises RANGE before it has written anything, and no other early error (R252). -/
theorem earlyErrorsKeep_compressBody {s : State} (hwf : s.bits.wf = true) :
    EarlyErrorsKeep s (compressBody s) := by
  obtain hout | hfits := Nat.lt_or_ge s.params.maxSyms s.inLen.toNat
  · rw [compressBody_of_not_inputFits (State.inputFits_eq_false hout)]
    exact earlyErrorsKeep_raised_same s _
  by_cases hzero : s.inLen = 0
  · rw [compressBody_of_empty hzero]
    exact earlyErrorsKeep_finished s _
  by_cases hfit : (streamOf (codeOf s.counts) s.inputSymbols).length ≤ 8 * s.params.bitBufBytes
  · obtain ⟨w, -, hbody⟩ := compressBody_of_fitting hzero hfits hwf hfit
    rw [hbody]
    exact earlyErrorsKeep_finished s _
  · obtain ⟨info, t, hbody⟩ := compressBody_of_overflowing hzero hfits hwf hfit
    rw [hbody]
    exact earlyErrorsKeep_raised_late (not_early_of_decode (.inl rfl))

theorem earlyErrorsKeep_bodyOf (i : Instr) {s : State} (hwf : s.bits.wf = true) :
    EarlyErrorsKeep s (bodyOf i s) := by
  cases i with
  | nop => exact earlyErrorsKeep_finished s s
  | count => exact earlyErrorsKeep_countBody s
  | build => exact earlyErrorsKeep_finished s _
  | table => exact earlyErrorsKeep_tableBody s
  | encode => exact earlyErrorsKeep_encodeBody s
  | decode => exact earlyErrorsKeep_decodeBody s
  | compress => exact earlyErrorsKeep_compressBody hwf
  | lookup a => exact earlyErrorsKeep_lookupBody a s
  | clear => exact earlyErrorsKeep_finished s _

/-- Settles O45: no command raises one of these errors after a write. -/
theorem earlyErrorsLeaveTheState : Obligations.EarlyErrorsLeaveTheState := by
  intro i s _ hwf
  refine ⟨_, exec_eq i s, fun hearly => ?_⟩
  have hkeep := earlyErrorsKeep_bodyOf i hwf
  generalize bodyOf i s = r at hkeep hearly
  cases r with
  | finished t => simp at hearly
  | raised e info t =>
    obtain ⟨rfl, rfl⟩ := hkeep e info t rfl hearly
    rfl

end Sys2Proof.Machine

/-!
PROOFS. Commands are idempotent (70_reset_and_hazards.md R288): accepted again in the state it left, a
command finds there what it wrote.
-/

namespace Sys2Proof.Machine

/-- The pseudocode `body`, issued again on the state it left, leaves that state again. -/
def Repeats (body : State → Ended) (s : State) : Prop :=
  ∀ (v : Word) (hold : Nat), (body (accept v hold (body s).conclude)).conclude = (body s).conclude

/-- A command that finishes repeats where it finds all written already: acceptance and completion take
each other back. -/
theorem repeats_of_finished {body : State → Ended} {s t : State} (h : body s = .finished t)
    (hinfo : t.errInfo = 0)
    (hagain : ∀ v hold, body (accept v hold (finish t)) = .finished (accept v hold (finish t))) :
    Repeats body s := by
  intro v hold
  rw [h, Ended.conclude, hagain, Ended.conclude]
  simp only [finish, complete, accept, ← hinfo]

/-- The same for a command that raises, whose report is written again. -/
theorem repeats_of_raised {body : State → Ended} {s t : State} {e : ErrCode} {info : Word}
    (h : body s = .raised e info t)
    (hagain : ∀ v hold, body (accept v hold (raise e info t)) =
      .raised e info (accept v hold (raise e info t))) : Repeats body s := by
  intro v hold
  rw [h, Ended.conclude, hagain, Ended.conclude]
  rfl

section
variable {s : State} (hinfo : s.errInfo = 0)

include hinfo in
theorem repeats_countBody : Repeats countBody s := by
  obtain hout | hfits := Nat.lt_or_ge s.params.maxSyms s.inLen.toNat
  · exact repeats_of_raised (countBody_of_not_inputFits (State.inputFits_eq_false hout))
      fun v hold => countBody_of_not_inputFits (State.inputFits_eq_false hout)
  · exact repeats_of_finished (countBody_of_fits hfits) hinfo
      fun v hold => countBody_of_fits (s := accept v hold (finish s.counted)) hfits

include hinfo in
theorem repeats_buildBody : Repeats buildBody s :=
  repeats_of_finished (buildBody_eq s) hinfo fun _ _ => rfl

include hinfo in
theorem repeats_tableBody : Repeats tableBody s := by
  cases h : s.treeValid with
  | true =>
    exact repeats_of_finished (tableBody_of_treeValid h) hinfo
      fun v hold => tableBody_of_treeValid (s := accept v hold (finish s.tabled)) h
  | false =>
    exact repeats_of_raised (tableBody_of_not_treeValid h)
      fun v hold => tableBody_of_not_treeValid (s := accept v hold _) h

include hinfo in
theorem repeats_lookupBody (a : Sym) : Repeats (lookupBody a) s := by
  cases h : s.tableValid with
  | true =>
    by_cases hvalid : (entryOf s.code a).valid = true
    · refine repeats_of_finished ((lookupBody_of_tableValid a h).trans (if_pos hvalid)) hinfo
        fun v hold => ?_
      exact (lookupBody_of_tableValid (s := accept v hold (finish (loadLookup _ s))) a h).trans
        (if_pos hvalid)
    · refine repeats_of_raised ((lookupBody_of_tableValid a h).trans (if_neg hvalid))
        fun v hold => ?_
      exact (lookupBody_of_tableValid (s := accept v hold (raise .lookupFail (a.setWidth 32)
        { s with lkLen := 0, lkBits := Vector.replicate 8 0 })) a h).trans (if_neg hvalid)
  | false =>
    exact repeats_of_raised (lookupBody_of_not_tableValid a h)
      fun v hold => lookupBody_of_not_tableValid (s := accept v hold _) a h

end

/-- Closing a writer over the buffer another left with the same bits leaves that buffer. -/
theorem Writer.Holds.bits_close_again {w w' : Writer} {m : Memory} {l : List Bool} (h : w.Holds m l)
    (h' : w'.Holds w.close.bits l) : w'.close.bits = w.close.bits := by
  obtain ⟨-, -, hwf, hbits, -⟩ := h.close
  obtain ⟨-, -, hwf', hbits', hrest'⟩ := h'.close
  refine Memory.ext_of_read hwf' hwf fun a => ?_
  obtain hlt | hge := Nat.lt_or_ge a ((l.length + 7) / 8)
  · exact read_eq_of_streamBit fun k hk => by rw [hbits' k (by omega), hbits k (by omega)]
  · exact hrest' a hge

/-- ENCODE of a nonempty input with a table repeats: the second stream is the first (R182). -/
theorem repeats_encodeBody_of_checks {s : State} (hinfo : s.errInfo = 0) (hwf : s.bits.wf = true)
    (hne : s.inLen ≠ 0) (hfits : s.inLen.toNat ≤ s.params.maxSyms) (htable : s.tableValid = true) :
    Repeats encodeBody s := by
  obtain ⟨l, e, -, hloop⟩ := exists_encodeLoop s.code (8 * s.params.bitBufBytes) 0 s.inputSymbols
    (l := []) (Nat.zero_le _)
  obtain ⟨w, hw, hholds⟩ := hloop s.bits _ (openWriter_holds hwf)
  obtain ⟨-, -, hwf', -⟩ := hholds.close
  obtain ⟨w', hw', hholds'⟩ := hloop w.close.bits _ (openWriter_holds hwf')
  have hbits := hholds.bits_close_again hholds'
  rcases e with _ | ⟨e, i⟩
  · refine repeats_of_finished ((encodeBody_of_checks hne hfits htable).trans
      (encodeStream_finished hw hholds)) hinfo fun v hold => ?_
    refine ((encodeBody_of_checks (s := accept v hold (finish (storeBits w.close.bits l.length s)))
      hne hfits htable).trans (encodeStream_finished hw' hholds')).trans ?_
    rw [hbits]
    rfl
  · refine repeats_of_raised ((encodeBody_of_checks hne hfits htable).trans
      (encodeStream_raised hw hholds)) fun v hold => ?_
    refine ((encodeBody_of_checks
      (s := accept v hold (raise e _ (storeBits w.close.bits l.length s)))
      hne hfits htable).trans (encodeStream_raised hw' hholds')).trans ?_
    rw [hbits]
    rfl

theorem repeats_encodeBody {s : State} (hinfo : s.errInfo = 0) (hwf : s.bits.wf = true) :
    Repeats encodeBody s := by
  obtain hout | hfits := Nat.lt_or_ge s.params.maxSyms s.inLen.toNat
  · exact repeats_of_raised (encodeBody_of_not_inputFits (State.inputFits_eq_false hout))
      fun v hold => encodeBody_of_not_inputFits (State.inputFits_eq_false hout)
  by_cases hzero : s.inLen = 0
  · exact repeats_of_finished (encodeBody_of_inLen_zero hzero) hinfo
      fun v hold => encodeBody_of_inLen_zero (s := accept v hold _) hzero
  cases htable : s.tableValid with
  | true => exact repeats_encodeBody_of_checks hinfo hwf hzero hfits htable
  | false =>
    exact repeats_of_raised (encodeBody_of_not_tableValid hzero hfits htable)
      fun v hold => encodeBody_of_not_tableValid (s := accept v hold _) hzero hfits htable

theorem emitted_accept_finish (out : List Sym) (v : Word) (hold : Nat) (s : State) :
    emitted out (accept v hold (finish s)) = accept v hold (finish (emitted out s)) := rfl

theorem emitted_accept_raise (out : List Sym) (v : Word) (hold : Nat) (e : ErrCode) (info : Word)
    (s : State) :
    emitted out (accept v hold (raise e info s)) = accept v hold (raise e info (emitted out s)) := rfl

/-- The same symbols written again change nothing. -/
theorem emitted_emitted {s : State} (h : s.symOut.wf = true) (out : List Sym) :
    emitted out (emitted out s) = emitted out s := by
  simp only [emitted, Memory.writeFrom_writeFrom h]

/-- DECODE repeats: the second output is the first (R201). -/
theorem repeats_decodeBody {s : State} (hinfo : s.errInfo = 0) (hwf : s.symOut.wf = true) :
    Repeats decodeBody s := by
  obtain hout | hfits := Nat.lt_or_ge (8 * s.params.bitBufBytes) s.decBits.toNat
  · exact repeats_of_raised (decodeBody_of_not_streamFits (State.streamFits_eq_false hout))
      fun v hold => decodeBody_of_not_streamFits (State.streamFits_eq_false hout)
  by_cases hzero : s.decBits = 0
  · exact repeats_of_finished (decodeBody_of_decBits_zero hzero) hinfo
      fun v hold => decodeBody_of_decBits_zero (s := accept v hold _) hzero
  have hbody {t : State} (ht : s.SameStream t) :
      decodeBody t = if s.treeValid then decodeStream t else .raised .noTree 0 t := by
    rw [decodeBody_of_stream (ht.decBits.symm ▸ hzero) (by rwa [ht.decBits, ht.params]), ht.treeValid]
  cases htree : s.treeValid with
  | false =>
    simp only [htree, Bool.false_eq_true, if_false] at hbody
    exact repeats_of_raised (hbody (.refl s)) fun v hold => hbody (by constructor <;> rfl)
  | true =>
    simp only [htree, if_true] at hbody
    obtain ⟨out, stop, -, -, hstream⟩ := exists_decodeStream s
    have hends {t : State} (ht : s.SameStream t) : decodeBody t = concludeDecode out stop t :=
      (hbody ht).trans (hstream t ht)
    rcases stop with _ | ⟨e, info⟩
    · refine repeats_of_finished (hends (.refl s)) hinfo fun v hold => ?_
      rw [hends (t := accept v hold (finish (emitted out s))) (by constructor <;> rfl), concludeDecode,
        emitted_accept_finish, emitted_emitted hwf]
    · refine repeats_of_raised (hends (.refl s)) fun v hold => ?_
      rw [hends (t := accept v hold (raise e info (emitted out s))) (by constructor <;> rfl),
        concludeDecode, emitted_accept_raise, emitted_emitted hwf]

theorem EncodeOutcome.conclude_inLen {s : State} {r : Ended} (h : EncodeOutcome s r) :
    r.conclude.inLen = s.inLen := by
  cases h <;> rfl

theorem EncodeOutcome.conclude_params {s : State} {r : Ended} (h : EncodeOutcome s r) :
    r.conclude.params = s.params := by
  cases h <;> rfl

/-- Tables that COMPRESS has made of the input are those it makes again (R226). -/
theorem prepared_accept_of_outcome {s : State} {r : Ended} (h : EncodeOutcome s.prepared r) (v : Word)
    (hold : Nat) : (accept v hold r.conclude).prepared = accept v hold r.conclude := by
  have hcounts : (accept v hold r.conclude).counts = s.counts := by cases h <;> rfl
  rw [State.prepared, hcounts]
  cases h <;> rfl

/-- COMPRESS repeats: the second time, the first three stages leave the tables they find (R226). -/
theorem repeats_compressBody {s : State} (hinfo : s.errInfo = 0) (hwf : s.bits.wf = true) :
    Repeats compressBody s := by
  obtain hout | hfits := Nat.lt_or_ge s.params.maxSyms s.inLen.toNat
  · exact repeats_of_raised (compressBody_of_not_inputFits (State.inputFits_eq_false hout))
      fun v hold => compressBody_of_not_inputFits (State.inputFits_eq_false hout)
  by_cases hzero : s.inLen = 0
  · exact repeats_of_finished (compressBody_of_empty hzero) hinfo
      fun v hold => compressBody_of_empty (s := accept v hold _) hzero
  intro v hold
  have hends := encodeBody_outcome s.prepared
  have hzero' : (accept v hold (encodeBody s.prepared).conclude).inLen ≠ 0 :=
    fun h => hzero (hends.conclude_inLen.symm.trans h)
  have hfits' : (encodeBody s.prepared).conclude.inLen.toNat ≤
      (encodeBody s.prepared).conclude.params.maxSyms := by
    rwa [hends.conclude_inLen, hends.conclude_params]
  rw [compressBody_of_nonempty hzero hfits,
    compressBody_of_nonempty (s := accept v hold (encodeBody s.prepared).conclude) hzero' hfits',
    prepared_accept_of_outcome hends]
  exact repeats_encodeBody (s := s.prepared) hinfo hwf v hold

/-- Settles O46: command by command. -/
theorem commandsAreIdempotent : Obligations.CommandsAreIdempotent := by
  intro i s hbuffers _ hinfo
  obtain ⟨hwfBits, -⟩ := hbuffers .bits
  obtain ⟨hwfOut, -⟩ := hbuffers .symOut
  refine ⟨_, exec_eq i s, fun v hold => ?_⟩
  have hrepeats : Repeats (bodyOf i) s := by
    cases i with
    | nop => exact repeats_of_finished rfl hinfo fun _ _ => rfl
    | count => exact repeats_countBody hinfo
    | build => exact repeats_buildBody hinfo
    | table => exact repeats_tableBody hinfo
    | encode => exact repeats_encodeBody hinfo hwfBits
    | decode => exact repeats_decodeBody hinfo hwfOut
    | compress => exact repeats_compressBody hinfo hwfBits
    | lookup a => exact repeats_lookupBody hinfo a
    | clear => exact repeats_of_finished rfl hinfo fun _ _ => rfl
  rw [exec_eq, hrepeats v hold]

end Sys2Proof.Machine

/-!
PROOFS. The host port (20_memory.md R70 to R77; 10_state.md R22 to R59): what a read at each offset
returns, what a write there does, and bad accesses.
-/

namespace Sys2Proof.Machine

/-- A host read returns the value of what its offset names. -/
theorem hostRead_readTarget (s : State) {off : Nat} (h : off < 0x400000) (h4 : off % 4 = 0) :
    hostRead off s =
      { s with resp := some (.readOk (readTarget s (targetOf off))), draws := s.draws + 1 } :=
  hostRead_of_readTarget h h4 rfl

/-- While idle it returns the stored value. -/
theorem hostRead_idle {s : State} (hidle : s.seq = .idle) {off : Nat} {t : Target}
    (h : off < 0x400000) (h4 : off % 4 = 0) (ht : targetOf off = t) :
    hostRead off s = { s with resp := some (.readOk (readIdle s t)), draws := s.draws + 1 } :=
  hostRead_of_readTarget h h4 (ht ▸ readTarget_idle hidle _)

/-- While busy it returns what `readBusy` makes of a free value. -/
theorem hostRead_busy {s : State} {w : Word} {hold : Nat} (hbusy : s.seq = .busy w hold) {off : Nat}
    {t : Target} (h : off < 0x400000) (h4 : off % 4 = 0) (ht : targetOf off = t) :
    hostRead off s =
      { s with resp := some (.readOk (readBusy s (Config.freeWord s.draws) t)),
               draws := s.draws + 1 } :=
  hostRead_of_readTarget h h4 (ht ▸ readTarget_busy hbusy _)

/-- A host write does what the write of what its offset names does, and answers without a bus error. -/
theorem hostWrite_writeTarget (s : State) {off : Nat} {v : Word} {t : Target} (h : off < 0x400000)
    (h4 : off % 4 = 0) (ht : targetOf off = t) :
    hostWrite off v s = { writeTarget v s t with resp := some .writeOk } := by
  rw [hostWrite_eq s h h4, ht]
  rfl

theorem State.seq_cases (s : State) : s.seq = .idle ∨ ∃ w hold, s.seq = .busy w hold := by
  cases s.seq with
  | idle => exact .inl rfl
  | busy w hold => exact .inr ⟨w, hold, rfl⟩

theorem State.isBusy_idle {s : State} (h : s.seq = .idle) : s.isBusy = false := by
  simp only [State.isBusy, h]

theorem State.isBusy_busy {s : State} {w : Word} {hold : Nat} (h : s.seq = .busy w hold) :
    s.isBusy = true := by
  simp only [State.isBusy, h]

/-! Bad accesses (R73, R262). -/

theorem hostAccess_not_aligned {s : State} {a : Access} (hhits : hits s.params a.addr = true)
    (h : a.aligned = false) : hostAccess a s = accessError a.op s := by
  rw [hostAccess, if_pos hhits, h, if_neg Bool.false_ne_true]

theorem hostAccess_outside {s : State} {a : Access} (h : hits s.params a.addr = false) :
    hostAccess a s = { s with resp := none } := by
  rw [hostAccess, h, if_neg Bool.false_ne_true]

/-- Settles O48: the access is in the region but not aligned, or not in the region. -/
theorem badAccessGetsABusError : Obligations.BadAccessGetsABusError := by
  refine ⟨fun s a hlow hhigh hbad => ?error, fun s a hout => ?outside⟩
  case error =>
    have hhits : hits s.params a.addr = true := by simp [hits, hlow, hhigh]
    have haligned : a.aligned = false := by
      rw [Access.aligned, Bool.and_eq_false_iff, beq_eq_false_iff_ne, beq_eq_false_iff_ne]
      exact hbad
    rw [hostAccess_not_aligned hhits haligned]
    refine ⟨fun v hop => ?_, fun hop => ⟨Config.freeWord s.draws, ?_⟩⟩
    · rw [hop]; rfl
    · rw [hop]; rfl
  case outside =>
    refine hostAccess_outside ?_
    rw [hits, Bool.and_eq_false_iff, decide_eq_false_iff_not, decide_eq_false_iff_not]
    omega

/-! STATUS and CTRL (R22 to R30, R32, R59). -/

theorem targetOf_status : targetOf 0x008 = .reg .status := targetOf_reg (by decide)

theorem targetOf_ctrl : targetOf 0x004 = .reg .ctrl := targetOf_reg (by decide)

theorem isError_iff (e : ErrCode) : e.isError = (e != .none) := by cases e <;> decide

theorem statusOf_busy_high (empty treeValid tableValid overrun : Bool) :
    (statusOf true false empty treeValid tableValid overrun .none).extractLsb' 8 24 = 0#24 := by
  revert empty treeValid tableValid overrun
  decide

/-- A read of STATUS while busy shows BUSY and OVERRUN, and no report (R30). -/
theorem statusBusy_fields (s : State) (free : Word) :
    (s.statusBusy free).getLsbD 0 = true ∧ (s.statusBusy free).getLsbD 1 = false ∧
      (s.statusBusy free).getLsbD 2 = false ∧ (s.statusBusy free).getLsbD 6 = s.overrun ∧
      (s.statusBusy free).getLsbD 7 = false ∧ (s.statusBusy free).extractLsb' 8 24 = 0#24 := by
  obtain ⟨h0, h1, h2, -, -, -, h6, h7, -⟩ := statusOf_fields true false (free.getLsbD 3)
    (free.getLsbD 4) (free.getLsbD 5) s.overrun .none
  exact ⟨h0, h1, h2, h6, h7, statusOf_busy_high _ _ _ _⟩

/-- A read of STATUS while busy (R30). -/
theorem hostRead_status_busy {s : State} {w : Word} {hold : Nat} (h : s.seq = .busy w hold) :
    hostRead 0x008 s =
      { s with resp := some (.readOk (s.statusBusy (Config.freeWord s.draws))),
               draws := s.draws + 1 } := by
  rw [hostRead_busy h (by decide) (by decide) targetOf_status, readBusy, State.regBusy]

/-- CTRL reads IE in bit 0, idle or busy (R32). -/
theorem hostRead_ctrl (s : State) :
    hostRead 0x004 s =
      { s with resp := some (.readOk (BitVec.ofNat 32 s.ie.toNat)), draws := s.draws + 1 } :=
  hostRead_of_readTarget (by decide) (by decide)
    (targetOf_ctrl ▸ readTarget_always rfl fun _ => rfl)

/-- Settles O49: `writeStatus`, busy or idle. -/
theorem statusWriteClearsDoneAndOverrun : Obligations.StatusWriteClearsDoneAndOverrun := by
  intro s v
  rw [hostWrite_writeTarget s (by decide) (by decide) targetOf_status]
  simp only [writeTarget, writeReg, writeStatus]
  cases v.getLsbD 1 <;> cases v.getLsbD 6 <;> simp

/-- Settles O50: the fields of the STATUS word. -/
theorem statusReadsBitByBit : Obligations.StatusReadsBitByBit := by
  refine ⟨fun s hidle => ⟨s.statusIdle, hostRead_status_idle hidle, ?idle⟩,
    fun s w hold hbusy => ⟨s.statusBusy _, hostRead_status_busy hbusy,
      statusBusy_fields s _⟩⟩
  case idle =>
    obtain ⟨h0, h1, h2, h3, h4, h5, h6, h7, hcode, hhigh⟩ := statusOf_fields false s.done s.empty
      s.treeValid s.tableValid s.overrun s.errCode
    rw [isError_iff] at h2
    refine ⟨h0, h1, h2, h3, h4, h5, h6, h7, hhigh, ?_, ?_, ?_, ?_, ?_, ?_, ?_, ?_⟩ <;>
    · intro he
      exact hcode.trans (congrArg ErrCode.code he)

/-- Settles O54: CTRL shows IE, STATUS shows DONE, and while busy the report is cleared. -/
theorem irqIsEnableAndDone : Obligations.IrqIsEnableAndDone := by
  have hctrl (b : Bool) : (BitVec.ofNat 32 b.toNat).getLsbD 0 = b := by cases b <;> rfl
  have hlow {s : State} {w : Word} {hold : Nat} (hbusy : s.seq = .busy w hold) (hok : s.ReportOk) :
      s.irq = false := by
    obtain ⟨hdone, -⟩ := hok.busyClears (State.isBusy_busy hbusy)
    rw [State.irq, hdone, Bool.and_false]
  refine ⟨fun _ => rfl, fun s hs => ?reads, fun s w hold hbusy hok => hlow hbusy hok, fun _ => rfl⟩
  case reads =>
    obtain hseq | ⟨w, hold, hseq⟩ := s.seq_cases
    · have hdone := (statusOf_fields false s.done s.empty s.treeValid s.tableValid s.overrun
        s.errCode).2.1
      refine ⟨_, s.statusIdle, hostRead_ctrl s, hostRead_status_idle hseq, ?_⟩
      rw [hctrl, State.statusIdle, hdone, State.irq]
    · have hok : s.ReportOk := hs.resolve_left (by rw [hseq]; nofun)
      obtain ⟨-, hdone, -⟩ := statusBusy_fields s (Config.freeWord s.draws)
      refine ⟨_, s.statusBusy _, hostRead_ctrl s, hostRead_status_busy hseq, ?_⟩
      rw [hlow hseq hok, hdone, Bool.and_false]

end Sys2Proof.Machine

/-!
PROOFS. The host's view of the tables (10_state.md R46 to R48), of the buffer windows (20_memory.md R70 to
R77) and of the operand and result registers (10_state.md R32 to R44).
-/

namespace Sys2Proof.Machine

/-! FREQ, TREE and CODE. -/

theorem freqOffset_ok (a : Sym) : 0x400 + 4 * a.toNat < 0x400000 ∧ (0x400 + 4 * a.toNat) % 4 = 0 := by
  have : a.toNat < 256 := a.isLt
  omega

/-- A write to a FREQ entry while idle (R46). -/
theorem hostWrite_freq_idle {s : State} (hidle : s.seq = .idle) (a : Sym) (v : Word) :
    hostWrite (0x400 + 4 * a.toNat) v s =
      { s with freq := setEntry s.freq a v, treeValid := false, tableValid := false,
               resp := some .writeOk } := by
  obtain ⟨hlt, h4⟩ := freqOffset_ok a
  rw [hostWrite_writeTarget s hlt h4 (targetOf_freq a), writeTarget, writeFreq, State.isBusy_idle hidle,
    if_neg Bool.false_ne_true]

/-- A write to a FREQ entry while busy is dropped (R46). -/
theorem hostWrite_freq_busy {s : State} {w : Word} {hold : Nat} (hbusy : s.seq = .busy w hold)
    (a : Sym) (v : Word) :
    hostWrite (0x400 + 4 * a.toNat) v s = { s with resp := some .writeOk } := by
  obtain ⟨hlt, h4⟩ := freqOffset_ok a
  refine hostWrite_of_ignored hlt h4 ?_
  rw [targetOf_freq, writeTarget, writeFreq, State.isBusy_busy hbusy, if_pos rfl]

/-- A read of a word of a TREE record while idle (R47). -/
theorem hostRead_treeWord {s : State} (hidle : s.seq = .idle) {i : NodeIdx} (hi : i.toNat < 511)
    (w : Fin 4) {off : Nat} (hoff : off = 0x2000 + 16 * i.toNat + 4 * w.val) :
    hostRead off s =
      { s with resp := some (.readOk (treeRecordWord (nodeAt s.tree i) w)), draws := s.draws + 1 } := by
  subst hoff
  have hw : w.val < 4 := w.isLt
  exact hostRead_idle hidle (by omega) (by omega) (targetOf_tree hi w)

theorem hostRead_codeLen {s : State} (hidle : s.seq = .idle) (a : Sym) :
    hostRead (0x4000 + 4 * a.toNat) s =
      { s with resp := some (.readOk (codeLenWord (entryOf s.code a))), draws := s.draws + 1 } := by
  have : a.toNat < 256 := a.isLt
  exact hostRead_idle hidle (by omega) (by omega) (targetOf_codeLen a)

theorem hostRead_codeBits {s : State} (hidle : s.seq = .idle) (a : Sym) (k : Fin 8) :
    hostRead (0x6000 + 32 * a.toNat + 4 * k.val) s =
      { s with resp := some (.readOk (codeBitsWord (entryOf s.code a) k)),
               draws := s.draws + 1 } := by
  have : a.toNat < 256 := a.isLt
  have : k.val < 8 := k.isLt
  exact hostRead_idle hidle (by omega) (by omega) (targetOf_codeBits a k)

/-- CODE_BITS word `k` holds bits `32k` to `32k + 31` (R48). -/
theorem getLsbD_codeBitsWord (e : CodeEntry) (k : Fin 8) {j : Nat} (h : j < 32) :
    (codeBitsWord e k).getLsbD j = e.bits.getLsbD (32 * k.val + j) := by
  simp [codeBitsWord, h]

/-- The place of a node 511 names nothing (R47). -/
theorem targetOf_node511 {off : Nat} (h : 0x3FF0 ≤ off) (h' : off < 0x4000) :
    targetOf off = .reserved := by
  rw [targetOf_low (by omega)]
  unfold tableTarget
  repeat rw [if_neg (by omega)]
  rw [if_pos h']

/-- Settles O51: each offset names its entry, record word or code word. -/
theorem freqWriteStoresAndInvalidates : Obligations.FreqWriteStoresAndInvalidates := by
  refine ⟨fun s a v => ⟨fun hidle => ?freqIdle, fun w hold hbusy => ?freqBusy⟩,
    fun s i hidle hi => ?tree, fun s a hidle => ?codeLen, fun s a k hidle => ?codeBits,
    fun s off w hold _ h4 hro => ?busy, fun s off hlow hhigh h4 => ?node511⟩
  case freqIdle =>
    obtain ⟨hlt, h4⟩ := freqOffset_ok a
    exact ⟨hostWrite_freq_idle hidle a v, hostRead_idle hidle hlt h4 (targetOf_freq a),
      entryOf_setEntry s.freq a v⟩
  case freqBusy =>
    obtain ⟨hlt, h4⟩ := freqOffset_ok a
    exact ⟨hostWrite_freq_busy hbusy a v, _, hostRead_readTarget s hlt h4⟩
  case tree =>
    have hread (w : Fin 4) {off : Nat} := hostRead_treeWord hidle hi w (off := off)
    obtain ⟨hlow, hhigh⟩ := treeRecordWord_one (nodeAt s.tree i)
    exact ⟨_, _, _, hread 0 rfl, hread 1 (by simp; omega),
      hread 2 (by simp; omega), hread 3 (by simp; omega), rfl,
      hlow, hhigh, treeRecordWord_two (nodeAt s.tree i)⟩
  case codeLen => exact ⟨_, hostRead_codeLen hidle a, codeLenWord_fields (entryOf s.code a)⟩
  case codeBits =>
    exact ⟨_, hostRead_codeBits hidle a k, fun j hj => getLsbD_codeBitsWord (entryOf s.code a) k hj⟩
  case busy => exact ⟨_, hostRead_readTarget s (readOnlyOffset_lt hro) h4⟩
  case node511 =>
    exact hostRead_of_readTarget (by omega) h4 (targetOf_node511 hlow hhigh ▸ readTarget_reserved s)

/-! The buffer windows. -/

theorem windowOffset_ok (b : BufferId) {w : Nat} (h : w < 2 ^ 18) :
    windowBase b + 4 * w < 0x400000 ∧ (windowBase b + 4 * w) % 4 = 0 := by
  cases b <;> simp only [windowBase] <;> omega

/-- A buffer write while idle reaches the buffer and no other (R51, R77). -/
theorem buffer_writeBuffer_idle {s : State} (hidle : s.seq = .idle) {b : BufferId} (hb : b ≠ .symOut)
    (first : Nat) (v : Word) (b' : BufferId) :
    (writeBuffer b first v s).buffer b' =
      if b' = b then writeWindow (s.params.capacity b) first v (s.buffer b) else s.buffer b' := by
  unfold writeBuffer
  rw [State.isBusy_idle hidle, if_neg Bool.false_ne_true]
  cases b with
  | symIn => cases b' <;> rfl
  | bits => cases b' <;> rfl
  | symOut => exact absurd rfl hb

/-- A buffer write changes at most SYM_IN and BITS (R51). -/
theorem writeBuffer_frame (b : BufferId) (first : Nat) (v : Word) (s : State) :
    writeBuffer b first v s =
      { s with symIn := (writeBuffer b first v s).symIn, bits := (writeBuffer b first v s).bits } := by
  unfold writeBuffer
  split
  · rfl
  · cases b <;> rfl

theorem writeBuffer_busy {s : State} {w : Word} {hold : Nat} (hbusy : s.seq = .busy w hold)
    (b : BufferId) (first : Nat) (v : Word) : writeBuffer b first v s = s := by
  unfold writeBuffer
  rw [State.isBusy_busy hbusy, if_pos rfl]

theorem hostWrite_window (s : State) (b : BufferId) {w : Nat} (h : w < 2 ^ 18) (v : Word) :
    hostWrite (windowBase b + 4 * w) v s =
      { writeBuffer b (4 * w) v s with resp := some .writeOk } := by
  obtain ⟨hlt, h4⟩ := windowOffset_ok b h
  exact hostWrite_writeTarget s hlt h4 (targetOf_window b h)

theorem hostRead_window_idle {s : State} (hidle : s.seq = .idle) (b : BufferId) {w : Nat}
    (h : w < 2 ^ 18) :
    hostRead (windowBase b + 4 * w) s =
      { s with
        resp := some (.readOk (windowWord (s.params.capacity b) (4 * w)
          fun j => (s.buffer b).read (4 * w + j)))
        draws := s.draws + 1 } := by
  obtain ⟨hlt, h4⟩ := windowOffset_ok b h
  exact hostRead_idle hidle hlt h4 (targetOf_window b h)

theorem hostRead_window_busy {s : State} {cmdl : Word} {hold : Nat} (hbusy : s.seq = .busy cmdl hold)
    (b : BufferId) {w : Nat} (h : w < 2 ^ 18) :
    hostRead (windowBase b + 4 * w) s =
      { s with
        resp := some (.readOk (windowWord (s.params.capacity b) (4 * w)
          (byteOf (Config.freeWord s.draws))))
        draws := s.draws + 1 } := by
  obtain ⟨hlt, h4⟩ := windowOffset_ok b h
  exact hostRead_busy hbusy hlt h4 (targetOf_window b h)

/-- Byte `j` of a word of a window (R70, R77). -/
theorem extractLsb'_windowWord (cap first : Nat) (byteAt : Nat → Byte) {j : Nat} (h : j < 4) :
    (windowWord cap first byteAt).extractLsb' (8 * j) 8 = if first + j < cap then byteAt j else 0#8 :=
  extractLsb'_wordOf _ h

/-- Stream bit `k` in its word of the BITS window (R71). -/
theorem getLsbD_windowWord_stream (m : Memory) (cap k : Nat) :
    (windowWord cap (4 * (k / 32)) fun j => m.read (4 * (k / 32) + j)).getLsbD
        (8 * (k / 8 % 4) + 7 - k % 8) =
      if k / 8 < cap then streamBit m k else false := by
  have hbyte := extractLsb'_windowWord cap (4 * (k / 32)) (fun j => m.read (4 * (k / 32) + j))
    (j := k / 8 % 4) (by omega)
  have hindex : 4 * (k / 32) + k / 8 % 4 = k / 8 := by omega
  have hplace : 8 * (k / 8 % 4) + 7 - k % 8 = 8 * (k / 8 % 4) + (7 - k % 8) := by omega
  have hbit := congrArg (fun x : Byte => x.getLsbD (7 - k % 8)) hbyte
  simp only [hindex, BitVec.getLsbD_extractLsb', show 7 - k % 8 < 8 by omega, decide_true,
    Bool.true_and] at hbit
  rw [hplace, hbit]
  split
  · rfl
  · exact BitVec.getLsbD_zero

/-- Settles O52: the write reaches the bytes of its word below the capacity. -/
theorem symInWordWriteIsLittleEndian : Obligations.SymInWordWriteIsLittleEndian := by
  refine ⟨fun s b w v hidle hb hwf hw => ?idle, fun s w v hw => ?symOut,
    fun s b w v cmdl hold hbusy hw => ?busy⟩
  case idle =>
    have hbuffer := buffer_writeBuffer_idle hidle hb (4 * w) v
    have hbyte (a : Nat) := read_writeWindow hwf (s.params.capacity b) (4 * w) v a
    refine ⟨_, hostWrite_window s b hw v, ?frame, fun b' hne => (hbuffer b').trans (if_neg hne),
      fun j hj hcap => ?inside, fun a ha => ?outside⟩
    case frame =>
      rw [writeBuffer_frame b (4 * w) v s]
    case inside =>
      refine (congrArg (Memory.read · (4 * w + j)) ((hbuffer b).trans (if_pos rfl))).trans ?_
      rw [hbyte, if_pos (by omega), Nat.add_sub_cancel_left, byteOf]
    case outside =>
      refine (congrArg (Memory.read · a) ((hbuffer b).trans (if_pos rfl))).trans ?_
      rw [hbyte, if_neg (by omega)]
  case symOut => rw [hostWrite_window s .symOut hw, writeBuffer_symOut]
  case busy => rw [hostWrite_window s b hw, writeBuffer_busy hbusy]

/-- Settles O53: the bytes of a word of a window, and the stream bits in them. -/
theorem bitsWordReadShowsTheStream : Obligations.BitsWordReadShowsTheStream := by
  refine ⟨fun s b w hidle hw => ⟨_, hostRead_window_idle hidle b hw, fun j hj => ?_⟩,
    fun s w hidle hw => ⟨_, hostRead_window_idle hidle .bits hw, fun k hk => ?_⟩,
    fun s b w cmdl hold hbusy hw => ⟨_, hostRead_window_busy hbusy b hw, fun j hj hcap => ?_⟩⟩
  · exact extractLsb'_windowWord _ _ _ hj
  · subst hk
    exact getLsbD_windowWord_stream s.bits s.params.bitBufBytes k
  · rw [extractLsb'_windowWord _ _ _ hj, if_neg (Nat.not_lt_of_ge hcap)]

/-! The operand and result registers, and CTRL. -/

/-- A register read while idle (R44). -/
theorem hostRead_reg_idle {s : State} (hidle : s.seq = .idle) {off : Nat} {r : Reg} (h : off < 0x40)
    (h4 : off % 4 = 0) (hr : regList.getD (off / 4) .id = r) :
    hostRead off s = { s with resp := some (.readOk (s.regValue r)), draws := s.draws + 1 } :=
  hostRead_idle (t := .reg r) hidle (by omega) h4 (hr ▸ targetOf_reg h)

/-- A register write (R44). -/
theorem hostWrite_reg (s : State) {off : Nat} {v : Word} {r : Reg} (h : off < 0x40) (h4 : off % 4 = 0)
    (hr : regList.getD (off / 4) .id = r) :
    hostWrite off v s = { writeReg v s r with resp := some .writeOk } :=
  hostWrite_writeTarget s (by omega) h4 (hr ▸ targetOf_reg h)

/-- The offset of a LK_BITS register, from the offset (R42). -/
theorem exists_targetOf_lkBits {off : Nat} (h : 0x40 ≤ off) (h' : off < 0x60) (h4 : off % 4 = 0) :
    ∃ k : Fin 8, targetOf off = .reg (.lkBits k) := by
  have hoff : 0x40 + 4 * ((off - 0x40) / 4) = off := by omega
  have hk : (off - 0x40) / 4 < 8 := by omega
  exact ⟨⟨_, hk⟩, (congrArg targetOf hoff.symm).trans (targetOf_lkBits ⟨_, hk⟩)⟩

/-- The result registers drop a write (R44). -/
theorem writeTarget_resultReg (s : State) (v : Word) {off : Nat} (h4 : off % 4 = 0)
    (h : off = 0x014 ∨ off = 0x018 ∨ (0x020 ≤ off ∧ off < 0x034) ∨ (0x040 ≤ off ∧ off < 0x060)) :
    writeTarget v s (targetOf off) = s := by
  obtain rfl | rfl | ⟨hlow, hhigh⟩ | ⟨hlow, hhigh⟩ := h
  · rfl
  · rfl
  · rw [targetOf_reg (by omega)]
    have hlow' : 8 ≤ off / 4 := by omega
    have hhigh' : off / 4 < 13 := by omega
    interval_cases off / 4 <;> rfl
  · obtain ⟨k, hk⟩ := exists_targetOf_lkBits hlow hhigh h4
    rw [hk]
    rfl

/-- Settles O60: each offset names its register. -/
theorem registersReadAndWriteByTheirRules : Obligations.RegistersReadAndWriteByTheirRules := by
  refine ⟨fun s v => ⟨?ctrlWrite, ?ctrlRead, ?cmdRead⟩, fun s v hidle => ?operandsIdle,
    fun s v w hold hbusy => ?operandsBusy, fun s off value hidle hmem => ?read,
    fun s k hidle => ?lkBits, fun s off w hold _ h4 hoff => ?busy, fun s off v h4 hoff => ?results⟩
  case ctrlWrite => rw [hostWrite_reg s (r := .ctrl) (by decide) (by decide) rfl, writeReg]
  case ctrlRead =>
    rw [hostRead_ctrl]
    cases s.ie <;> rfl
  case cmdRead =>
    exact hostRead_of_readTarget (by decide) (by decide)
      (targetOf_cmd ▸ readTarget_always rfl fun _ => rfl)
  case operandsIdle =>
    have hnot : ¬ s.isBusy = true := by rw [State.isBusy_idle hidle]; decide
    constructor
    · rw [hostWrite_reg s (r := .inLen) (by decide) (by decide) rfl, writeReg, if_neg hnot]
    · rw [hostWrite_reg s (r := .decBits) (by decide) (by decide) rfl, writeReg, if_neg hnot]
  case operandsBusy =>
    have hb := State.isBusy_busy hbusy
    constructor
    · rw [hostWrite_reg s (r := .inLen) (by decide) (by decide) rfl, writeReg, if_pos hb]
    · rw [hostWrite_reg s (r := .decBits) (by decide) (by decide) rfl, writeReg, if_pos hb]
  case read =>
    simp only [List.mem_cons, Prod.mk.injEq, List.not_mem_nil, or_false] at hmem
    obtain ⟨rfl, rfl⟩ | ⟨rfl, rfl⟩ | ⟨rfl, rfl⟩ | ⟨rfl, rfl⟩ | ⟨rfl, rfl⟩ | ⟨rfl, rfl⟩ | ⟨rfl, rfl⟩ |
      ⟨rfl, rfl⟩ | ⟨rfl, rfl⟩ := hmem <;>
    exact hostRead_reg_idle hidle (by decide) (by decide) rfl
  case lkBits =>
    have hk : k.val < 8 := k.isLt
    exact hostRead_idle hidle (by omega) (by omega) (targetOf_lkBits k)
  case busy => exact ⟨_, hostRead_readTarget s (by omega) h4⟩
  case results => exact hostWrite_of_ignored (by omega) h4 (writeTarget_resultReg s v h4 hoff)

end Sys2Proof.Machine

/-!
PROOFS. Reset (70_reset_and_hazards.md R270 to R273), and how a step keeps what is said of the registers,
tables and buffers: a command does so by its body, and the host by a FREQ entry, a word of SYM_IN or BITS,
or a reset (R290).
-/

namespace Sys2Proof.Machine

/-! Buffers within their capacity. -/

/-- A byte at or above the capacity is not listed. -/
theorem Memory.read_of_within {cap : Nat} {m : Memory} (h : m.within cap = true) {a : Nat}
    (ha : cap ≤ a) : m.read a = Memory.blank := by
  simp only [Memory.within, List.all_eq_true, decide_eq_true_eq] at h
  induction m with
  | nil => rfl
  | cons c m ih =>
    have hc := h c List.mem_cons_self
    rw [Memory.read_cons, if_neg (by omega)]
    exact ih fun d hd => h d (List.mem_cons_of_mem c hd)

/-- A listed byte of a canonical buffer reads as its cell, which is not blank. -/
theorem Memory.read_of_mem {m : Memory} (h : m.wf = true) {d : Host.Cell} (hd : d ∈ m) :
    m.read d.1 = d.2 ∧ d.2 ≠ Memory.blank := by
  induction m with
  | nil => cases hd
  | cons c m ih =>
    obtain ⟨hc, hlt, hm⟩ := (Memory.wf_cons c m).1 h
    rw [Memory.read_cons]
    obtain rfl | hd := List.mem_cons.1 hd
    · exact ⟨if_pos rfl, hc⟩
    · rw [if_neg (hlt d hd).ne]
      exact ih hm hd

/-- A canonical buffer that reads blank from the capacity on lists nothing there. -/
theorem Memory.within_of_read {cap : Nat} {m : Memory} (h : m.wf = true)
    (hread : ∀ a, cap ≤ a → m.read a = Memory.blank) : m.within cap = true := by
  simp only [Memory.within, List.all_eq_true, decide_eq_true_eq]
  intro d hd
  obtain ⟨hcell, hne⟩ := Memory.read_of_mem h hd
  by_contra hge
  exact hne (hcell.symm.trans (hread d.1 (Nat.le_of_not_lt hge)))

theorem Memory.within_writeFrom {cap : Nat} {m : Memory} (h : m.within cap = true) {n : Nat}
    {out : List Byte} (hfit : n + out.length ≤ cap) : (m.writeFrom n out).within cap = true := by
  induction out generalizing m n with
  | nil => exact h
  | cons a out ih =>
    rw [List.length_cons] at hfit
    exact ih (Memory.within_write h (by omega) a) (by omega)

/-- A buffer in its canonical form and within its capacity (R50, R77). -/
def Memory.Ok (cap : Nat) (m : Memory) : Prop := m.wf = true ∧ m.within cap = true

theorem ok_writeWindowByte {cap : Nat} {m : Memory} (h : m.Ok cap) (first : Nat) (v : Word) (j : Nat) :
    (writeWindowByte cap first v j m).Ok cap := by
  unfold writeWindowByte
  split
  · exact ⟨Memory.wf_write h.1 _ _, Memory.within_write h.2 ‹_› _⟩
  · exact h

/-- A host word write keeps the form of the buffer and its capacity (R77). -/
theorem ok_writeWindow {cap : Nat} {m : Memory} (h : m.Ok cap) (first : Nat) (v : Word) :
    (writeWindow cap first v m).Ok cap :=
  ok_writeWindowByte (ok_writeWindowByte (ok_writeWindowByte (ok_writeWindowByte h first v 0)
    first v 1) first v 2) first v 3

/-- The bytes after a reset are within the capacity (R273). -/
theorem ok_ofBytes (byteAt : Nat → Byte) (cap : Nat) : (Memory.ofBytes byteAt cap []).Ok cap :=
  Memory.ofBytes_ok byteAt cap [] le_rfl rfl rfl nofun

theorem buffersOk_iff {s : State} :
    s.BuffersOk ↔ s.symIn.Ok s.params.maxSyms ∧ s.bits.Ok s.params.bitBufBytes ∧
      s.symOut.Ok s.params.outCap := by
  refine ⟨fun h => ⟨h .symIn, h .bits, h .symOut⟩, fun ⟨hin, hbits, hout⟩ b => ?_⟩
  cases b with
  | symIn => exact hin
  | bits => exact hbits
  | symOut => exact hout

theorem buffersOk_applyReset (s : State) : (applyReset s).BuffersOk :=
  buffersOk_iff.2 ⟨ok_ofBytes _ _, ok_ofBytes _ _, ok_ofBytes _ _⟩

/-- Each byte within a capacity is the free value of log entry 3 (R272, R273). -/
theorem read_applyReset (s : State) (b : BufferId) {i : Nat} (h : i < s.params.capacity b) :
    ((applyReset s).buffer b).read i = Config.resetByte s.draws b i := by
  cases b <;> exact (Memory.read_ofBytes _ _ [] nofun i).trans (if_pos h)

/-- The reset input is taken idle, and busy while an event may pass (R270, R272; log entry 15). -/
theorem step_resetInput {s : State} {rest : List HostEvent} (hinbox : s.inbox = .resetInput :: rest)
    (h : s.seq = .idle ∨ ∃ w left, s.seq = .busy w (left + 1)) :
    step s = .next (applyReset { s with inbox := rest }) := by
  obtain hidle | ⟨w, left, hbusy⟩ := h
  · rw [step_idle hidle, serveIdle, hinbox]
  · exact step_busy_reset hbusy hinbox

/-- Settles O55: the reset is taken first, or the command completes first. -/
theorem resetInputAbandonsAndClears : Obligations.ResetInputAbandonsAndClears := by
  refine ⟨fun s rest hinbox h => ?reset, fun s rest w hinbox hbusy => ?complete⟩
  case reset =>
    exact ⟨_, step_resetInput hinbox h, rfl, rfl, buffersOk_applyReset _,
      fun b i hi => read_applyReset { s with inbox := rest } b hi⟩
  case complete =>
    obtain ⟨t, hrun, hidle, hsame⟩ := exists_runCommand w s
    have hstep := step_busy_ready hbusy
    exact ⟨t, hstep.trans hrun, hstep, hidle, hsame.inbox.trans hinbox⟩

/-! What a step keeps. -/

/-- The registers of results, the tables and the buffers: neither the host's side, nor the operand
registers, nor the report of the last command. -/
structure State.SameContents (s t : State) : Prop where
  params : t.params = s.params
  empty : t.empty = s.empty
  treeValid : t.treeValid = s.treeValid
  tableValid : t.tableValid = s.tableValid
  encBits : t.encBits = s.encBits
  encBytes : t.encBytes = s.encBytes
  outLen : t.outLen = s.outLen
  nsym : t.nsym = s.nsym
  root : t.root = s.root
  lkLen : t.lkLen = s.lkLen
  lkBits : t.lkBits = s.lkBits
  freq : t.freq = s.freq
  tree : t.tree = s.tree
  code : t.code = s.code
  symIn : t.symIn = s.symIn
  bits : t.bits = s.bits
  symOut : t.symOut = s.symOut

/-- What is said of the contents alone, and kept by what the commands do to them, by a reset and by the
host's writes to the tables and buffers. -/
structure Kept (P : State → Prop) : Prop where
  contents : ∀ {s t : State}, s.SameContents t → P s → P t
  counted : ∀ {s : State}, P s → P s.counted
  built : ∀ {s : State}, P s → P s.built
  tabled : ∀ {s : State}, s.treeValid = true → P s → P s.tabled
  noStream : ∀ {s : State}, P s → P { s with encBits := 0, encBytes := 0, decBits := 0 }
  stored : ∀ {s : State} {w : Writer}, w.FitsIn s → P s → P (storeStream w.close s)
  noOutput : ∀ {s : State}, P s → P { s with outLen := 0 }
  emitted : ∀ {s : State} {out : List Sym}, out.length ≤ s.params.outCap → P s → P (emitted out s)
  found : ∀ {s : State} (a : Sym), P s → P (loadLookup (entryOf s.code a) s)
  unknown : ∀ {s : State}, P s → P { s with lkLen := 0, lkBits := Vector.replicate 8 0 }
  cleared : ∀ {s : State}, P s → P (clearBody s).state
  reset : ∀ {s : State}, P s → P (applyReset s)
  freq : ∀ {s : State} (a : Sym) (v : Word), P s →
    P { s with freq := setEntry s.freq a v, treeValid := false, tableValid := false }
  symIn : ∀ {s : State} (first : Nat) (v : Word), P s →
    P { s with symIn := writeWindow s.params.maxSyms first v s.symIn }
  bits : ∀ {s : State} (first : Nat) (v : Word), P s →
    P { s with bits := writeWindow s.params.bitBufBytes first v s.bits }

namespace Kept
variable {P : State → Prop} (hP : Kept P)
include hP

theorem countBody (s : State) (h : P s) : P (countBody s).state := by
  have hends := countBody_outcome s
  generalize Machine.countBody s = r at hends
  cases hends with
  | range => exact h
  | counted => exact hP.counted h

theorem tableBody (s : State) (h : P s) : P (tableBody s).state := by
  have hends := tableBody_outcome s
  generalize Machine.tableBody s = r at hends
  cases hends with
  | noTree => exact h
  | tabled htree => exact hP.tabled htree h

theorem encodeBody (s : State) (h : P s) : P (encodeBody s).state := by
  have hends := encodeBody_outcome s
  generalize Machine.encodeBody s = r at hends
  cases hends with
  | range => exact h
  | empty => exact hP.noStream h
  | noTable => exact h
  | whole w hw => exact hP.stored hw h
  | stopped w hw => exact hP.stored hw h

theorem decodeBody (s : State) (h : P s) : P (decodeBody s).state := by
  have hends := decodeBody_outcome s
  generalize Machine.decodeBody s = r at hends
  cases hends with
  | range => exact h
  | empty => exact hP.noOutput h
  | noTree => exact h
  | whole out hfit => exact hP.emitted hfit h
  | stopped out hfit => exact hP.emitted hfit h

theorem lookupBody (a : Sym) (s : State) (h : P s) : P (lookupBody a s).state := by
  have hends := lookupBody_outcome a s
  generalize Machine.lookupBody a s = r at hends
  cases hends with
  | noTable => exact h
  | found => exact hP.found a h
  | unknown => exact hP.unknown h

theorem body (i : Instr) (s : State) (h : P s) : P (bodyOf i s).state := by
  cases i with
  | nop => exact h
  | count => exact hP.countBody s h
  | build => exact hP.built h
  | table => exact hP.tableBody s h
  | encode => exact hP.encodeBody s h
  | decode => exact hP.decodeBody s h
  | compress =>
    exact compressBody_state (R := fun s t => P s → P t) (fun _ => id)
      (fun _ _ _ hst htu h => htu (hst h)) hP.countBody (fun _ => hP.built) hP.tableBody hP.encodeBody
      s h
  | lookup a => exact hP.lookupBody a s h
  | clear => exact hP.cleared h

theorem conclude (i : Instr) {s : State} (h : P s) : P (bodyOf i s).conclude := by
  refine hP.contents ?_ (hP.body i s h)
  cases bodyOf i s <;> constructor <;> rfl

theorem runCommand {w : Word} {s t : State} (h : P s) (hrun : Machine.runCommand w s = .next t) :
    P t := by
  obtain ⟨i, hcommand⟩ | hillegal := runCommand_cases w s
  · rw [hcommand] at hrun
    cases hrun
    exact hP.conclude i h
  · rw [hillegal] at hrun
    cases hrun
    exact hP.contents (by constructor <;> rfl) h

theorem writeTarget {s : State} (h : P s) (v : Word) (t : Target) : P (writeTarget v s t) := by
  obtain hidle | ⟨w, hold, hbusy⟩ := s.seq_cases
  · obtain e | e | e | e | e | e | ⟨a, e⟩ | ⟨first, e⟩ | ⟨first, e⟩ := writeTarget_idle hidle v t <;>
      rw [e]
    · exact h
    · exact hP.contents (by constructor <;> rfl) h
    · exact hP.contents (by constructor <;> rfl) h
    · exact hP.contents (by constructor <;> rfl) h
    · exact hP.contents (by constructor <;> rfl) h
    · exact hP.contents (by constructor <;> rfl) h
    · exact hP.freq a v h
    · exact hP.symIn first v h
    · exact hP.bits first v h
  · obtain e | e | e | e := writeTarget_busy hbusy v t <;> rw [e]
    · exact h
    · exact hP.contents (by constructor <;> rfl) h
    · exact hP.contents (by constructor <;> rfl) h
    · exact hP.contents (by constructor <;> rfl) h

theorem hostAccess {s : State} (h : P s) (a : Access) : P (hostAccess a s) := by
  obtain ⟨v, t, e⟩ | ⟨resp, draws, e⟩ := hostAccess_cases a s <;> rw [e]
  · exact hP.contents (by constructor <;> rfl) (hP.writeTarget h v t)
  · exact hP.contents (by constructor <;> rfl) h

theorem serveIdle {s : State} (h : P s) : P (serveIdle s) := by
  have hinbox (rest : List HostEvent) : P { s with inbox := rest } :=
    hP.contents (by constructor <;> rfl) h
  unfold Machine.serveIdle
  split
  · exact h
  next a rest _ => exact hP.hostAccess (hinbox rest) a
  next rest _ => exact hP.contents (by constructor <;> rfl) (hinbox rest)
  next rest _ => exact hP.reset (hinbox rest)

/-- What is kept by every part of a step is kept by the step. -/
theorem step {s t : State} (h : P s) (hstep : step s = .next t) : P t := by
  obtain ⟨w, hold, -, hcase⟩ | ⟨-, hcase⟩ | ⟨w, left, a, rest, -, -, hcase⟩ |
    ⟨w, left, rest, -, -, hcase⟩ := step_cases s
  · exact hP.runCommand h (hcase.symm.trans hstep)
  · cases hcase.symm.trans hstep
    exact hP.serveIdle h
  · cases hcase.symm.trans hstep
    exact hP.hostAccess (hP.contents (by constructor <;> rfl) h) a
  · cases hcase.symm.trans hstep
    exact hP.reset (hP.contents (by constructor <;> rfl) h)

end Kept

end Sys2Proof.Machine

/-!
PROOFS. What every step keeps (10_state.md section 5, R49, R50): the buffers in their canonical form, and
the flags and tables as BUILD and TABLE leave them.
-/

namespace Sys2Proof.Machine

/-! The buffers (R50, R77). -/

/-- The form of the buffers is a property of the buffers and their capacities. -/
theorem State.BuffersOk.congr {s t : State} (h : s.BuffersOk) (hparams : t.params = s.params)
    (hin : t.symIn = s.symIn) (hbits : t.bits = s.bits) (hout : t.symOut = s.symOut) : t.BuffersOk := by
  rw [buffersOk_iff] at h ⊢
  rwa [hparams, hin, hbits, hout]

/-- Closing a writer whose stream fits BITS writes no byte beyond it (R185). -/
theorem Writer.FitsIn.ok_close {w : Writer} {s : State} (hw : w.FitsIn s)
    (h : s.bits.Ok s.params.bitBufBytes) : w.close.bits.Ok s.params.bitBufBytes := by
  obtain ⟨hwf, hwithin⟩ := h
  obtain ⟨l, hfit, hholds⟩ := hw hwf
  obtain ⟨-, -, hwf', -, hrest⟩ := hholds.close
  refine ⟨hwf', Memory.within_of_read hwf' fun a ha => ?_⟩
  rw [hrest a (by omega), Memory.read_of_within hwithin ha]

/-- Symbols that fit SYM_OUT are written below OUT_CAP (R201). -/
theorem Memory.Ok.writeFrom {cap : Nat} {m : Memory} (h : m.Ok cap) {out : List Sym}
    (hfit : out.length ≤ cap) : (m.writeFrom 0 out).Ok cap :=
  ⟨Memory.wf_writeFrom h.1 0 out, Memory.within_writeFrom h.2 ((Nat.zero_add _).trans_le hfit)⟩

/-- Only ENCODE, DECODE, the host and a reset write a buffer. -/
theorem kept_buffersOk : Kept State.BuffersOk where
  contents hsame h := h.congr hsame.params hsame.symIn hsame.bits hsame.symOut
  counted h := h.congr rfl rfl rfl rfl
  built h := h.congr rfl rfl rfl rfl
  tabled _ h := h.congr rfl rfl rfl rfl
  noStream h := h.congr rfl rfl rfl rfl
  stored hw h := by
    obtain ⟨hin, hbits, hout⟩ := buffersOk_iff.1 h
    exact buffersOk_iff.2 ⟨hin, hw.ok_close hbits, hout⟩
  noOutput h := h.congr rfl rfl rfl rfl
  emitted hfit h := by
    obtain ⟨hin, hbits, hout⟩ := buffersOk_iff.1 h
    exact buffersOk_iff.2 ⟨hin, hbits, hout.writeFrom hfit⟩
  found _ h := h.congr rfl rfl rfl rfl
  unknown h := h.congr rfl rfl rfl rfl
  cleared h := h.congr rfl rfl rfl rfl
  reset _ := buffersOk_applyReset _
  freq _ _ h := h.congr rfl rfl rfl rfl
  symIn first v h := by
    obtain ⟨hin, hbits, hout⟩ := buffersOk_iff.1 h
    exact buffersOk_iff.2 ⟨ok_writeWindow hin first v, hbits, hout⟩
  bits first v h := by
    obtain ⟨hin, hbits, hout⟩ := buffersOk_iff.1 h
    exact buffersOk_iff.2 ⟨hin, ok_writeWindow hbits first v, hout⟩

/-- Settles O58: every write to a buffer is within its capacity. -/
theorem stepKeepsBuffersCanonical : Obligations.StepKeepsBuffersCanonical :=
  fun _ _ h hstep => kept_buffersOk.step h hstep

/-! The flags and tables (R49). -/

/-- R49 speaks of the three flags, the tables, NSYM and ROOT alone. -/
theorem State.TablesConsistent.congr {s t : State} (h : s.TablesConsistent) (hempty : t.empty = s.empty)
    (htreeValid : t.treeValid = s.treeValid) (htableValid : t.tableValid = s.tableValid)
    (hnsym : t.nsym = s.nsym) (hroot : t.root = s.root) (hfreq : t.freq = s.freq)
    (htree : t.tree = s.tree) (hcode : t.code = s.code) : t.TablesConsistent where
  tableNeedsTree := by rw [htableValid, htreeValid]; exact h.tableNeedsTree
  treeCurrent := by rw [htreeValid, htree, hnsym, hroot, hfreq]; exact h.treeCurrent
  tableCurrent := by rw [htableValid, hcode, htree, hroot]; exact h.tableCurrent
  treeNotEmpty := by rw [htreeValid, hempty]; exact h.treeNotEmpty

/-- BUILD makes the tree of the current counts, or none (R140, R146). -/
theorem tablesConsistent_built (s : State) : s.built.TablesConsistent := by
  obtain hzero | hpos := Nat.eq_zero_or_pos (distinctSymbols s.freq)
  · refine tablesConsistent_of_invalid ?_ rfl
    simp [State.built, hzero]
  · refine tablesConsistent_of_built hpos rfl rfl rfl nofun ?_ ?_
    · simp [State.built, hpos.ne']
    · simp [State.built, hpos.ne']

/-- TABLE makes the code table of the tree that is there (R160). -/
theorem State.TablesConsistent.tabled {s : State} (htree : s.treeValid = true)
    (h : s.TablesConsistent) : s.tabled.TablesConsistent where
  tableNeedsTree _ := htree
  treeCurrent := h.treeCurrent
  tableCurrent _ := rfl
  treeNotEmpty := h.treeNotEmpty

/-- COUNT, CLEAR, a reset and the host's write to FREQ clear the flags; BUILD and TABLE set them with the
tables they make; nothing else touches either. -/
theorem kept_tablesConsistent : Kept State.TablesConsistent where
  contents hsame h := h.congr hsame.empty hsame.treeValid hsame.tableValid hsame.nsym hsame.root
    hsame.freq hsame.tree hsame.code
  counted _ := tablesConsistent_of_invalid rfl rfl
  built _ := tablesConsistent_built _
  tabled htree h := h.tabled htree
  noStream h := h.congr rfl rfl rfl rfl rfl rfl rfl rfl
  stored _ h := h.congr rfl rfl rfl rfl rfl rfl rfl rfl
  noOutput h := h.congr rfl rfl rfl rfl rfl rfl rfl rfl
  emitted _ h := h.congr rfl rfl rfl rfl rfl rfl rfl rfl
  found _ h := h.congr rfl rfl rfl rfl rfl rfl rfl rfl
  unknown h := h.congr rfl rfl rfl rfl rfl rfl rfl rfl
  cleared _ := tablesConsistent_of_invalid rfl rfl
  reset _ := tablesConsistent_of_invalid rfl rfl
  freq _ _ _ := tablesConsistent_of_invalid rfl rfl
  symIn _ _ h := h.congr rfl rfl rfl rfl rfl rfl rfl rfl
  bits _ _ h := h.congr rfl rfl rfl rfl rfl rfl rfl rfl

/-- Settles O57: whatever changes FREQ or TREE clears or sets the flags with it. -/
theorem stepKeepsTablesConsistent : Obligations.StepKeepsTablesConsistent :=
  fun _ _ h hstep => kept_tablesConsistent.step h hstep

end Sys2Proof.Machine

/-!
PROOFS. The forms of the registers and tables (10_state.md R35 to R42, R47, R48), the report of the last
command (R29, R39), and the whole invariant: it holds after a reset, and every step keeps it.
-/

namespace Sys2Proof.Machine

/-! The forms of the registers and tables. -/

theorem Node.formed_zero : Node.zero.formed = true := rfl

/-- A record BUILD makes is a leaf, an internal node or zero (R141, R143, R146). -/
theorem formed_buildTree (freq : Vector Word 256) (i : NodeIdx) :
    (nodeAt (buildTree freq).tree i).formed = true := by
  obtain hge | hlt := le_or_gt (2 * distinctSymbols freq - 1) i.toNat
  · rw [nodeAt_buildTree_of_ge hge, Node.formed_zero]
  obtain hleaf | hinternal := Nat.lt_or_ge i.toNat (distinctSymbols freq)
  · obtain ⟨a, -, hnode⟩ := exists_leafNode hleaf
    rw [hnode]
    rfl
  · have hjoins := joinsLightest_buildTree (freq := freq) (by omega) hinternal
      (by rw [toNat_rootIndex]; omega)
    rw [nodeAt_buildTree, Node.formed, hjoins.internal, hjoins.sym]
    rfl

/-- LK_BITS of an entry in its form has its bits below LK_LEN (R42, R48). -/
theorem getLsbD_lookupWords_of_formed {e : CodeEntry} (h : e.Formed) (k : Fin 8) {j : Nat} (hj : j < 32)
    (hlen : e.len.toNat ≤ 32 * k.val + j) : ((lookupWords e.bits)[k.val]).getLsbD j = false := by
  obtain ⟨-, -, hbits⟩ := h
  rw [getLsbD_lookupWords _ _ hj, hbits _ hlen]

theorem getLsbD_replicate_zero (k : Fin 8) (j : Nat) :
    ((Vector.replicate 8 (0 : Word))[k.val]).getLsbD j = false := by simp

/-- The registers and tables of the reset state have their forms (R271). -/
theorem formsOk_of_reset {s : State} (hencBits : s.encBits = 0) (hencBytes : s.encBytes = 0)
    (houtLen : s.outLen = 0) (hnsym : s.nsym = 0) (hlkBits : s.lkBits = Vector.replicate 8 0)
    (htree : s.tree = Vector.replicate 511 Node.zero)
    (hcode : s.code = Vector.replicate 256 CodeEntry.invalid) : s.FormsOk where
  encBytes := by rw [hencBits, hencBytes]; rfl
  encBits := by rw [hencBits]; exact Nat.zero_le _
  outLen := by rw [houtLen]; exact Nat.zero_le _
  nsym := by rw [hnsym]; exact Nat.zero_le _
  lkBits k j _ _ := by rw [hlkBits, getLsbD_replicate_zero]
  tree i := by rw [htree, nodeAt_replicate, Node.formed_zero]
  code a := by rw [hcode, entryOf_replicate]; exact CodeEntry.formed_invalid

/-- The forms are of these registers and tables, and of two capacities. -/
theorem State.FormsOk.congr {s t : State} (h : s.FormsOk) (hsame : s.SameContents t) : t.FormsOk where
  encBytes := by rw [hsame.encBytes, hsame.encBits]; exact h.encBytes
  encBits := by rw [hsame.encBits, hsame.params]; exact h.encBits
  outLen := by rw [hsame.outLen, hsame.params]; exact h.outLen
  nsym := by rw [hsame.nsym]; exact h.nsym
  lkBits := by rw [hsame.lkBits, hsame.lkLen]; exact h.lkBits
  tree := by rw [hsame.tree]; exact h.tree
  code := by rw [hsame.code]; exact h.code

theorem State.FormsOk.built {s : State} (h : s.FormsOk) : s.built.FormsOk :=
  { h with
    nsym := by
      have hle := distinctSymbols_le s.freq
      simp only [State.built, buildTree_nsym, BitVec.toNat_ofNat]
      omega
    tree := formed_buildTree s.freq
    code := fun a => by
      simp only [State.built, entryOf_replicate]
      exact CodeEntry.formed_invalid }

/-- The counts of a stream that fits BITS are those of its bits (R35, R36). -/
theorem State.FormsOk.stored {s : State} (h : s.FormsOk) (hlegal : s.params.legal = true)
    (hwf : s.bits.wf = true) {w : Writer} (hw : w.FitsIn s) : (storeStream w.close s).FormsOk := by
  obtain ⟨l, hfit, hholds⟩ := hw hwf
  have hbits := toNat_streamLength hlegal hfit
  have hbytes := toNat_streamLength (s := s) (n := (l.length + 7) / 8) hlegal (by omega)
  rw [hholds.storeStream_close]
  exact { h with
    encBytes := by rw [hbits, hbytes]
    encBits := by rw [hbits]; exact hfit }

/-- The parameters, buffers and forms together: ENCODE keeps the form of its counts because BITS is in its
own form and its capacity is legal. -/
structure State.WellFormed (s : State) : Prop where
  legal : s.params.legal = true
  buffers : s.BuffersOk
  forms : s.FormsOk

theorem kept_wellFormed : Kept State.WellFormed where
  contents hsame h :=
    ⟨hsame.params ▸ h.legal, kept_buffersOk.contents hsame h.buffers, h.forms.congr hsame⟩
  counted h := ⟨h.legal, kept_buffersOk.counted h.buffers, { h.forms with }⟩
  built h := ⟨h.legal, kept_buffersOk.built h.buffers, h.forms.built⟩
  tabled htree h :=
    ⟨h.legal, kept_buffersOk.tabled htree h.buffers, { h.forms with code := formed_deriveCode _ _ }⟩
  noStream h :=
    ⟨h.legal, kept_buffersOk.noStream h.buffers,
      { h.forms with encBytes := by simp, encBits := Nat.zero_le _ }⟩
  stored hw h :=
    ⟨h.legal, kept_buffersOk.stored hw h.buffers, h.forms.stored h.legal (h.buffers .bits).1 hw⟩
  noOutput h :=
    ⟨h.legal, kept_buffersOk.noOutput h.buffers, { h.forms with outLen := Nat.zero_le _ }⟩
  emitted hfit h :=
    ⟨h.legal, kept_buffersOk.emitted hfit h.buffers,
      { h.forms with outLen := (toNat_outLen h.legal hfit).trans_le hfit }⟩
  found a h :=
    ⟨h.legal, kept_buffersOk.found a h.buffers,
      { h.forms with lkBits := fun k _ => getLsbD_lookupWords_of_formed (h.forms.code a) k }⟩
  unknown h :=
    ⟨h.legal, kept_buffersOk.unknown h.buffers,
      { h.forms with lkBits := fun k j _ _ => getLsbD_replicate_zero k j }⟩
  cleared h := ⟨h.legal, kept_buffersOk.cleared h.buffers, formsOk_of_reset rfl rfl rfl rfl rfl rfl rfl⟩
  reset h := ⟨h.legal, kept_buffersOk.reset h.buffers, formsOk_of_reset rfl rfl rfl rfl rfl rfl rfl⟩
  freq a v h := ⟨h.legal, kept_buffersOk.freq a v h.buffers, { h.forms with }⟩
  symIn first v h := ⟨h.legal, kept_buffersOk.symIn first v h.buffers, { h.forms with }⟩
  bits first v h := ⟨h.legal, kept_buffersOk.bits first v h.buffers, { h.forms with }⟩

/-- No step changes a parameter (R8). -/
theorem kept_params (p : Params) : Kept fun s => s.params = p where
  contents hsame h := hsame.params.trans h
  counted h := h
  built h := h
  tabled _ h := h
  noStream h := h
  stored _ h := h
  noOutput h := h
  emitted _ h := h
  found _ h := h
  unknown h := h
  cleared h := h
  reset h := h
  freq _ _ h := h
  symIn _ _ h := h
  bits _ _ h := h

/-! The report of the last command (R39, R220). -/

/-- A body that started with ERR_INFO `n`: without an error it leaves that, and an error has a code. -/
def Ended.ReportsOver (n : Word) : Ended → Prop
  | .finished t => t.errInfo = n
  | .raised e _ _ => e ≠ .none

theorem Ended.ReportsOver.andThen {n : Word} {r : Ended} (h : r.ReportsOver n) {stage : State → Ended}
    (hstage : ∀ t, (stage t).ReportsOver t.errInfo) : (r.andThen stage).ReportsOver n := by
  cases r with
  | finished t =>
    obtain rfl : t.errInfo = n := h
    exact hstage t
  | raised e info t => exact h

theorem reportsOver_countBody (s : State) : (countBody s).ReportsOver s.errInfo := by
  have hends := countBody_outcome s
  generalize countBody s = r at hends
  cases hends with
  | range => exact ErrCode.noConfusion
  | counted => rfl

theorem reportsOver_tableBody (s : State) : (tableBody s).ReportsOver s.errInfo := by
  have hends := tableBody_outcome s
  generalize tableBody s = r at hends
  cases hends with
  | noTree => exact ErrCode.noConfusion
  | tabled => rfl

theorem reportsOver_tableStage (s : State) : (tableStage s).ReportsOver s.errInfo := by
  unfold tableStage
  split
  · exact reportsOver_tableBody s
  · rfl

theorem reportsOver_encodeBody (s : State) : (encodeBody s).ReportsOver s.errInfo := by
  have hends := encodeBody_outcome s
  generalize encodeBody s = r at hends
  cases hends with
  | range => exact ErrCode.noConfusion
  | empty => rfl
  | noTable => exact ErrCode.noConfusion
  | whole => rfl
  | stopped w hw e info he => obtain rfl | rfl := he <;> exact ErrCode.noConfusion

theorem reportsOver_decodeBody (s : State) : (decodeBody s).ReportsOver s.errInfo := by
  have hends := decodeBody_outcome s
  generalize decodeBody s = r at hends
  cases hends with
  | range => exact ErrCode.noConfusion
  | empty => rfl
  | noTree => exact ErrCode.noConfusion
  | whole => rfl
  | stopped out hfit e info he => obtain rfl | rfl := he <;> exact ErrCode.noConfusion

theorem reportsOver_lookupBody (a : Sym) (s : State) : (lookupBody a s).ReportsOver s.errInfo := by
  have hends := lookupBody_outcome a s
  generalize lookupBody a s = r at hends
  cases hends with
  | noTable => exact ErrCode.noConfusion
  | found => rfl
  | unknown => exact ErrCode.noConfusion

/-- No command writes ERR_INFO but with an error (R39, R255). -/
theorem reportsOver_bodyOf (i : Instr) (s : State) : (bodyOf i s).ReportsOver s.errInfo := by
  cases i with
  | nop => rfl
  | count => exact reportsOver_countBody s
  | build => rfl
  | table => exact reportsOver_tableBody s
  | encode => exact reportsOver_encodeBody s
  | decode => exact reportsOver_decodeBody s
  | compress =>
    exact (((reportsOver_countBody s).andThen (stage := buildBody) fun _ => rfl).andThen
      reportsOver_tableStage).andThen reportsOver_encodeBody
  | lookup a => exact reportsOver_lookupBody a s
  | clear => rfl

/-- An idle block owes ERR_INFO = 0 where there is no error (R39). -/
theorem reportOk_of_idle {s : State} (hidle : s.seq = .idle) (h : s.errCode = .none → s.errInfo = 0) :
    s.ReportOk where
  busyClears hbusy := by rw [State.isBusy_idle hidle] at hbusy; cases hbusy
  noErrorNoInfo := h

/-- A busy block owes a cleared report (R220). -/
theorem reportOk_of_cleared {s : State} (hdone : s.done = false) (hcode : s.errCode = .none)
    (hinfo : s.errInfo = 0) : s.ReportOk where
  busyClears _ := ⟨hdone, hcode, hinfo⟩
  noErrorNoInfo _ := hinfo

/-- The report is of SEQ, DONE, ERR_CODE and ERR_INFO; clearing DONE keeps it. -/
theorem State.ReportOk.congr {s t : State} (h : s.ReportOk) (hseq : t.isBusy = s.isBusy)
    (hdone : s.done = false → t.done = false) (hcode : t.errCode = s.errCode)
    (hinfo : t.errInfo = s.errInfo) : t.ReportOk where
  busyClears hbusy := by
    obtain ⟨hd, hc, hi⟩ := h.busyClears (hseq.symm.trans hbusy)
    exact ⟨hdone hd, hcode.trans hc, hinfo.trans hi⟩
  noErrorNoInfo hnone := hinfo.trans (h.noErrorNoInfo (hcode.symm.trans hnone))

/-- Completion leaves the report of how the body ended (R222, R255). -/
theorem Ended.ReportsOver.reportOk_conclude {r : Ended} (h : r.ReportsOver 0) : r.conclude.ReportOk := by
  cases r with
  | finished t => exact reportOk_of_idle rfl fun _ => h
  | raised e info t => exact reportOk_of_idle rfl fun hnone => absurd hnone h

theorem reportOk_runCommand {w : Word} {s t : State} (hinfo : s.errInfo = 0)
    (hrun : runCommand w s = .next t) : t.ReportOk := by
  obtain ⟨i, hcommand⟩ | hillegal := runCommand_cases w s
  · rw [hcommand] at hrun
    cases hrun
    have hreports := reportsOver_bodyOf i s
    rw [hinfo] at hreports
    exact hreports.reportOk_conclude
  · rw [hillegal] at hrun
    cases hrun
    exact reportOk_of_idle rfl fun _ => rfl

theorem State.ReportOk.writeStatus {s : State} (h : s.ReportOk) (v : Word) : (writeStatus v s).ReportOk :=
  h.congr rfl (fun hdone => by rw [Machine.writeStatus, hdone, Bool.false_and]) rfl rfl

/-- A host write accepts a command, which clears the report, or leaves the report but for DONE. -/
theorem State.ReportOk.writeTarget {s : State} (h : s.ReportOk) (v : Word) (t : Target) :
    (writeTarget v s t).ReportOk := by
  obtain hidle | ⟨w, hold, hbusy⟩ := s.seq_cases
  · obtain e | e | e | e | e | e | ⟨a, e⟩ | ⟨first, e⟩ | ⟨first, e⟩ := writeTarget_idle hidle v t <;>
      rw [e]
    · exact h
    · exact h.congr rfl id rfl rfl
    · exact h.writeStatus v
    · exact reportOk_of_cleared rfl rfl rfl
    · exact h.congr rfl id rfl rfl
    · exact h.congr rfl id rfl rfl
    · exact h.congr rfl id rfl rfl
    · exact h.congr rfl id rfl rfl
    · exact h.congr rfl id rfl rfl
  · obtain e | e | e | e := writeTarget_busy hbusy v t <;> rw [e]
    · exact h
    · exact h.congr rfl id rfl rfl
    · exact h.writeStatus v
    · exact h.congr rfl id rfl rfl

theorem State.ReportOk.hostAccess {s : State} (h : s.ReportOk) (a : Access) :
    (hostAccess a s).ReportOk := by
  obtain ⟨v, t, e⟩ | ⟨resp, draws, e⟩ := hostAccess_cases a s <;> rw [e]
  · exact (h.writeTarget v t).congr rfl id rfl rfl
  · exact h.congr rfl id rfl rfl

theorem reportOk_applyReset (s : State) : (applyReset s).ReportOk := reportOk_of_cleared rfl rfl rfl

theorem State.ReportOk.serveIdle {s : State} (h : s.ReportOk) : (serveIdle s).ReportOk := by
  unfold Machine.serveIdle
  split
  · exact h
  next a rest _ =>
    exact State.ReportOk.hostAccess (s := { s with inbox := rest }) (h.congr rfl id rfl rfl) a
  next => exact h.congr rfl id rfl rfl
  next => exact reportOk_applyReset _

theorem State.ReportOk.step {s t : State} (h : s.ReportOk) (hstep : step s = .next t) : t.ReportOk := by
  obtain ⟨w, hold, hbusy, hcase⟩ | ⟨-, hcase⟩ | ⟨w, left, a, rest, hbusy, -, hcase⟩ |
    ⟨w, left, rest, -, -, hcase⟩ := step_cases s
  · obtain ⟨-, -, hinfo⟩ := h.busyClears (State.isBusy_busy hbusy)
    exact reportOk_runCommand hinfo (hcase.symm.trans hstep)
  · cases hcase.symm.trans hstep
    exact h.serveIdle
  · cases hcase.symm.trans hstep
    obtain ⟨hdone, hcode, hinfo⟩ := h.busyClears (State.isBusy_busy hbusy)
    exact State.ReportOk.hostAccess
      (s := { s with inbox := rest, seq := .busy w left }) (reportOk_of_cleared hdone hcode hinfo) a
  · cases hcase.symm.trans hstep
    exact reportOk_applyReset _

/-- Settles O59: a step keeps each of the invariants. -/
theorem stepKeepsTheInvariants : Obligations.StepKeepsTheInvariants := by
  intro s t h hstep
  obtain ⟨hlegal, hbuffers, hforms⟩ :=
    kept_wellFormed.step ⟨h.params, h.buffers, h.forms⟩ hstep
  exact ⟨⟨hlegal, hbuffers, kept_tablesConsistent.step h.tables hstep, hforms, h.report.step hstep⟩,
    (kept_params s.params).step rfl hstep⟩

/-- The state right after a reset meets every invariant, whatever the buffers hold (R271, R273). -/
theorem inv_resetWith {p : Params} {symIn bits symOut : Memory} (hlegal : p.legal = true)
    (hbuffers : ({ State.resetWith p with symIn := symIn, bits := bits, symOut := symOut } :
      State).BuffersOk) :
    ({ State.resetWith p with symIn := symIn, bits := bits, symOut := symOut } : State).Inv where
  params := hlegal
  buffers := hbuffers
  tables := tablesConsistent_of_invalid rfl rfl
  forms := formsOk_of_reset rfl rfl rfl rfl rfl rfl rfl
  report := reportOk_of_cleared rfl rfl rfl

theorem Memory.ok_nil (cap : Nat) : Memory.Ok cap [] := ⟨rfl, rfl⟩

/-- Settles O56: the reset values have their forms, and nothing is valid. -/
theorem resetMeetsTheInvariants : Obligations.ResetMeetsTheInvariants := by
  refine ⟨?default, fun _ _ _ _ hlegal hbuffers => inv_resetWith hlegal hbuffers⟩
  case default =>
    exact inv_resetWith (p := Config.params) (by decide)
      (buffersOk_iff.2 ⟨Memory.ok_nil _, Memory.ok_nil _, Memory.ok_nil _⟩)

end Sys2Proof.Machine
